-- ==== Sys2Proof/Word.lean ====
section
/-! DEFINITION. The word types of the Instructions.md CPU: the widths that 00_scope R7 calls fixed by the source
(`XLEN`, `RIDX`, `ALEN`, `IMMLEN`) and the byte and word of 30_encoding R80. -/

namespace Sys2Proof

/-- One byte, 8 bits: what one address names (20_memory R51) and what each encoding field of one byte holds. -/
abbrev Byte := BitVec 8

/-- A 16-bit value (`XLEN`, `IMMLEN`, `WORD`): a general register, an ALU value, `operand 2`. -/
abbrev Word := BitVec 16

/-- A 32-bit value: `val32` of 30_encoding R85, and the pair moved by the 32-bit forms of mov. -/
abbrev DWord := BitVec 32

/-- A 32-bit byte address (`ALEN`, 20_memory R50): `pc`, a label, an effective address. -/
abbrev Addr := BitVec 32

/-- A register number, the 8-bit fields rd, rn and rn1 (`RIDX`, 10_state R20). -/
abbrev RegNum := BitVec 8

end Sys2Proof
end

