-- ==== Sys2Proof/Config.lean ====
section
/-! DEFINITION. What an implementation or a launch fixes (00_scope R7): the parameters the spec leaves OPEN or gives a
reference value, as plain data that State carries, and the uninterpreted functions a parameter may stand for.

Parameters of R7 that are not data here: the widths that R7 calls fixed by the source or derived, `XLEN`, `RIDX`,
`ALEN`, `IMMLEN`, `WORD` (Word.lean). The reference values are in Decode.lean. -/

namespace Sys2Proof

/-- `BYTE_ORDER` (20_memory R53, D4, U14): where the bytes of a 16-bit or 32-bit value lie, in memory and in the operand
fields of an instruction. -/
inductive ByteOrder where
  /-- The least significant byte at the lowest address: the spec's reference value. -/
  | little
  /-- The most significant byte at the lowest address. -/
  | big
deriving DecidableEq, Repr

/-- The eight two-operand instructions of 41_alu, by which `op` and `OvfUpdate` are indexed (R133, R134). -/
inductive AluOp where
  | add | sub | mul | and | or | xor | lsh | rsh
deriving DecidableEq, Repr

/-- `OvfUpdate` (41_alu R134, D15, U3): the reference instantiation REF-OVF, or a function of which nothing is known. -/
inductive OvfRule where
  /-- REF-OVF, the spec's reference value. -/
  | refOvf
  /-- `OvfUpdate` kept uninterpreted: no claim can depend on the flag after an ALU instruction. -/
  | uninterpreted
deriving DecidableEq, Repr

/-- `ShiftRule` (41_alu R162, R166, D16, U6, U17). -/
inductive ShiftRule where
  /-- Logical shifts, amounts of 16 and more give 0: the spec's reference value. -/
  | reference
  /-- Nothing is known of a shift by 16 or more, nor of a right shift of a value whose bit 15 is set. -/
  | uninterpreted
deriving DecidableEq, Repr

/-- `OVERLAP_POLICY` (42_mov R202, D22, U8). -/
inductive OverlapPolicy where
  /-- rd is written first, so that the register ends with the lower half: the spec's reference value. -/
  | rdFirst
  /-- Nothing is known of the register when both destinations of one instruction are the same register. -/
  | uninterpreted
deriving DecidableEq, Repr

/-- `MISALIGNED_POLICY` (20_memory R57, D13, log 19): what a data access does whose address is not a multiple of its
size. -/
inductive MisalignedPolicy where
  /-- It raises `MisalignedAccess`: the spec's reference value. -/
  | fault
  /-- It accesses the bytes from its address on, as an aligned access does. -/
  | perform
deriving DecidableEq, Repr

/-- One form's part of `ENC_LAYOUT` and `LEN` (30_encoding R82 to R89): the byte offsets of its fields from the
instruction's address, and its length in bytes. The offset of a field that the form does not use means nothing. -/
structure FormLayout where
  /-- `LEN` of the form (30_encoding R89). -/
  length  : Nat
  /-- The register field rd. -/
  rd      : Nat
  /-- The register field rn. -/
  rn      : Nat
  /-- The register field rn1. -/
  rn1     : Nat
  /-- The first byte of the operand field: `imm16`, `val32` or the Offset. -/
  operand : Nat
deriving DecidableEq, Repr

/-- `ENC_LAYOUT` and `LEN` (00_scope R7, D5, D6, log 12): where the bytes that select the form lie in every
instruction, and the layout of each form. -/
structure Layout where
  /-- The byte offset of the opcode. -/
  opcode : Nat
  /-- The byte offset of the specifier. -/
  spec   : Nat
  /-- One entry for each row of spec/opcode_table.json, in its order. -/
  forms  : List FormLayout
deriving DecidableEq, Repr

/-- The parameters of the step that are not the launch's memory (00_scope R7). No step writes them. -/
structure Params where
  /-- `NREGS`, OPEN, 4 to 256 (10_state R21). -/
  nregs     : Nat
  /-- `BYTE_ORDER` (20_memory R53). -/
  byteOrder : ByteOrder
  /-- `ENC_LAYOUT` and `LEN` (30_encoding R82 to R89). -/
  layout    : Layout
  /-- `IALIGN`, in bytes (20_memory R58, log 19). -/
  ialign    : Nat
  /-- `MISALIGNED_POLICY` (20_memory R57). -/
  misaligned : MisalignedPolicy
  /-- `OFFLEN`, in bits (42_mov R182, 30_encoding R85, log 21). -/
  offLen    : Nat
  /-- `OvfUpdate` (41_alu R134). -/
  ovfUpdate : OvfRule
  /-- `ShiftRule` (41_alu R162, R166). -/
  shiftRule : ShiftRule
  /-- `CMP_SIGNED` (43_branch R221). -/
  cmpSigned : Bool
  /-- `OVERLAP_POLICY` (42_mov R202). -/
  overlap   : OverlapPolicy
deriving DecidableEq, Repr

/-- A run of consecutive byte addresses, `base` to `base + size - 1`: one piece of `DATA_MAP`. -/
structure Region where
  base : Nat
  size : Nat
deriving DecidableEq, Repr

/-- What a launch lays out in the address space (20_memory R52, R56; 70_reset_and_hazards R282). No step writes it. -/
structure Launch where
  /-- `PROG_BASE`. -/
  progBase : Addr
  /-- The bytes of `PROG`, in address order. -/
  prog     : List Byte
  /-- `DATA_MAP`, as regions; an address of the text range is never a data address (log 20). -/
  dataMap  : List Region
deriving DecidableEq, Repr

/-- `PROG_END` = `PROG_BASE` plus the length of the text in bytes, an exact integer (00_scope R7, 20_memory R56). -/
def Launch.progEnd (l : Launch) : Nat := l.progBase.toNat + l.prog.length

/-- `RESET_PC`, which the spec leaves OPEN (10_state R34). DESIGN CHOICE, unsafe, log 1: the start pc of every vector
of 95_test_vectors. -/
def Config.resetPc : Addr := 0x00001000

/-- What a byte of memory that nothing has written reads as. DESIGN CHOICE, unsafe, log 4: the spec says "unspecified"
(10_state R34). -/
def Config.unlistedByte : Byte := 0

/-- `OvfUpdate` under `OvfRule.uninterpreted`: a free value, a function of what 41_alu R134 gives it (log 7). -/
opaque Config.ovfUpdate : AluOp → Word → Word → Bool → Bool

/-- The result of a shift where D16 errs, under `ShiftRule.uninterpreted`: a free value, a function of the
operation, the value and the amount (log 8). -/
opaque Config.shiftValue : AluOp → Word → Word → Word

/-- What the one register holds under `OverlapPolicy.uninterpreted`: a free value, a function of the upper and the
lower half that were to be written (log 10). -/
opaque Config.overlapValue : Word → Word → Word

end Sys2Proof
end

