-- ==== Sys2Proof/Machine/Bytes.lean ====
section
/-! DEFINITION. Bit fields and byte order: the halves of a register (10_state R23), and 16-bit and 32-bit values as
bytes under `BYTE_ORDER` (20_memory R53, 30_encoding R86). Byte order and halves are decided here and nowhere else
(log 11, log 22). -/

namespace Sys2Proof

/-- `v[7:0]`, the `.L` half of a 16-bit value (10_state R23, GK1). -/
def lowByte (v : Word) : Byte := v.extractLsb' 0 8

/-- `v[15:8]`, the `.H` half of a 16-bit value (10_state R23, GK1). -/
def highByte (v : Word) : Byte := v.extractLsb' 8 8

/-- `hi ++ lo`: the 16-bit value with the given halves (00_scope section 5). -/
def joinBytes (hi lo : Byte) : Word := (hi ++ lo : BitVec (8 + 8)).setWidth 16

/-- `v[31:16]`, the half that rd holds of a 32-bit move (42_mov R184, R189). -/
def upperHalf (v : DWord) : Word := v.extractLsb' 16 16

/-- `v[15:0]`, the half that the second register holds of a 32-bit move (42_mov R184, R189). -/
def lowerHalf (v : DWord) : Word := v.extractLsb' 0 16

/-- `upper ++ lower`: the 32-bit value held by a register pair (42_mov R193). -/
def joinHalves (upper lower : Word) : DWord := (upper ++ lower : BitVec (16 + 16)).setWidth 32

/-- A 16-bit value from its two bytes, the least significant first. -/
def leWord (b0 b1 : Byte) : Word := (b1 ++ b0 : BitVec (8 + 8)).setWidth 16

/-- A 32-bit value from its four bytes, the least significant first. -/
def leDWord (b0 b1 b2 b3 : Byte) : DWord :=
  (b3 ++ b2 ++ b1 ++ b0 : BitVec (8 + 8 + 8 + 8)).setWidth 32

/-- A 16-bit value from its two bytes, the one of the lower address first (20_memory R53, 30_encoding R86). -/
def wordOf (order : ByteOrder) (b0 b1 : Byte) : Word :=
  match order with
  | .little => leWord b0 b1
  | .big => leWord b1 b0

/-- A 32-bit value from its four bytes, the one of the lowest address first (20_memory R53, 30_encoding R86). -/
def dwordOf (order : ByteOrder) (b0 b1 b2 b3 : Byte) : DWord :=
  match order with
  | .little => leDWord b0 b1 b2 b3
  | .big => leDWord b3 b2 b1 b0

/-- The bytes of a value in address order, from its bytes with the least significant first (20_memory R53). -/
def inByteOrder (order : ByteOrder) (leastFirst : List Byte) : List Byte :=
  match order with
  | .little => leastFirst
  | .big => leastFirst.reverse

/-- The two bytes of a 16-bit value in address order (20_memory R55). -/
def wordBytes (order : ByteOrder) (v : Word) : List Byte :=
  inByteOrder order [v.extractLsb' 0 8, v.extractLsb' 8 8]

/-- The four bytes of a 32-bit value, the least significant first. -/
def leastFirst (v : DWord) : List Byte :=
  [v.extractLsb' 0 8, v.extractLsb' 8 8, v.extractLsb' 16 8, v.extractLsb' 24 8]

/-- The four bytes of a 32-bit value in address order (20_memory R55). -/
def dwordBytes (order : ByteOrder) (v : DWord) : List Byte := inByteOrder order (leastFirst v)

/-- An operand field of `n` bytes, at most four, in address order (30_encoding R85, R86): the low bytes of a value. -/
def fieldBytes (order : ByteOrder) (n : Nat) (v : DWord) : List Byte := inByteOrder order ((leastFirst v).take n)

/-- The value of an operand field from its bytes in address order, zero-extended (30_encoding R86, R91, R92). -/
def fieldValue (order : ByteOrder) (bytes : List Byte) : DWord :=
  let b := inByteOrder order bytes
  leDWord (b.getD 0 0) (b.getD 1 0) (b.getD 2 0) (b.getD 3 0)

end Sys2Proof
end

