-- ==== Sys2Proof/Syntax.lean ====
section
/-! DEFINITION. The instructions: one constructor for each row of spec/opcode_table.json (50 forms, 30_encoding R89).
A constructor holds exactly the fields its form uses; unused fields are zero and are not operands (30_encoding R98).
Beside them the forms themselves, by which encoding and length are indexed, without their operands. -/

namespace Sys2Proof

/-- The 50 instruction forms. -/
inductive Instr where
  /-- `nop` (40_nop R120). -/
  | nop
  /-- `add rd, #imm16`, specifier 0x00 (41_alu R135). -/
  | addImm (rd : RegNum) (imm : Word)
  /-- `add rd, rn`, specifier 0x01 (41_alu R136). -/
  | addReg (rd rn : RegNum)
  /-- `add rd, [addr32]`, specifier 0x02 (41_alu R137). -/
  | addMem (rd : RegNum) (addr : Addr)
  /-- `sub rd, #imm16`, specifier 0x00 (41_alu R139). -/
  | subImm (rd : RegNum) (imm : Word)
  /-- `sub rd, rn`, specifier 0x01 (41_alu R140). -/
  | subReg (rd rn : RegNum)
  /-- `sub rd, [addr32]`, specifier 0x02 (41_alu R141). -/
  | subMem (rd : RegNum) (addr : Addr)
  /-- `mul rd, #imm16`, specifier 0x00 (41_alu R143). -/
  | mulImm (rd : RegNum) (imm : Word)
  /-- `mul rd, rn`, specifier 0x01 (41_alu R144). -/
  | mulReg (rd rn : RegNum)
  /-- `mul rd, [addr32]`, specifier 0x02 (41_alu R145). -/
  | mulMem (rd : RegNum) (addr : Addr)
  /-- `and rd, #imm16`, specifier 0x00 (41_alu R147). -/
  | andImm (rd : RegNum) (imm : Word)
  /-- `and rd, rn`, specifier 0x01 (41_alu R148). -/
  | andReg (rd rn : RegNum)
  /-- `and rd, [addr32]`, specifier 0x02 (41_alu R149). -/
  | andMem (rd : RegNum) (addr : Addr)
  /-- `or rd, #imm16`, specifier 0x00 (41_alu R151). -/
  | orImm (rd : RegNum) (imm : Word)
  /-- `or rd, rn`, specifier 0x01 (41_alu R152). -/
  | orReg (rd rn : RegNum)
  /-- `or rd, [addr32]`, specifier 0x02 (41_alu R153). -/
  | orMem (rd : RegNum) (addr : Addr)
  /-- `xor rd, #imm16`, specifier 0x00 (41_alu R155). -/
  | xorImm (rd : RegNum) (imm : Word)
  /-- `xor rd, rn`, specifier 0x01 (41_alu R156). -/
  | xorReg (rd rn : RegNum)
  /-- `xor rd, [addr32]`, specifier 0x02 (41_alu R157). -/
  | xorMem (rd : RegNum) (addr : Addr)
  /-- `lsh rd, #imm16`, specifier 0x00 (41_alu R159). -/
  | lshImm (rd : RegNum) (imm : Word)
  /-- `lsh rd, rn`, specifier 0x01 (41_alu R160). -/
  | lshReg (rd rn : RegNum)
  /-- `lsh rd, [addr32]`, specifier 0x02 (41_alu R161). -/
  | lshMem (rd : RegNum) (addr : Addr)
  /-- `rsh rd, #imm16`, specifier 0x00 (41_alu R163). -/
  | rshImm (rd : RegNum) (imm : Word)
  /-- `rsh rd, rn`, specifier 0x01 (41_alu R164). -/
  | rshReg (rd rn : RegNum)
  /-- `rsh rd, [addr32]`, specifier 0x02 (41_alu R165). -/
  | rshMem (rd : RegNum) (addr : Addr)
  /-- `mov rd, #imm16`, specifier 0x00 (42_mov R183). -/
  | movImm (rd : RegNum) (imm : Word)
  /-- `mov rd, rn, #imm32`, specifier 0x01 (42_mov R184). -/
  | movImm32 (rd rn : RegNum) (imm : DWord)
  /-- `mov rd, rn` (copies rd INTO rn), specifier 0x02 (42_mov R185). -/
  | movReg (rd rn : RegNum)
  /-- `mov rd.L, [addr32]`, specifier 0x03 (42_mov R186). -/
  | loadLowAbs (rd : RegNum) (addr : Addr)
  /-- `mov rd.H, [addr32]`, specifier 0x04 (42_mov R187). -/
  | loadHighAbs (rd : RegNum) (addr : Addr)
  /-- `mov rd, [addr32]`, specifier 0x05 (42_mov R188). -/
  | loadWordAbs (rd : RegNum) (addr : Addr)
  /-- `mov rd, rn1, [addr32]`, specifier 0x06 (42_mov R189). -/
  | loadPairAbs (rd rn1 : RegNum) (addr : Addr)
  /-- `mov [addr32], rd.L`, specifier 0x07 (42_mov R190). -/
  | storeLowAbs (rd : RegNum) (addr : Addr)
  /-- `mov [addr32], rd.H`, specifier 0x08 (42_mov R191). -/
  | storeHighAbs (rd : RegNum) (addr : Addr)
  /-- `mov [addr32], rd`, specifier 0x09 (42_mov R192). -/
  | storeWordAbs (rd : RegNum) (addr : Addr)
  /-- `mov [addr32], rd, rn1`, specifier 0x0A (42_mov R193). -/
  | storePairAbs (rd rn1 : RegNum) (addr : Addr)
  /-- `mov rd.L, [rn + off32]`, specifier 0x0B (42_mov R194). -/
  | loadLowRel (rd rn : RegNum) (off : DWord)
  /-- `mov rd.H, [rn + off32]`, specifier 0x0C (42_mov R195). -/
  | loadHighRel (rd rn : RegNum) (off : DWord)
  /-- `mov rd, [rn + off32]`, specifier 0x0D (42_mov R196). -/
  | loadWordRel (rd rn : RegNum) (off : DWord)
  /-- `mov rd, rn1, [rn + off32]`, specifier 0x0E (42_mov R197). -/
  | loadPairRel (rd rn rn1 : RegNum) (off : DWord)
  /-- `mov [rn + off32], rd.L`, specifier 0x0F (42_mov R198). -/
  | storeLowRel (rd rn : RegNum) (off : DWord)
  /-- `mov [rn + off32], rd.H`, specifier 0x10 (42_mov R199). -/
  | storeHighRel (rd rn : RegNum) (off : DWord)
  /-- `mov [rn + off32], rd`, specifier 0x11 (42_mov R200). -/
  | storeWordRel (rd rn : RegNum) (off : DWord)
  /-- `mov [rn + off32], rd, rn1`, specifier 0x12 (42_mov R201). -/
  | storePairRel (rd rn rn1 : RegNum) (off : DWord)
  /-- `b label` (43_branch R222). -/
  | b (label : Addr)
  /-- `be rd, rn, label` (43_branch R223). -/
  | be (rd rn : RegNum) (label : Addr)
  /-- `bne rd, rn, label` (43_branch R224). -/
  | bne (rd rn : RegNum) (label : Addr)
  /-- `blt rd, rn, label` (43_branch R225). -/
  | blt (rd rn : RegNum) (label : Addr)
  /-- `bgt rd, rn, label` (43_branch R226). -/
  | bgt (rd rn : RegNum) (label : Addr)
  /-- `bro label` (43_branch R227). -/
  | bro (label : Addr)
deriving DecidableEq, Repr

/-- Where an arithmetic form takes its second operand from (41_alu R131). -/
inductive AluKind where
  /-- Specifier 0x00: the immediate. -/
  | imm
  /-- Specifier 0x01: a register. -/
  | reg
  /-- Specifier 0x02: memory at an absolute address. -/
  | mem
deriving DecidableEq, Repr

/-- What a load or a store of mov moves (42_mov R180). -/
inductive MovePart where
  /-- The low half of rd. -/
  | low
  /-- The high half of rd. -/
  | high
  /-- All of rd. -/
  | word
  /-- rd and rn1, as 32 bits. -/
  | pair
deriving DecidableEq, Repr

/-- How a load or a store of mov addresses memory (42_mov R180). -/
inductive AddressKind where
  /-- At `val32`. -/
  | absolute
  /-- At `x[rn]` plus the Offset. -/
  | relative
deriving DecidableEq, Repr

/-- The 50 forms, the rows of spec/opcode_table.json, without their operands. -/
inductive Form where
  | nop
  | alu (op : AluOp) (kind : AluKind)
  | movImm
  | movImm32
  | movReg
  | load (part : MovePart) (kind : AddressKind)
  | store (part : MovePart) (kind : AddressKind)
  | b
  | be
  | bne
  | blt
  | bgt
  | bro
deriving DecidableEq, Repr

end Sys2Proof
end

