-- ==== Sys2Proof/Decode.lean ====
section
/-! DEFINITION. Decoding and encoding (30_encoding): the forms and their fields, the layout and the lengths
(`ENC_LAYOUT`, `LEN`: parameters, with the reference values of R82 to R89), the decoder, total on any bytes and
rejecting by name, and after it the encoder (log 12). -/

namespace Sys2Proof

/-! ### The forms: opcodes, specifiers, fields -/

/-- The place of an arithmetic instruction among the eight (30_encoding R93). -/
def AluOp.index : AluOp → Nat
  | .add => 0
  | .sub => 1
  | .mul => 2
  | .and => 3
  | .or => 4
  | .xor => 5
  | .lsh => 6
  | .rsh => 7

/-- The specifier of an arithmetic form (41_alu R131). -/
def AluKind.index : AluKind → Nat
  | .imm => 0
  | .reg => 1
  | .mem => 2

/-- The place of a load or a store among the four of its addressing mode (42_mov R180). -/
def MovePart.index : MovePart → Nat
  | .low => 0
  | .high => 1
  | .word => 2
  | .pair => 3

/-- The opcode of a form (30_encoding R93). -/
def Form.opcode : Form → Byte
  | .nop => 0x00
  | .alu op _ => BitVec.ofNat 8 (0x01 + op.index)
  | .movImm | .movImm32 | .movReg | .load _ _ | .store _ _ => 0x09
  | .b => 0x0A
  | .be => 0x0B
  | .bne => 0x0C
  | .blt => 0x0D
  | .bgt => 0x0E
  | .bro => 0x0F

/-- The specifier of a form (30_encoding R89, R94). -/
def Form.spec : Form → Byte
  | .nop | .b | .be | .bne | .blt | .bgt | .bro => 0x00
  | .alu _ kind => BitVec.ofNat 8 kind.index
  | .movImm => 0x00
  | .movImm32 => 0x01
  | .movReg => 0x02
  | .load part .absolute => BitVec.ofNat 8 (0x03 + part.index)
  | .store part .absolute => BitVec.ofNat 8 (0x07 + part.index)
  | .load part .relative => BitVec.ofNat 8 (0x0B + part.index)
  | .store part .relative => BitVec.ofNat 8 (0x0F + part.index)

/-- The arithmetic form of a specifier, none above 0x02 (30_encoding R97). -/
def aluFormOf (op : AluOp) (spec : Nat) : Option Form :=
  match spec with
  | 0x00 => some (.alu op .imm)
  | 0x01 => some (.alu op .reg)
  | 0x02 => some (.alu op .mem)
  | _ => none

/-- The form of mov of a specifier, none above 0x12 (30_encoding R89, R97). -/
def movFormOf (spec : Nat) : Option Form :=
  match spec with
  | 0x00 => some .movImm
  | 0x01 => some .movImm32
  | 0x02 => some .movReg
  | 0x03 => some (.load .low .absolute)
  | 0x04 => some (.load .high .absolute)
  | 0x05 => some (.load .word .absolute)
  | 0x06 => some (.load .pair .absolute)
  | 0x07 => some (.store .low .absolute)
  | 0x08 => some (.store .high .absolute)
  | 0x09 => some (.store .word .absolute)
  | 0x0A => some (.store .pair .absolute)
  | 0x0B => some (.load .low .relative)
  | 0x0C => some (.load .high .relative)
  | 0x0D => some (.load .word .relative)
  | 0x0E => some (.load .pair .relative)
  | 0x0F => some (.store .low .relative)
  | 0x10 => some (.store .high .relative)
  | 0x11 => some (.store .word .relative)
  | 0x12 => some (.store .pair .relative)
  | _ => none

/-- The form that an opcode byte and a specifier byte select, none where they name no instruction: the rows of
30_encoding R89, with R96 and R97. -/
def formOf (opcode spec : Byte) : Option Form :=
  match opcode.toNat, spec.toNat with
  | 0x00, 0x00 => some .nop
  | 0x01, s => aluFormOf .add s
  | 0x02, s => aluFormOf .sub s
  | 0x03, s => aluFormOf .mul s
  | 0x04, s => aluFormOf .and s
  | 0x05, s => aluFormOf .or s
  | 0x06, s => aluFormOf .xor s
  | 0x07, s => aluFormOf .lsh s
  | 0x08, s => aluFormOf .rsh s
  | 0x09, s => movFormOf s
  | 0x0A, 0x00 => some .b
  | 0x0B, 0x00 => some .be
  | 0x0C, 0x00 => some .bne
  | 0x0D, 0x00 => some .blt
  | 0x0E, 0x00 => some .bgt
  | 0x0F, 0x00 => some .bro
  | _, _ => none

/-- What the operand field of a form is (30_encoding R85). -/
inductive OperandKind where
  | none
  /-- `imm16`, `operand 2`. -/
  | imm16
  /-- `val32`: an address, an immediate or a label. -/
  | val32
  /-- The Offset of the register-relative forms of mov. -/
  | offset
deriving DecidableEq, Repr

/-- The fields that a form uses beside opcode and specifier (30_encoding R84, R85, R98; 10_state R25). -/
structure FieldUse where
  rd      : Bool := false
  rn      : Bool := false
  rn1     : Bool := false
  operand : OperandKind := .none
deriving DecidableEq, Repr

/-- The fields that each form uses (30_encoding R84, R85, R98; 10_state R25). -/
def Form.uses : Form → FieldUse
  | .nop => {}
  | .alu _ .imm | .movImm => { rd := true, operand := .imm16 }
  | .alu _ .reg | .movReg => { rd := true, rn := true }
  | .alu _ .mem => { rd := true, operand := .val32 }
  | .movImm32 | .be | .bne | .blt | .bgt => { rd := true, rn := true, operand := .val32 }
  | .b | .bro => { operand := .val32 }
  | .load part .absolute | .store part .absolute => { rd := true, rn1 := part == .pair, operand := .val32 }
  | .load part .relative | .store part .relative =>
    { rd := true, rn := true, rn1 := part == .pair, operand := .offset }

/-- The values of the fields of an instruction; those its form does not use are zero (30_encoding R98). -/
structure Fields where
  rd      : RegNum := 0
  rn      : RegNum := 0
  rn1     : RegNum := 0
  operand : DWord := 0
deriving DecidableEq, Repr

/-- The form of an instruction. -/
def Instr.form : Instr → Form
  | .nop => .nop
  | .addImm _ _ => .alu .add .imm
  | .addReg _ _ => .alu .add .reg
  | .addMem _ _ => .alu .add .mem
  | .subImm _ _ => .alu .sub .imm
  | .subReg _ _ => .alu .sub .reg
  | .subMem _ _ => .alu .sub .mem
  | .mulImm _ _ => .alu .mul .imm
  | .mulReg _ _ => .alu .mul .reg
  | .mulMem _ _ => .alu .mul .mem
  | .andImm _ _ => .alu .and .imm
  | .andReg _ _ => .alu .and .reg
  | .andMem _ _ => .alu .and .mem
  | .orImm _ _ => .alu .or .imm
  | .orReg _ _ => .alu .or .reg
  | .orMem _ _ => .alu .or .mem
  | .xorImm _ _ => .alu .xor .imm
  | .xorReg _ _ => .alu .xor .reg
  | .xorMem _ _ => .alu .xor .mem
  | .lshImm _ _ => .alu .lsh .imm
  | .lshReg _ _ => .alu .lsh .reg
  | .lshMem _ _ => .alu .lsh .mem
  | .rshImm _ _ => .alu .rsh .imm
  | .rshReg _ _ => .alu .rsh .reg
  | .rshMem _ _ => .alu .rsh .mem
  | .movImm _ _ => .movImm
  | .movImm32 _ _ _ => .movImm32
  | .movReg _ _ => .movReg
  | .loadLowAbs _ _ => .load .low .absolute
  | .loadHighAbs _ _ => .load .high .absolute
  | .loadWordAbs _ _ => .load .word .absolute
  | .loadPairAbs _ _ _ => .load .pair .absolute
  | .storeLowAbs _ _ => .store .low .absolute
  | .storeHighAbs _ _ => .store .high .absolute
  | .storeWordAbs _ _ => .store .word .absolute
  | .storePairAbs _ _ _ => .store .pair .absolute
  | .loadLowRel _ _ _ => .load .low .relative
  | .loadHighRel _ _ _ => .load .high .relative
  | .loadWordRel _ _ _ => .load .word .relative
  | .loadPairRel _ _ _ _ => .load .pair .relative
  | .storeLowRel _ _ _ => .store .low .relative
  | .storeHighRel _ _ _ => .store .high .relative
  | .storeWordRel _ _ _ => .store .word .relative
  | .storePairRel _ _ _ _ => .store .pair .relative
  | .b _ => .b
  | .be _ _ _ => .be
  | .bne _ _ _ => .bne
  | .blt _ _ _ => .blt
  | .bgt _ _ _ => .bgt
  | .bro _ => .bro

/-- The values of the fields of an instruction. -/
def Instr.fields : Instr → Fields
  | .nop => {}
  | .addImm rd imm | .subImm rd imm | .mulImm rd imm | .andImm rd imm | .orImm rd imm | .xorImm rd imm
  | .lshImm rd imm | .rshImm rd imm | .movImm rd imm => { rd := rd, operand := imm.setWidth 32 }
  | .addReg rd rn | .subReg rd rn | .mulReg rd rn | .andReg rd rn | .orReg rd rn | .xorReg rd rn
  | .lshReg rd rn | .rshReg rd rn | .movReg rd rn => { rd := rd, rn := rn }
  | .addMem rd addr | .subMem rd addr | .mulMem rd addr | .andMem rd addr | .orMem rd addr | .xorMem rd addr
  | .lshMem rd addr | .rshMem rd addr | .loadLowAbs rd addr | .loadHighAbs rd addr | .loadWordAbs rd addr
  | .storeLowAbs rd addr | .storeHighAbs rd addr | .storeWordAbs rd addr => { rd := rd, operand := addr }
  | .loadPairAbs rd rn1 addr | .storePairAbs rd rn1 addr => { rd := rd, rn1 := rn1, operand := addr }
  | .movImm32 rd rn v | .be rd rn v | .bne rd rn v | .blt rd rn v | .bgt rd rn v | .loadLowRel rd rn v
  | .loadHighRel rd rn v | .loadWordRel rd rn v | .storeLowRel rd rn v | .storeHighRel rd rn v
  | .storeWordRel rd rn v => { rd := rd, rn := rn, operand := v }
  | .loadPairRel rd rn rn1 off | .storePairRel rd rn rn1 off => { rd := rd, rn := rn, rn1 := rn1, operand := off }
  | .b label | .bro label => { operand := label }

/-- The instruction of a form with the given values of its fields. -/
def Form.instr (f : Form) (v : Fields) : Instr :=
  match f with
  | .nop => .nop
  | .alu .add .imm => .addImm v.rd (v.operand.setWidth 16)
  | .alu .add .reg => .addReg v.rd v.rn
  | .alu .add .mem => .addMem v.rd v.operand
  | .alu .sub .imm => .subImm v.rd (v.operand.setWidth 16)
  | .alu .sub .reg => .subReg v.rd v.rn
  | .alu .sub .mem => .subMem v.rd v.operand
  | .alu .mul .imm => .mulImm v.rd (v.operand.setWidth 16)
  | .alu .mul .reg => .mulReg v.rd v.rn
  | .alu .mul .mem => .mulMem v.rd v.operand
  | .alu .and .imm => .andImm v.rd (v.operand.setWidth 16)
  | .alu .and .reg => .andReg v.rd v.rn
  | .alu .and .mem => .andMem v.rd v.operand
  | .alu .or .imm => .orImm v.rd (v.operand.setWidth 16)
  | .alu .or .reg => .orReg v.rd v.rn
  | .alu .or .mem => .orMem v.rd v.operand
  | .alu .xor .imm => .xorImm v.rd (v.operand.setWidth 16)
  | .alu .xor .reg => .xorReg v.rd v.rn
  | .alu .xor .mem => .xorMem v.rd v.operand
  | .alu .lsh .imm => .lshImm v.rd (v.operand.setWidth 16)
  | .alu .lsh .reg => .lshReg v.rd v.rn
  | .alu .lsh .mem => .lshMem v.rd v.operand
  | .alu .rsh .imm => .rshImm v.rd (v.operand.setWidth 16)
  | .alu .rsh .reg => .rshReg v.rd v.rn
  | .alu .rsh .mem => .rshMem v.rd v.operand
  | .movImm => .movImm v.rd (v.operand.setWidth 16)
  | .movImm32 => .movImm32 v.rd v.rn v.operand
  | .movReg => .movReg v.rd v.rn
  | .load .low .absolute => .loadLowAbs v.rd v.operand
  | .load .high .absolute => .loadHighAbs v.rd v.operand
  | .load .word .absolute => .loadWordAbs v.rd v.operand
  | .load .pair .absolute => .loadPairAbs v.rd v.rn1 v.operand
  | .store .low .absolute => .storeLowAbs v.rd v.operand
  | .store .high .absolute => .storeHighAbs v.rd v.operand
  | .store .word .absolute => .storeWordAbs v.rd v.operand
  | .store .pair .absolute => .storePairAbs v.rd v.rn1 v.operand
  | .load .low .relative => .loadLowRel v.rd v.rn v.operand
  | .load .high .relative => .loadHighRel v.rd v.rn v.operand
  | .load .word .relative => .loadWordRel v.rd v.rn v.operand
  | .load .pair .relative => .loadPairRel v.rd v.rn v.rn1 v.operand
  | .store .low .relative => .storeLowRel v.rd v.rn v.operand
  | .store .high .relative => .storeHighRel v.rd v.rn v.operand
  | .store .word .relative => .storeWordRel v.rd v.rn v.operand
  | .store .pair .relative => .storePairRel v.rd v.rn v.rn1 v.operand
  | .b => .b v.operand
  | .be => .be v.rd v.rn v.operand
  | .bne => .bne v.rd v.rn v.operand
  | .blt => .blt v.rd v.rn v.operand
  | .bgt => .bgt v.rd v.rn v.operand
  | .bro => .bro v.operand

/-! ### Layout and lengths -/

/-- The row of a form in spec/opcode_table.json, counted from 0. -/
def Form.row : Form → Nat
  | .nop => 0
  | .alu op kind => 1 + 3 * op.index + kind.index
  | .movImm => 25
  | .movImm32 => 26
  | .movReg => 27
  | .load part .absolute => 28 + part.index
  | .store part .absolute => 32 + part.index
  | .load part .relative => 36 + part.index
  | .store part .relative => 40 + part.index
  | .b => 44
  | .be => 45
  | .bne => 46
  | .blt => 47
  | .bgt => 48
  | .bro => 49

/-- Format H of 30_encoding R87: the header only. -/
def Config.formatH : FormLayout := { length := 4, rd := 2, rn := 3, rn1 := 4, operand := 4 }

/-- Format I of 30_encoding R87: header and 16-bit immediate. -/
def Config.formatI : FormLayout := { Config.formatH with length := 6 }

/-- Format A of 30_encoding R87: header and 32-bit value. -/
def Config.formatA : FormLayout := { Config.formatH with length := 8 }

/-- Format X of 30_encoding R87: header, rn1 extension and 32-bit value. -/
def Config.formatX : FormLayout := { Config.formatH with length := 10, operand := 6 }

/-- The reference `ENC_LAYOUT` and `LEN`: 30_encoding R82 to R88 and the table of R89. -/
def Config.layout : Layout where
  opcode := 0
  spec   := 1
  forms  :=
    [Config.formatH] ++ (List.replicate 8 [Config.formatI, Config.formatH, Config.formatA]).flatten ++
      [Config.formatI, Config.formatA, Config.formatH] ++
      (List.replicate 4 [Config.formatA, Config.formatA, Config.formatA, Config.formatX]).flatten ++
      List.replicate 6 Config.formatA

/-- The parameters at the spec's reference values (00_scope R7, 95_test_vectors section 0), `NREGS` = 256 (log 6,
DESIGN CHOICE). -/
def Config.reference : Params where
  nregs      := 256
  byteOrder  := .little
  layout     := Config.layout
  ialign     := 2
  misaligned := .fault
  offLen     := 32
  ovfUpdate  := .refOvf
  shiftRule  := .reference
  cmpSigned  := false
  overlap    := .rdFirst

/-- The layout of a form. -/
def Layout.of (l : Layout) (f : Form) : FormLayout := l.forms.getD f.row Config.formatH

/-- The length in bytes of a form (30_encoding R81, R89): a function of opcode and specifier alone. -/
def Params.len (p : Params) (f : Form) : Nat := (p.layout.of f).length

/-- The length in bytes of an instruction (30_encoding R89). -/
def Instr.length (p : Params) (i : Instr) : Nat := p.len i.form

/-- The width in bytes of the operand field of a form (30_encoding R85): the widths of `imm16` and `val32`, and `OFFLEN`
for the Offset. -/
def Params.operandBytes (p : Params) (f : Form) : Nat :=
  match f.uses.operand with
  | .none => 0
  | .imm16 => 2
  | .val32 => 4
  | .offset => p.offLen / 8

/-- The fields of an instruction. -/
inductive FieldName where
  | opcode | spec | rd | rn | rn1 | operand
deriving DecidableEq, Repr

/-- A field in its place: `width` bytes from byte offset `start` on. -/
structure Place where
  field : FieldName
  start : Nat
  width : Nat
deriving DecidableEq, Repr

/-- The place holds the byte at offset `k`. -/
def Place.covers (x : Place) (k : Nat) : Bool := decide (x.start ≤ k) && decide (k < x.start + x.width)

/-- The fields that a form uses, in their places (30_encoding R82 to R87). -/
def Params.places (p : Params) (f : Form) : List Place :=
  [⟨.opcode, p.layout.opcode, 1⟩, ⟨.spec, p.layout.spec, 1⟩] ++
    (if f.uses.rd then [⟨.rd, (p.layout.of f).rd, 1⟩] else []) ++
    (if f.uses.rn then [⟨.rn, (p.layout.of f).rn, 1⟩] else []) ++
    (if f.uses.rn1 then [⟨.rn1, (p.layout.of f).rn1, 1⟩] else []) ++
    (if f.uses.operand = .none then [] else [⟨.operand, (p.layout.of f).operand, p.operandBytes f⟩])

/-- The byte at offset `k` belongs to a field that the form uses. -/
def Params.inField (p : Params) (f : Form) (k : Nat) : Bool := (p.places f).any (·.covers k)

/-! ### Decoding -/

/-- Why some bytes are no instruction. The step turns each into the fault that 30_encoding R90 names. -/
inductive DecodeError where
  /-- Fewer than the four header bytes (`FetchFault` on the header). -/
  | shortHeader
  /-- (opcode, specifier) is not a row of R89: R96, R97 (`IllegalInstruction`). -/
  | undefinedForm (opcode spec : Byte)
  /-- The header is there and bytes of the rest are not (`FetchFault` on the rest). -/
  | shortBody (opcode spec : Byte)
  /-- A byte that belongs to no field of the form is not zero: R98 (`IllegalInstruction`). -/
  | unusedNotZero (opcode spec : Byte)
deriving DecidableEq, Repr

/-- Assemble the fields of a form from the bytes of an instruction (30_encoding R84 to R87, R90). -/
def readFields (p : Params) (f : Form) (bytes : List Byte) : Fields where
  rd      := if f.uses.rd then bytes.getD (p.layout.of f).rd 0 else 0
  rn      := if f.uses.rn then bytes.getD (p.layout.of f).rn 0 else 0
  rn1     := if f.uses.rn1 then bytes.getD (p.layout.of f).rn1 0 else 0
  operand := fieldValue p.byteOrder ((bytes.drop (p.layout.of f).operand).take (p.operandBytes f))

/-- Every byte of the instruction that belongs to no field of the form is zero (30_encoding R98). -/
def unusedZero (p : Params) (f : Form) (bytes : List Byte) : Bool :=
  (List.range (p.len f)).all fun k => p.inField f k || bytes.getD k 0 == 0

/-- Decode the instruction at the head of some bytes, the bytes behind it being left alone (30_encoding R90): the
header, the row of R89, the rest, the unused fields, in that order. -/
def decode (p : Params) (bytes : List Byte) : Except DecodeError Instr :=
  if bytes.length < 4 then .error .shortHeader
  else
    let opcode := bytes.getD p.layout.opcode 0
    let spec := bytes.getD p.layout.spec 0
    match formOf opcode spec with
    | none => .error (.undefinedForm opcode spec)
    | some f =>
      if bytes.length < p.len f then .error (.shortBody opcode spec)
      else if unusedZero p f bytes then .ok (f.instr (readFields p f bytes))
      else .error (.unusedNotZero opcode spec)

/-! ### Encoding -/

/-- The bytes of a field of an instruction, in address order (30_encoding R82 to R86). -/
def placeBytes (p : Params) (f : Form) (v : Fields) : FieldName → List Byte
  | .opcode => [f.opcode]
  | .spec => [f.spec]
  | .rd => [v.rd]
  | .rn => [v.rn]
  | .rn1 => [v.rn1]
  | .operand => fieldBytes p.byteOrder (p.operandBytes f) v.operand

/-- The byte at offset `k` of an instruction: that of the field which holds it, zero where none does (R98). -/
def byteAt (p : Params) (f : Form) (v : Fields) (k : Nat) : Byte :=
  match (p.places f).find? (·.covers k) with
  | some x => (placeBytes p f v x.field).getD (k - x.start) 0
  | none => 0

/-- The bytes of an instruction in address order, unused fields zero (30_encoding R82 to R89, R98). -/
def encode (p : Params) (i : Instr) : List Byte :=
  (List.range (i.length p)).map (byteAt p i.form i.fields)

/-- Byte `k` of an instruction whose bits are `w` as spec/opcode_table.json numbers them (30_encoding R95): the
first word is the 32-bit header number, byte 0 its most significant byte; the bits above it are the bytes behind the
header in address order, so that an operand field in `BYTE_ORDER` little reads as one number (log 13). -/
def tableByte (w k : Nat) : Byte := BitVec.ofNat 8 (w >>> (if k < 4 then 8 * (3 - k) else 8 * k))

/-- The first `n` bytes of a table word of `nbits` bits, every bit above them zero. -/
def tableBytes (n nbits w : Nat) : List Byte := (List.range n).map (tableByte (w % 2 ^ nbits))

/-- The greatest of `n` and the lengths of some forms. -/
def longestFrom (n : Nat) (forms : List FormLayout) : Nat :=
  match forms with
  | [] => n
  | l :: rest => if n < l.length then longestFrom l.length rest else longestFrom n rest

/-- The length of the longest form. -/
def Params.longest (p : Params) : Nat := longestFrom 0 p.layout.forms

/-- The instruction the decoder reads from a word of the opcode table at the reference parameters, which are those of
reset; none where it refuses. -/
def decodeTableWord (nbits w : Nat) : Option Instr :=
  match decode Config.reference (tableBytes Config.reference.longest nbits w) with
  | .ok i => some i
  | .error _ => none

end Sys2Proof
end

