-- ==== Sys2Proof/WellFormed.lean ====
section
/-! DEFINITION. When an instruction, a launch and the parameters are well formed. An instruction is well formed on a
machine when every register field it USES is below `NREGS` (10_state R22) and its Offset fits `OFFLEN`; the other
fields' widths are in their types. A launch is well formed under the conditions of 20_memory R56. -/

namespace Sys2Proof

/-- The register fields that a form uses, in the order rd, rn, rn1 (10_state R22, R25; 60_exceptions R256 item 6). -/
def Instr.usedRegs : Instr → List RegNum
  | .nop | .b _ | .bro _ => []
  | .addImm rd _ | .subImm rd _ | .mulImm rd _ | .andImm rd _ | .orImm rd _ | .xorImm rd _ | .lshImm rd _
  | .rshImm rd _ | .movImm rd _ => [rd]
  | .addMem rd _ | .subMem rd _ | .mulMem rd _ | .andMem rd _ | .orMem rd _ | .xorMem rd _ | .lshMem rd _
  | .rshMem rd _ => [rd]
  | .loadLowAbs rd _ | .loadHighAbs rd _ | .loadWordAbs rd _ | .storeLowAbs rd _ | .storeHighAbs rd _
  | .storeWordAbs rd _ => [rd]
  | .addReg rd rn | .subReg rd rn | .mulReg rd rn | .andReg rd rn | .orReg rd rn | .xorReg rd rn | .lshReg rd rn
  | .rshReg rd rn | .movReg rd rn => [rd, rn]
  | .movImm32 rd rn _ | .loadLowRel rd rn _ | .loadHighRel rd rn _ | .loadWordRel rd rn _ | .storeLowRel rd rn _
  | .storeHighRel rd rn _ | .storeWordRel rd rn _ => [rd, rn]
  | .be rd rn _ | .bne rd rn _ | .blt rd rn _ | .bgt rd rn _ => [rd, rn]
  | .loadPairAbs rd rn1 _ | .storePairAbs rd rn1 _ => [rd, rn1]
  | .loadPairRel rd rn rn1 _ | .storePairRel rd rn rn1 _ => [rd, rn, rn1]

/-- The operand of the instruction fits the operand field of its form (30_encoding R85): an Offset fits `OFFLEN`. -/
def Instr.fits (p : Params) (i : Instr) : Bool := decide (i.fields.operand.toNat < 256 ^ p.operandBytes i.form)

/-- Every register the form uses exists: its number is below `NREGS` (10_state R22); and its operand fits. -/
def Instr.wf (p : Params) (i : Instr) : Bool := (i.usedRegs.all fun r => decide (r.toNat < p.nregs)) && i.fits p

/-- The conditions a launch must meet: `PROG_BASE` and the length multiples of `IALIGN`, `PROG_END < 2^32` (20_memory
R56, which writes the reference value 2). -/
def Launch.wf (ialign : Nat) (l : Launch) : Bool :=
  decide (l.progBase.toNat % ialign = 0) && decide (l.prog.length % ialign = 0) && decide (l.progEnd < 2 ^ 32)

/-- The eight arithmetic instructions. -/
def allOps : List AluOp := [.add, .sub, .mul, .and, .or, .xor, .lsh, .rsh]

/-- The 50 forms (30_encoding R89). -/
def allForms : List Form :=
  [.nop, .movImm, .movImm32, .movReg, .b, .be, .bne, .blt, .bgt, .bro] ++
    (allOps.map fun op => [.alu op .imm, .alu op .reg, .alu op .mem]).flatten ++
    ([MovePart.low, .high, .word, .pair].map fun part =>
      [.load part .absolute, .store part .absolute, .load part .relative, .store part .relative]).flatten

/-- The two places hold no byte in common. -/
def Place.apart (x y : Place) : Bool := decide (x.start + x.width ≤ y.start) || decide (y.start + y.width ≤ x.start)

/-- No two of the places hold a byte in common. -/
def allApart (places : List Place) : Bool :=
  match places with
  | [] => true
  | x :: rest => rest.all x.apart && allApart rest

/-- The fields of a form lie in it, no two on the same byte. -/
def Params.formWf (p : Params) (f : Form) : Bool :=
  allApart (p.places f) && (p.places f).all fun x => decide (x.start + x.width ≤ p.len f)

/-- What `ENC_LAYOUT` and `LEN` must meet for decoding by 30_encoding R90 to make sense: opcode and specifier in the
four bytes fetched first, a length for each form of at least those and a multiple of `IALIGN`, the fields of a form in
it and apart (log 12). -/
def Params.layoutWf (p : Params) : Bool :=
  decide (p.layout.opcode < 4) && decide (p.layout.spec < 4) && decide (p.layout.forms.length = 50) &&
    (p.layout.forms.all fun l => decide (4 ≤ l.length) && decide (l.length % p.ialign = 0)) && allForms.all p.formWf

/-- 4 ≤ `NREGS` ≤ 256 (10_state R21); `IALIGN` divides 4, so that the second fetch of R90, 4 bytes on, is aligned when
the first is (log 19); `OFFLEN` is one to four whole bytes (log 21); the layout makes sense. -/
def Params.wf (p : Params) : Bool :=
  decide (4 ≤ p.nregs) && decide (p.nregs ≤ 256) && decide (4 % p.ialign = 0) && decide (p.offLen % 8 = 0) &&
    decide (8 ≤ p.offLen) && decide (p.offLen ≤ 32) && p.layoutWf

end Sys2Proof
end

