-- ==== Sys2Proof/Machine/State.lean ====
section
/-! DEFINITION. The state of the machine (10_state) as plain data, the reasons a step can stop, and the state after
reset. -/

namespace Sys2Proof.Machine

/-- The register fields of an instruction, by which `IllegalRegister` names the offending one (60_exceptions R251). -/
inductive RegField where
  | rd | rn | rn1
deriving DecidableEq, Repr

/-- The seven faults of 60_exceptions R251 with the info each records. An instruction that raises one takes a next
state whose `status` holds it (R250, `raise` in Machine/Ops.lean); a step of a machine that is `Faulted` answers it.
All are safe: the machine stops where the source gives no meaning. -/
inductive Fault where
  /-- Code 1, raised by fetch: `pc` is not a multiple of `IALIGN` (20_memory R56, R58). Safe. -/
  | fetchMisaligned (pc : Addr)
  /-- Code 2, raised by fetch: a byte of the instruction lies outside the text (20_memory R56). Safe. -/
  | fetchFault (addr : Addr) (count : Nat)
  /-- Code 3, raised by decode: an undefined (opcode, specifier), or an unused field not zero (30_encoding R96 to
  R98). Safe. -/
  | illegalInstruction (pc : Addr) (opcode spec : Byte)
  /-- Code 4, raised before execution: a used register field of `NREGS` or more (10_state R22). Safe. -/
  | illegalRegister (field : RegField) (value : RegNum)
  /-- Code 5, raised by a data access under the `MISALIGNED_POLICY` fault: the address is not a multiple of the size
  (20_memory R57). Safe. -/
  | misalignedAccess (addr : Addr) (size : Nat)
  /-- Code 6, raised by a data access: a byte of it lies in the program text (20_memory R62). Safe. -/
  | textAccess (addr : Addr) (size : Nat)
  /-- Code 7, raised by a data access: a byte of it is not in `DATA_MAP` (20_memory R54). Safe. -/
  | accessFault (addr : Addr) (size : Nat)
deriving DecidableEq, Repr

/-- Why there is no step, other than a fault. -/
inductive Refusal where
  /-- Raised by an arm of `exec` whose instruction has no meaning yet; no arm does. Safe. -/
  | notModelled (mnemonic : String)
  /-- Raised by `step` when the run has ended: "if the machine is Faulted or Ended, there is no step" (00_scope R9,
  log 15). Safe. -/
  | ended
  /-- Raised by `step` when the launch breaks a condition of 20_memory R56 or 10_state R21 ("launches that violate it
  are refused", D38, log 16). Safe. -/
  | illFormedLaunch
deriving DecidableEq, Repr

/-- The machine status (10_state R32). -/
inductive Status where
  | running
  | ended
  | faulted (f : Fault)
deriving DecidableEq, Repr

/-- Memory as the listed (address, byte) pairs, in the canonical form of `Memory.wf` (Machine/Ops.lean). -/
abbrev Memory := List Host.Cell

/-- The state of 10_state section 1, and the parameters of the step that it calls no state (`params`, `launch`), which
no step writes. -/
structure State where
  /-- `x[0]` to `x[255]`; those from `NREGS` on do not exist and are never read or written (10_state R20, R22). -/
  regs   : Vector Word 256
  /-- The program counter (10_state R26). -/
  pc     : Addr
  /-- The overflow flag `OV` (10_state R28). -/
  ov     : Bool
  /-- Data memory (10_state R31). -/
  mem    : Memory
  /-- The machine status (10_state R32). -/
  status : Status
  /-- `NREGS` and the parameters with a reference value (00_scope R7). -/
  params : Params
  /-- `PROG_BASE`, `PROG` and `DATA_MAP` (00_scope R7). -/
  launch : Launch
deriving DecidableEq, Repr

/-- The machine right after reset (10_state R34, 70_reset_and_hazards R280): `pc = RESET_PC`, `status = Running`. The
spec leaves every other value unspecified or OPEN; the values here are logs 1 to 6 (DESIGN CHOICE, unsafe). No program
is loaded: a launch (R282) gives one. -/
def State.reset : State where
  regs   := Vector.replicate 256 0
  pc     := Config.resetPc
  ov     := false
  mem    := []
  status := .running
  params := Config.reference
  launch := { progBase := Config.resetPc, prog := [], dataMap := [{ base := 0, size := 2 ^ 32 }] }

end Sys2Proof.Machine
end

