-- ==== Sys2Proof/Machine/Flags.lean ====
section
/-! DEFINITION. The overflow flag (41_alu R134) and the comparisons of the conditional branches (43_branch R221). The
machine has one flag (10_state R28). -/

namespace Sys2Proof.Machine

/-- REF-OVF (41_alu R134): the exact unsigned result of add, sub and mul does not fit in 16 bits; the other
operations leave the flag as it was. -/
def refOvf (op : AluOp) (a b : Word) (ov : Bool) : Bool :=
  match op with
  | .add => decide (a.toNat + b.toNat > 65535)
  | .sub => decide (a.toNat < b.toNat)
  | .mul => decide (a.toNat * b.toNat > 65535)
  | .and | .or | .xor | .lsh | .rsh => ov

/-- `OvfUpdate(op, a, b, ov)` (41_alu R134): REF-OVF, or an uninterpreted function (log 7). -/
def ovfUpdate (rule : OvfRule) (op : AluOp) (a b : Word) (ov : Bool) : Bool :=
  match rule with
  | .refOvf => refOvf op a b ov
  | .uninterpreted => Config.ovfUpdate op a b ov

/-- `a < b`: as unsigned integers, or as two's-complement integers when `CMP_SIGNED` is true (43_branch R221). -/
def lessThan (cmpSigned : Bool) (a b : Word) : Bool :=
  if cmpSigned then decide (a.toInt < b.toInt) else decide (a.toNat < b.toNat)

end Sys2Proof.Machine
end

