-- ==== Sys2Proof/Machine/Ops.lean ====
section
/-! DEFINITION. The named operations over memory, registers and the program counter, and raising a fault
(20_memory R54, R55; 10_state R22, R23, R27; 60_exceptions R250). There is no return from a fault beside `raise`:
"There is no trap-return instruction among the sixteen opcodes, nothing to restore" (60_exceptions R260). -/

namespace Sys2Proof.Machine

/-! ### Memory, byte by byte -/

/-- The byte at an address: the listed one, else the byte an unlisted address reads as. -/
def Memory.read (m : Memory) (a : Nat) : Byte :=
  match m with
  | [] => Config.unlistedByte
  | (k, b) :: rest => if k = a then b else Memory.read rest a

/-- List one byte at its place among rising addresses. -/
def Memory.insert (m : Memory) (a : Nat) (v : Byte) : Memory :=
  match m with
  | [] => [(a, v)]
  | (k, b) :: rest => if k < a then (k, b) :: Memory.insert rest a v else (a, v) :: (k, b) :: rest

/-- No entry for an address. -/
def Memory.erase (m : Memory) (a : Nat) : Memory := m.filter fun c => decide (c.1 ≠ a)

/-- Write one byte, keeping the canonical form: the value of an unlisted address is not listed. -/
def Memory.write (m : Memory) (a : Nat) (v : Byte) : Memory :=
  if v = Config.unlistedByte then m.erase a else (m.erase a).insert a v

/-- The canonical form: addresses strictly rising, and no listed byte equal to what an unlisted address reads as. -/
def Memory.wf (m : Memory) : Bool :=
  match m with
  | [] => true
  | (k, b) :: rest => b != Config.unlistedByte && rest.all (fun c => decide (k < c.1)) && Memory.wf rest

/-- Write bytes at an address and the ones after it (20_memory R55). -/
def Memory.writeBytes (m : Memory) (a : Nat) (bytes : List Byte) : Memory :=
  match bytes with
  | [] => m
  | b :: rest => Memory.writeBytes (m.write a b) (a + 1) rest

/-- The 16-bit value at an address (20_memory R53, R54). -/
def Memory.readWord (order : ByteOrder) (m : Memory) (a : Nat) : Word := wordOf order (m.read a) (m.read (a + 1))

/-- The 32-bit value at an address (20_memory R53, R54). -/
def Memory.readDWord (order : ByteOrder) (m : Memory) (a : Nat) : DWord :=
  dwordOf order (m.read a) (m.read (a + 1)) (m.read (a + 2)) (m.read (a + 3))

/-! ### The address space of a launch -/

/-- An address of the program text, `PROG_BASE` to `PROG_END - 1` (20_memory R52). -/
def inText (l : Launch) (a : Nat) : Bool := decide (l.progBase.toNat ≤ a) && decide (a < l.progEnd)

/-- An address of `DATA_MAP`: of one of its regions, one of the 2^32 addresses (20_memory R50), and not of the text,
since the two sets are disjoint (20_memory R52, log 20). -/
def inDataMap (l : Launch) (a : Nat) : Bool :=
  l.dataMap.any (fun r => decide (r.base ≤ a) && decide (a < r.base + r.size)) && decide (a < 2 ^ 32) && !inText l a

/-- The three checks of a data access of `n` bytes, in their order (20_memory R54; 60_exceptions R256 items 7 to 9):
the fault it raises, none if it may proceed. The first is `MISALIGNED_POLICY`'s (R57, log 19). -/
def checkAccess (policy : MisalignedPolicy) (l : Launch) (a : Addr) (n : Nat) : Option Fault :=
  if policy = .fault ∧ a.toNat % n ≠ 0 then some (.misalignedAccess a n)
  else if (List.range n).any (fun k => inText l (a.toNat + k)) then some (.textAccess a n)
  else if (List.range n).all (fun k => inDataMap l (a.toNat + k)) then none
  else some (.accessFault a n)

/-- `MemRead(addr, 1)` (20_memory R54). -/
def memReadByte (s : State) (a : Addr) : Except Fault Byte :=
  match checkAccess s.params.misaligned s.launch a 1 with
  | some f => .error f
  | none => .ok (s.mem.read a.toNat)

/-- `MemRead(addr, 2)` (20_memory R54). -/
def memReadWord (s : State) (a : Addr) : Except Fault Word :=
  match checkAccess s.params.misaligned s.launch a 2 with
  | some f => .error f
  | none => .ok (s.mem.readWord s.params.byteOrder a.toNat)

/-- `MemRead(addr, 4)` (20_memory R54). -/
def memReadDWord (s : State) (a : Addr) : Except Fault DWord :=
  match checkAccess s.params.misaligned s.launch a 4 with
  | some f => .error f
  | none => .ok (s.mem.readDWord s.params.byteOrder a.toNat)

/-- `MemWrite(addr, n, v)`, the value given as its `n` bytes in address order: all of them or none (20_memory R55). -/
def memWrite (s : State) (a : Addr) (bytes : List Byte) : Except Fault State :=
  match checkAccess s.params.misaligned s.launch a bytes.length with
  | some f => .error f
  | none => .ok { s with mem := s.mem.writeBytes a.toNat bytes }

/-! ### Registers and the program counter -/

/-- `x[r]` (10_state R20). -/
def readReg (s : State) (r : RegNum) : Word := s.regs[r.toNat]'(r.isLt)

/-- `x[r] <- v` (10_state R20, R24: every register is an ordinary one, register 0 too). -/
def writeReg (s : State) (r : RegNum) (v : Word) : State := { s with regs := s.regs.set r.toNat v r.isLt }

/-- `x[r].L <- b`: the high half is kept (10_state R23). -/
def writeLow (s : State) (r : RegNum) (b : Byte) : State := writeReg s r (joinBytes (highByte (readReg s r)) b)

/-- `x[r].H <- b`: the low half is kept (10_state R23). -/
def writeHigh (s : State) (r : RegNum) (b : Byte) : State := writeReg s r (joinBytes b (lowByte (readReg s r)))

/-- The two register writes of a 32-bit move, rd first (42_mov R184, R189); where both are one register,
`OVERLAP_POLICY` decides what it holds (42_mov R202). -/
def writePair (s : State) (rd second : RegNum) (v : DWord) : State :=
  if rd = second then
    match s.params.overlap with
    | .rdFirst => writeReg (writeReg s rd (upperHalf v)) second (lowerHalf v)
    | .uninterpreted => writeReg s rd (Config.overlapValue (upperHalf v) (lowerHalf v))
  else writeReg (writeReg s rd (upperHalf v)) second (lowerHalf v)

/-- `pc +_32 len` for an instruction of a form (10_state R27, 30_encoding R89). -/
def nextPc (s : State) (f : Form) : Addr := s.pc + BitVec.ofNat 32 (s.params.len f)

/-- `pc <- pc +_32 len` (10_state R27). -/
def advance (s : State) (f : Form) : State := { s with pc := nextPc s f }

/-! ### Faults -/

/-- `raise <Fault>(info)` (60_exceptions R250): `status` becomes `Faulted`, nothing else changes, `pc` keeps the
address of the faulting instruction. The one way a fault is taken. -/
def raise (f : Fault) (s : State) : Host.Outcome State Fault Refusal := .next { s with status := .faulted f }

/-- The code of a fault (60_exceptions R251). -/
def faultCode : Fault → Nat
  | .fetchMisaligned _ => 1
  | .fetchFault _ _ => 2
  | .illegalInstruction _ _ _ => 3
  | .illegalRegister _ _ => 4
  | .misalignedAccess _ _ => 5
  | .textAccess _ _ => 6
  | .accessFault _ _ => 7

/-- The fault of the first used register field that is `NREGS` or more, none if all exist (10_state R22; the fields
are given in the order of 60_exceptions R256 item 6). -/
def illegalRegister (nregs : Nat) (fields : List (RegField × RegNum)) : Option Fault :=
  match fields with
  | [] => none
  | (field, r) :: rest => if r.toNat < nregs then illegalRegister nregs rest else some (.illegalRegister field r)

/-- Perform an instruction that uses the register fields `fields` and whose effect is `effect`: the registers are
checked first, and a fault of either writes nothing (10_state R22, 60_exceptions R250, R256). -/
def perform (s : State) (fields : List (RegField × RegNum)) (effect : Except Fault State) :
    Host.Outcome State Fault Refusal :=
  match illegalRegister s.params.nregs fields with
  | some f => raise f s
  | none =>
    match effect with
    | .ok t => .next t
    | .error f => raise f s

end Sys2Proof.Machine
end

