-- ==== Sys2Proof/Machine/Operands.lean ====
section
/-! DEFINITION. The operand forms: the second operand of the arithmetic instructions (41_alu R131) and the address
of a mov (42_mov R180, R182). -/

namespace Sys2Proof.Machine

/-- Where an arithmetic instruction takes its second operand from, by its specifier (41_alu R131). -/
inductive AluSource where
  /-- Specifier 0x00: `imm16`. -/
  | imm (v : Word)
  /-- Specifier 0x01: `x[rn]`. -/
  | reg (rn : RegNum)
  /-- Specifier 0x02: the 16-bit value at an absolute address. -/
  | mem (addr : Addr)
deriving DecidableEq, Repr

/-- The second operand `b` (41_alu R131). Only specifier 0x02 can raise a fault. -/
def secondOperand (src : AluSource) (s : State) : Except Fault Word :=
  match src with
  | .imm v => .ok v
  | .reg rn => .ok (readReg s rn)
  | .mem addr => memReadWord s addr

/-- The form of an arithmetic instruction by its second operand (41_alu R131). -/
def sourceForm (op : AluOp) : AluSource → Form
  | .imm _ => .alu op .imm
  | .reg _ => .alu op .reg
  | .mem _ => .alu op .mem

/-- The register fields of an arithmetic form (10_state R25). -/
def sourceFields (rd : RegNum) : AluSource → List (RegField × RegNum)
  | .imm _ | .mem _ => [(.rd, rd)]
  | .reg rn => [(.rd, rd), (.rn, rn)]

/-- How a mov addresses memory (42_mov R180). -/
inductive AddressMode where
  /-- The absolute address `val32`, specifiers 0x03 to 0x0A. -/
  | absolute (addr : Addr)
  /-- `x[rn]` plus the Offset, specifiers 0x0B to 0x12. -/
  | relative (rn : RegNum) (off : DWord)
deriving DecidableEq, Repr

/-- The kind of an addressing mode. -/
def modeKind : AddressMode → AddressKind
  | .absolute _ => .absolute
  | .relative _ _ => .relative

/-- The Offset as its field of `OFFLEN` bits holds it, zero-extended (42_mov R182, 30_encoding R92, log 21). -/
def offsetValue (offLen : Nat) (off : DWord) : DWord := BitVec.ofNat 32 (off.toNat % 2 ^ offLen)

/-- The effective address: `val32`, or `EA = zext_32(x[rn]) +_32 Offset` (42_mov R182, log 21). -/
def effectiveAddress (am : AddressMode) (s : State) : Addr :=
  match am with
  | .absolute addr => addr
  | .relative rn off => (readReg s rn).zeroExtend 32 + offsetValue s.params.offLen off

/-- The register fields of an addressing mode (10_state R25). -/
def modeFields : AddressMode → List (RegField × RegNum)
  | .absolute _ => []
  | .relative rn _ => [(.rn, rn)]

end Sys2Proof.Machine
end

