-- ==== Sys2Proof/Machine/Alu.lean ====
section
/-! DEFINITION. add, sub, mul, and, or, xor, lsh, rsh (41_alu): 24 forms over one shared operation. -/

namespace Sys2Proof.Machine

/-- `Lsh(a, n)` (41_alu R162): `(a × 2^n) mod 65536` if n ≤ 15; for n ≥ 16, 0 under the reference `ShiftRule`. -/
def lshResult (rule : ShiftRule) (a n : Word) : Word :=
  if n.toNat ≤ 15 then BitVec.ofNat 16 (a.toNat * 2 ^ n.toNat)
  else
    match rule with
    | .reference => 0
    | .uninterpreted => Config.shiftValue .lsh a n

/-- `Rsh(a, n)` (41_alu R166): `floor(a / 2^n)` if n ≤ 15, 0 if n ≥ 16 under the reference `ShiftRule`; otherwise
nothing is known for n ≥ 16 or for a value whose bit 15 is set (D16). -/
def rshResult (rule : ShiftRule) (a n : Word) : Word :=
  match rule with
  | .reference => if n.toNat ≤ 15 then BitVec.ofNat 16 (a.toNat / 2 ^ n.toNat) else 0
  | .uninterpreted =>
    if n.toNat ≤ 15 ∧ a.toNat < 2 ^ 15 then BitVec.ofNat 16 (a.toNat / 2 ^ n.toNat)
    else Config.shiftValue .rsh a n

/-- `op(a, b)` (41_alu R133): the exact integer result narrowed to its low 16 bits for add, sub and mul. -/
def aluResult (rule : ShiftRule) (op : AluOp) (a b : Word) : Word :=
  match op with
  | .add => a + b
  | .sub => a - b
  | .mul => a * b
  | .and => a &&& b
  | .or => a ||| b
  | .xor => a ^^^ b
  | .lsh => lshResult rule a b
  | .rsh => rshResult rule a b

/-- The writes of an arithmetic form once `b` is read (41_alu R132): `x[rd]`, `OV`, `pc`. Both operands are the
values from before any write. -/
def aluCommit (op : AluOp) (rd : RegNum) (f : Form) (s : State) (b : Word) : State :=
  { writeReg s rd (aluResult s.params.shiftRule op (readReg s rd) b) with
    ov := ovfUpdate s.params.ovfUpdate op (readReg s rd) b s.ov
    pc := nextPc s f }

/-- The execution of every arithmetic form (41_alu R132). -/
def aluExec (op : AluOp) (rd : RegNum) (src : AluSource) (s : State) : Host.Outcome State Fault Refusal :=
  perform s (sourceFields rd src) ((secondOperand src s).map (aluCommit op rd (sourceForm op src) s))

/-- add, specifier 0x00 (41_alu R135). -/
def execAddImm (rd : RegNum) (imm : Word) (s : State) : Host.Outcome State Fault Refusal :=
  aluExec .add rd (.imm imm) s

/-- add, specifier 0x01 (41_alu R136). -/
def execAddReg (rd rn : RegNum) (s : State) : Host.Outcome State Fault Refusal :=
  aluExec .add rd (.reg rn) s

/-- add, specifier 0x02 (41_alu R137). -/
def execAddMem (rd : RegNum) (addr : Addr) (s : State) : Host.Outcome State Fault Refusal :=
  aluExec .add rd (.mem addr) s

/-- sub, specifier 0x00 (41_alu R139). -/
def execSubImm (rd : RegNum) (imm : Word) (s : State) : Host.Outcome State Fault Refusal :=
  aluExec .sub rd (.imm imm) s

/-- sub, specifier 0x01 (41_alu R140). -/
def execSubReg (rd rn : RegNum) (s : State) : Host.Outcome State Fault Refusal :=
  aluExec .sub rd (.reg rn) s

/-- sub, specifier 0x02 (41_alu R141). -/
def execSubMem (rd : RegNum) (addr : Addr) (s : State) : Host.Outcome State Fault Refusal :=
  aluExec .sub rd (.mem addr) s

/-- mul, specifier 0x00 (41_alu R143). -/
def execMulImm (rd : RegNum) (imm : Word) (s : State) : Host.Outcome State Fault Refusal :=
  aluExec .mul rd (.imm imm) s

/-- mul, specifier 0x01 (41_alu R144). -/
def execMulReg (rd rn : RegNum) (s : State) : Host.Outcome State Fault Refusal :=
  aluExec .mul rd (.reg rn) s

/-- mul, specifier 0x02 (41_alu R145). -/
def execMulMem (rd : RegNum) (addr : Addr) (s : State) : Host.Outcome State Fault Refusal :=
  aluExec .mul rd (.mem addr) s

/-- and, specifier 0x00 (41_alu R147). -/
def execAndImm (rd : RegNum) (imm : Word) (s : State) : Host.Outcome State Fault Refusal :=
  aluExec .and rd (.imm imm) s

/-- and, specifier 0x01 (41_alu R148). -/
def execAndReg (rd rn : RegNum) (s : State) : Host.Outcome State Fault Refusal :=
  aluExec .and rd (.reg rn) s

/-- and, specifier 0x02 (41_alu R149). -/
def execAndMem (rd : RegNum) (addr : Addr) (s : State) : Host.Outcome State Fault Refusal :=
  aluExec .and rd (.mem addr) s

/-- or, specifier 0x00 (41_alu R151). -/
def execOrImm (rd : RegNum) (imm : Word) (s : State) : Host.Outcome State Fault Refusal :=
  aluExec .or rd (.imm imm) s

/-- or, specifier 0x01 (41_alu R152). -/
def execOrReg (rd rn : RegNum) (s : State) : Host.Outcome State Fault Refusal :=
  aluExec .or rd (.reg rn) s

/-- or, specifier 0x02 (41_alu R153). -/
def execOrMem (rd : RegNum) (addr : Addr) (s : State) : Host.Outcome State Fault Refusal :=
  aluExec .or rd (.mem addr) s

/-- xor, specifier 0x00 (41_alu R155). -/
def execXorImm (rd : RegNum) (imm : Word) (s : State) : Host.Outcome State Fault Refusal :=
  aluExec .xor rd (.imm imm) s

/-- xor, specifier 0x01 (41_alu R156). -/
def execXorReg (rd rn : RegNum) (s : State) : Host.Outcome State Fault Refusal :=
  aluExec .xor rd (.reg rn) s

/-- xor, specifier 0x02 (41_alu R157). -/
def execXorMem (rd : RegNum) (addr : Addr) (s : State) : Host.Outcome State Fault Refusal :=
  aluExec .xor rd (.mem addr) s

/-- lsh, specifier 0x00 (41_alu R159). -/
def execLshImm (rd : RegNum) (imm : Word) (s : State) : Host.Outcome State Fault Refusal :=
  aluExec .lsh rd (.imm imm) s

/-- lsh, specifier 0x01 (41_alu R160). -/
def execLshReg (rd rn : RegNum) (s : State) : Host.Outcome State Fault Refusal :=
  aluExec .lsh rd (.reg rn) s

/-- lsh, specifier 0x02 (41_alu R161). -/
def execLshMem (rd : RegNum) (addr : Addr) (s : State) : Host.Outcome State Fault Refusal :=
  aluExec .lsh rd (.mem addr) s

/-- rsh, specifier 0x00 (41_alu R163). -/
def execRshImm (rd : RegNum) (imm : Word) (s : State) : Host.Outcome State Fault Refusal :=
  aluExec .rsh rd (.imm imm) s

/-- rsh, specifier 0x01 (41_alu R164). -/
def execRshReg (rd rn : RegNum) (s : State) : Host.Outcome State Fault Refusal :=
  aluExec .rsh rd (.reg rn) s

/-- rsh, specifier 0x02 (41_alu R165). -/
def execRshMem (rd : RegNum) (addr : Addr) (s : State) : Host.Outcome State Fault Refusal :=
  aluExec .rsh rd (.mem addr) s

end Sys2Proof.Machine
end

