-- ==== Sys2Proof/Machine/Branch.lean ====
section
/-! DEFINITION. nop (40_nop) and the branches b, be, bne, blt, bgt, bro (43_branch). A branch never faults on its
target: the next fetch does (R229, 20_memory R58). -/

namespace Sys2Proof.Machine

/-- Go to `label` if the condition holds, else to the next instruction (43_branch R220). -/
def branchIf (f : Form) (taken : Bool) (label : Addr) (s : State) : State :=
  { s with pc := if taken then label else nextPc s f }

/-- nop (40_nop R120): `pc` only. -/
def execNop (s : State) : Host.Outcome State Fault Refusal := .next (advance s .nop)

/-- b (43_branch R222): `pc <- val32`. -/
def execB (label : Addr) (s : State) : Host.Outcome State Fault Refusal := .next (branchIf .b true label s)

/-- be (43_branch R223). -/
def execBe (rd rn : RegNum) (label : Addr) (s : State) : Host.Outcome State Fault Refusal :=
  perform s [(.rd, rd), (.rn, rn)] (.ok (branchIf .be (readReg s rd == readReg s rn) label s))

/-- bne (43_branch R224). -/
def execBne (rd rn : RegNum) (label : Addr) (s : State) : Host.Outcome State Fault Refusal :=
  perform s [(.rd, rd), (.rn, rn)] (.ok (branchIf .bne (readReg s rd != readReg s rn) label s))

/-- blt (43_branch R225): rd on the left. -/
def execBlt (rd rn : RegNum) (label : Addr) (s : State) : Host.Outcome State Fault Refusal :=
  perform s [(.rd, rd), (.rn, rn)]
    (.ok (branchIf .blt (lessThan s.params.cmpSigned (readReg s rd) (readReg s rn)) label s))

/-- bgt (43_branch R226): rd on the left. -/
def execBgt (rd rn : RegNum) (label : Addr) (s : State) : Host.Outcome State Fault Refusal :=
  perform s [(.rd, rd), (.rn, rn)]
    (.ok (branchIf .bgt (lessThan s.params.cmpSigned (readReg s rn) (readReg s rd)) label s))

/-- bro (43_branch R227): tests `OV` and does not clear it. -/
def execBro (label : Addr) (s : State) : Host.Outcome State Fault Refusal := .next (branchIf .bro s.ov label s)

end Sys2Proof.Machine
end

