-- ==== Sys2Proof/Machine/Mov.lean ====
section
/-! DEFINITION. mov (42_mov): 19 forms. No form reads or writes `OV` (R203). Reads come before writes, and the
address is computed before any register is written (R202). -/

namespace Sys2Proof.Machine

/-- Load a byte into the low half of rd (42_mov R186, R194). -/
def loadLow (rd : RegNum) (am : AddressMode) (s : State) : Host.Outcome State Fault Refusal :=
  perform s ((.rd, rd) :: modeFields am)
    ((memReadByte s (effectiveAddress am s)).map fun v => advance (writeLow s rd v) (.load .low (modeKind am)))

/-- Load a byte into the high half of rd (42_mov R187, R195). -/
def loadHigh (rd : RegNum) (am : AddressMode) (s : State) : Host.Outcome State Fault Refusal :=
  perform s ((.rd, rd) :: modeFields am)
    ((memReadByte s (effectiveAddress am s)).map fun v => advance (writeHigh s rd v) (.load .high (modeKind am)))

/-- Load 16 bits into rd (42_mov R188, R196). -/
def loadWord (rd : RegNum) (am : AddressMode) (s : State) : Host.Outcome State Fault Refusal :=
  perform s ((.rd, rd) :: modeFields am)
    ((memReadWord s (effectiveAddress am s)).map fun v => advance (writeReg s rd v) (.load .word (modeKind am)))

/-- Load 32 bits into rd (upper) and rn1 (lower) (42_mov R189, R197). -/
def loadPair (rd rn1 : RegNum) (am : AddressMode) (s : State) : Host.Outcome State Fault Refusal :=
  perform s ((.rd, rd) :: modeFields am ++ [(.rn1, rn1)])
    ((memReadDWord s (effectiveAddress am s)).map fun v => advance (writePair s rd rn1 v) (.load .pair (modeKind am)))

/-- Store the low half of rd (42_mov R190, R198). -/
def storeLow (rd : RegNum) (am : AddressMode) (s : State) : Host.Outcome State Fault Refusal :=
  perform s ((.rd, rd) :: modeFields am)
    ((memWrite s (effectiveAddress am s) [lowByte (readReg s rd)]).map fun t => advance t (.store .low (modeKind am)))

/-- Store the high half of rd (42_mov R191, R199). -/
def storeHigh (rd : RegNum) (am : AddressMode) (s : State) : Host.Outcome State Fault Refusal :=
  perform s ((.rd, rd) :: modeFields am)
    ((memWrite s (effectiveAddress am s) [highByte (readReg s rd)]).map fun t => advance t (.store .high (modeKind am)))

/-- Store the 16 bits of rd (42_mov R192, R200). -/
def storeWord (rd : RegNum) (am : AddressMode) (s : State) : Host.Outcome State Fault Refusal :=
  perform s ((.rd, rd) :: modeFields am)
    ((memWrite s (effectiveAddress am s) (wordBytes s.params.byteOrder (readReg s rd))).map fun t =>
      advance t (.store .word (modeKind am)))

/-- Store rd (upper) and rn1 (lower) as 32 bits (42_mov R193, R201). -/
def storePair (rd rn1 : RegNum) (am : AddressMode) (s : State) : Host.Outcome State Fault Refusal :=
  perform s ((.rd, rd) :: modeFields am ++ [(.rn1, rn1)])
    ((memWrite s (effectiveAddress am s)
      (dwordBytes s.params.byteOrder (joinHalves (readReg s rd) (readReg s rn1)))).map fun t =>
      advance t (.store .pair (modeKind am)))

/-- mov, specifier 0x00 (42_mov R183): all 16 bits of rd are written. -/
def execMovImm (rd : RegNum) (imm : Word) (s : State) : Host.Outcome State Fault Refusal :=
  perform s [(.rd, rd)] (.ok (advance (writeReg s rd imm) .movImm))

/-- mov, specifier 0x01 (42_mov R184): rd gets the upper half, rn the lower. -/
def execMovImm32 (rd rn : RegNum) (imm : DWord) (s : State) : Host.Outcome State Fault Refusal :=
  perform s [(.rd, rd), (.rn, rn)] (.ok (advance (writePair s rd rn imm) .movImm32))

/-- mov, specifier 0x02 (42_mov R185): copies rd INTO rn ("reversed semantics"). -/
def execMovReg (rd rn : RegNum) (s : State) : Host.Outcome State Fault Refusal :=
  perform s [(.rd, rd), (.rn, rn)] (.ok (advance (writeReg s rn (readReg s rd)) .movReg))

/-- mov, specifier 0x03 (42_mov R186). -/
def execLoadLowAbs (rd : RegNum) (addr : Addr) (s : State) : Host.Outcome State Fault Refusal :=
  loadLow rd (.absolute addr) s

/-- mov, specifier 0x04 (42_mov R187). -/
def execLoadHighAbs (rd : RegNum) (addr : Addr) (s : State) : Host.Outcome State Fault Refusal :=
  loadHigh rd (.absolute addr) s

/-- mov, specifier 0x05 (42_mov R188). -/
def execLoadWordAbs (rd : RegNum) (addr : Addr) (s : State) : Host.Outcome State Fault Refusal :=
  loadWord rd (.absolute addr) s

/-- mov, specifier 0x06 (42_mov R189). -/
def execLoadPairAbs (rd rn1 : RegNum) (addr : Addr) (s : State) : Host.Outcome State Fault Refusal :=
  loadPair rd rn1 (.absolute addr) s

/-- mov, specifier 0x07 (42_mov R190). -/
def execStoreLowAbs (rd : RegNum) (addr : Addr) (s : State) : Host.Outcome State Fault Refusal :=
  storeLow rd (.absolute addr) s

/-- mov, specifier 0x08 (42_mov R191). -/
def execStoreHighAbs (rd : RegNum) (addr : Addr) (s : State) : Host.Outcome State Fault Refusal :=
  storeHigh rd (.absolute addr) s

/-- mov, specifier 0x09 (42_mov R192). -/
def execStoreWordAbs (rd : RegNum) (addr : Addr) (s : State) : Host.Outcome State Fault Refusal :=
  storeWord rd (.absolute addr) s

/-- mov, specifier 0x0A (42_mov R193). -/
def execStorePairAbs (rd rn1 : RegNum) (addr : Addr) (s : State) : Host.Outcome State Fault Refusal :=
  storePair rd rn1 (.absolute addr) s

/-- mov, specifier 0x0B (42_mov R194). -/
def execLoadLowRel (rd rn : RegNum) (off : DWord) (s : State) : Host.Outcome State Fault Refusal :=
  loadLow rd (.relative rn off) s

/-- mov, specifier 0x0C (42_mov R195). -/
def execLoadHighRel (rd rn : RegNum) (off : DWord) (s : State) : Host.Outcome State Fault Refusal :=
  loadHigh rd (.relative rn off) s

/-- mov, specifier 0x0D (42_mov R196). -/
def execLoadWordRel (rd rn : RegNum) (off : DWord) (s : State) : Host.Outcome State Fault Refusal :=
  loadWord rd (.relative rn off) s

/-- mov, specifier 0x0E (42_mov R197). -/
def execLoadPairRel (rd rn rn1 : RegNum) (off : DWord) (s : State) : Host.Outcome State Fault Refusal :=
  loadPair rd rn1 (.relative rn off) s

/-- mov, specifier 0x0F (42_mov R198). -/
def execStoreLowRel (rd rn : RegNum) (off : DWord) (s : State) : Host.Outcome State Fault Refusal :=
  storeLow rd (.relative rn off) s

/-- mov, specifier 0x10 (42_mov R199). -/
def execStoreHighRel (rd rn : RegNum) (off : DWord) (s : State) : Host.Outcome State Fault Refusal :=
  storeHigh rd (.relative rn off) s

/-- mov, specifier 0x11 (42_mov R200). -/
def execStoreWordRel (rd rn : RegNum) (off : DWord) (s : State) : Host.Outcome State Fault Refusal :=
  storeWord rd (.relative rn off) s

/-- mov, specifier 0x12 (42_mov R201). -/
def execStorePairRel (rd rn rn1 : RegNum) (off : DWord) (s : State) : Host.Outcome State Fault Refusal :=
  storePair rd rn1 (.relative rn off) s

end Sys2Proof.Machine
end

