-- ==== Sys2Proof/Machine/Dispatch.lean ====
section
/-! DEFINITION. The dispatch: one arm per constructor of Instr, each one direct call of its meaning. -/

namespace Sys2Proof.Machine

def exec (i : Instr) (s : State) : Host.Outcome State Fault Refusal :=
  match i with
  | .nop => Sys2Proof.Machine.execNop s
  | .addImm rd imm => Sys2Proof.Machine.execAddImm rd imm s
  | .addReg rd rn => Sys2Proof.Machine.execAddReg rd rn s
  | .addMem rd addr => Sys2Proof.Machine.execAddMem rd addr s
  | .subImm rd imm => Sys2Proof.Machine.execSubImm rd imm s
  | .subReg rd rn => Sys2Proof.Machine.execSubReg rd rn s
  | .subMem rd addr => Sys2Proof.Machine.execSubMem rd addr s
  | .mulImm rd imm => Sys2Proof.Machine.execMulImm rd imm s
  | .mulReg rd rn => Sys2Proof.Machine.execMulReg rd rn s
  | .mulMem rd addr => Sys2Proof.Machine.execMulMem rd addr s
  | .andImm rd imm => Sys2Proof.Machine.execAndImm rd imm s
  | .andReg rd rn => Sys2Proof.Machine.execAndReg rd rn s
  | .andMem rd addr => Sys2Proof.Machine.execAndMem rd addr s
  | .orImm rd imm => Sys2Proof.Machine.execOrImm rd imm s
  | .orReg rd rn => Sys2Proof.Machine.execOrReg rd rn s
  | .orMem rd addr => Sys2Proof.Machine.execOrMem rd addr s
  | .xorImm rd imm => Sys2Proof.Machine.execXorImm rd imm s
  | .xorReg rd rn => Sys2Proof.Machine.execXorReg rd rn s
  | .xorMem rd addr => Sys2Proof.Machine.execXorMem rd addr s
  | .lshImm rd imm => Sys2Proof.Machine.execLshImm rd imm s
  | .lshReg rd rn => Sys2Proof.Machine.execLshReg rd rn s
  | .lshMem rd addr => Sys2Proof.Machine.execLshMem rd addr s
  | .rshImm rd imm => Sys2Proof.Machine.execRshImm rd imm s
  | .rshReg rd rn => Sys2Proof.Machine.execRshReg rd rn s
  | .rshMem rd addr => Sys2Proof.Machine.execRshMem rd addr s
  | .movImm rd imm => Sys2Proof.Machine.execMovImm rd imm s
  | .movImm32 rd rn imm => Sys2Proof.Machine.execMovImm32 rd rn imm s
  | .movReg rd rn => Sys2Proof.Machine.execMovReg rd rn s
  | .loadLowAbs rd addr => Sys2Proof.Machine.execLoadLowAbs rd addr s
  | .loadHighAbs rd addr => Sys2Proof.Machine.execLoadHighAbs rd addr s
  | .loadWordAbs rd addr => Sys2Proof.Machine.execLoadWordAbs rd addr s
  | .loadPairAbs rd rn1 addr => Sys2Proof.Machine.execLoadPairAbs rd rn1 addr s
  | .storeLowAbs rd addr => Sys2Proof.Machine.execStoreLowAbs rd addr s
  | .storeHighAbs rd addr => Sys2Proof.Machine.execStoreHighAbs rd addr s
  | .storeWordAbs rd addr => Sys2Proof.Machine.execStoreWordAbs rd addr s
  | .storePairAbs rd rn1 addr => Sys2Proof.Machine.execStorePairAbs rd rn1 addr s
  | .loadLowRel rd rn off => Sys2Proof.Machine.execLoadLowRel rd rn off s
  | .loadHighRel rd rn off => Sys2Proof.Machine.execLoadHighRel rd rn off s
  | .loadWordRel rd rn off => Sys2Proof.Machine.execLoadWordRel rd rn off s
  | .loadPairRel rd rn rn1 off => Sys2Proof.Machine.execLoadPairRel rd rn rn1 off s
  | .storeLowRel rd rn off => Sys2Proof.Machine.execStoreLowRel rd rn off s
  | .storeHighRel rd rn off => Sys2Proof.Machine.execStoreHighRel rd rn off s
  | .storeWordRel rd rn off => Sys2Proof.Machine.execStoreWordRel rd rn off s
  | .storePairRel rd rn rn1 off => Sys2Proof.Machine.execStorePairRel rd rn rn1 off s
  | .b label => Sys2Proof.Machine.execB label s
  | .be rd rn label => Sys2Proof.Machine.execBe rd rn label s
  | .bne rd rn label => Sys2Proof.Machine.execBne rd rn label s
  | .blt rd rn label => Sys2Proof.Machine.execBlt rd rn label s
  | .bgt rd rn label => Sys2Proof.Machine.execBgt rd rn label s
  | .bro label => Sys2Proof.Machine.execBro label s

end Sys2Proof.Machine
end

