-- ==== Sys2Proof/Machine/Fetch.lean ====
section
/-! DEFINITION. Fetching and decoding the instruction at `pc` (20_memory R56, 30_encoding R90). -/

namespace Sys2Proof.Machine

/-- `Fetch(addr, n)` (20_memory R56): an instruction address is a multiple of `IALIGN` (R58). The end is compared on
exact integers. -/
def fetch (ialign : Nat) (l : Launch) (a : Addr) (n : Nat) : Except Fault (List Byte) :=
  if a.toNat % ialign ≠ 0 then .error (.fetchMisaligned a)
  else if a.toNat < l.progBase.toNat ∨ a.toNat + n > l.progEnd then .error (.fetchFault a n)
  else .ok ((l.prog.drop (a.toNat - l.progBase.toNat)).take n)

/-- The bytes behind the header: `Fetch(pc + 4, len - 4)` when `len > 4` (30_encoding R90). -/
def fetchRest (p : Params) (l : Launch) (pc : Addr) (f : Form) : Except Fault (List Byte) :=
  if p.len f > 4 then fetch p.ialign l (pc + 4) (p.len f - 4) else .ok []

/-- The instruction at `pc`, or the fault of 30_encoding R90: fetch the header, find the row of R89, fetch the rest,
check the unused fields, in that order (60_exceptions R256 items 1 to 5). -/
def fetchDecode (p : Params) (l : Launch) (pc : Addr) : Except Fault Instr :=
  match fetch p.ialign l pc 4 with
  | .error f => .error f
  | .ok header =>
    let opcode := header.getD p.layout.opcode 0
    let spec := header.getD p.layout.spec 0
    match formOf opcode spec with
    | none => .error (.illegalInstruction pc opcode spec)
    | some form =>
      match fetchRest p l pc form with
      | .error f => .error f
      | .ok rest =>
        match decode p (header ++ rest) with
        | .ok i => .ok i
        | .error _ => .error (.illegalInstruction pc opcode spec)

end Sys2Proof.Machine
end

