-- ==== Sys2Proof/Machine/Step.lean ====
section
/-! DEFINITION. One step of the machine (00_scope R9), and the launch of one instruction. -/

namespace Sys2Proof.Machine

/-- One step (00_scope R9, 70_reset_and_hazards R284). A machine that is `Faulted` or `Ended` takes none: the answer
names its fault, or that the run has ended (logs 14, 15). A launch that breaks its conditions is refused (log 16). At
`PROG_END` the run ends. Otherwise the instruction at `pc` is fetched, decoded and executed; a fault of fetch or decode
is raised (60_exceptions R250). -/
def step (s : State) : Host.Outcome State Fault Refusal :=
  match s.status with
  | .faulted f => .fault f
  | .ended => .refused .ended
  | .running =>
    if s.launch.wf s.params.ialign && s.params.wf then
      if s.pc.toNat = s.launch.progEnd then .next { s with status := .ended }
      else
        match fetchDecode s.params s.launch s.pc with
        | .error f => raise f s
        | .ok i => exec i s
    else .refused .illFormedLaunch

/-- `s` launched (70_reset_and_hazards R282) with a text of one instruction, given as a word of the opcode table, at
the current `pc`, and running. The text is the instruction's bytes filled with zeros up to the longest form
(log 5). -/
def State.withFetchWord (s : State) (nbits w : Nat) : State :=
  { s with
    status := .running
    launch := { s.launch with progBase := s.pc, prog := tableBytes s.params.longest nbits w } }

end Sys2Proof.Machine
end

