-- ==== Sys2Proof/Machine/Assembler.lean ====
section
/-! DEFINITION. The assembler syntax (30_encoding R101 to R104, 42_mov R204): operands and their notation, the choice
of the form from the operands' shape, labels, and the text in both directions (log 28). No step uses this file. -/

namespace Sys2Proof.Machine

/-- An operand as it is written (30_encoding R101). Numbers are as written, not yet narrowed to a field. -/
inductive Operand where
  /-- A bare decimal number: a register. -/
  | reg (r : Nat)
  /-- `r.L`: the low half of a register. -/
  | low (r : Nat)
  /-- `r.H`: the high half of a register. -/
  | high (r : Nat)
  /-- `#0x…`: an immediate. -/
  | imm (v : Nat)
  /-- `[0x…]`: the memory at an absolute address. -/
  | absolute (a : Nat)
  /-- `[r + 0x…]`: the memory at a register plus an offset. -/
  | relative (r off : Nat)
  /-- A bare `0x…` number where a label may stand: the address itself. -/
  | target (a : Nat)
  /-- A bare name: the address of the label (30_encoding R103, GK6). -/
  | label (name : String)
deriving DecidableEq, Repr

/-- One source line: a label it defines, and an instruction (30_encoding R103). -/
structure SourceLine where
  label : Option String
  code  : Option (String × List Operand)
deriving DecidableEq, Repr

/-! ### From operands to the form -/

/-- A register field, if the number fits it (10_state R20). -/
def regField (n : Nat) : Option RegNum := if n < 256 then some (BitVec.ofNat 8 n) else none

/-- A 16-bit field, if the number fits it (42_mov R183: any width up to 16 bits, zero-extended). -/
def wordField (n : Nat) : Option Word := if n < 65536 then some (BitVec.ofNat 16 n) else none

/-- A 32-bit field, if the number fits it. -/
def dwordField (n : Nat) : Option DWord := if n < 4294967296 then some (BitVec.ofNat 32 n) else none

/-- The three forms of an arithmetic mnemonic: immediate, register, memory (30_encoding R93, R102). -/
def aluForms (mnemonic : String) :
    Option ((RegNum → Word → Instr) × (RegNum → RegNum → Instr) × (RegNum → Addr → Instr)) :=
  match mnemonic with
  | "add" => some (.addImm, .addReg, .addMem)
  | "sub" => some (.subImm, .subReg, .subMem)
  | "mul" => some (.mulImm, .mulReg, .mulMem)
  | "and" => some (.andImm, .andReg, .andMem)
  | "or" => some (.orImm, .orReg, .orMem)
  | "xor" => some (.xorImm, .xorReg, .xorMem)
  | "lsh" => some (.lshImm, .lshReg, .lshMem)
  | "rsh" => some (.rshImm, .rshReg, .rshMem)
  | _ => none

/-- The form of an arithmetic instruction from its operands: the first is rd (30_encoding R102). -/
def selectAlu (forms : (RegNum → Word → Instr) × (RegNum → RegNum → Instr) × (RegNum → Addr → Instr))
    (operands : List Operand) : Option Instr :=
  match operands with
  | [.reg rd, .imm v] => do return forms.1 (← regField rd) (← wordField v)
  | [.reg rd, .reg rn] => do return forms.2.1 (← regField rd) (← regField rn)
  | [.reg rd, .absolute a] => do return forms.2.2 (← regField rd) (← dwordField a)
  | _ => none

/-- The specifier of mov from its operands' shape (42_mov R204): the first register written outside the brackets is
rd, the second is rn for the immediate and register forms and rn1 for the 32-bit memory forms (30_encoding R101). -/
def selectMov (operands : List Operand) : Option Instr :=
  match operands with
  | [.reg rd, .imm v] => do return .movImm (← regField rd) (← wordField v)
  | [.reg rd, .reg rn, .imm v] => do return .movImm32 (← regField rd) (← regField rn) (← dwordField v)
  | [.reg rd, .reg rn, .target v] => do return .movImm32 (← regField rd) (← regField rn) (← dwordField v)
  | [.reg rd, .reg rn] => do return .movReg (← regField rd) (← regField rn)
  | [.low rd, .absolute a] => do return .loadLowAbs (← regField rd) (← dwordField a)
  | [.high rd, .absolute a] => do return .loadHighAbs (← regField rd) (← dwordField a)
  | [.reg rd, .absolute a] => do return .loadWordAbs (← regField rd) (← dwordField a)
  | [.reg rd, .reg rn1, .absolute a] => do return .loadPairAbs (← regField rd) (← regField rn1) (← dwordField a)
  | [.absolute a, .low rd] => do return .storeLowAbs (← regField rd) (← dwordField a)
  | [.absolute a, .high rd] => do return .storeHighAbs (← regField rd) (← dwordField a)
  | [.absolute a, .reg rd] => do return .storeWordAbs (← regField rd) (← dwordField a)
  | [.absolute a, .reg rd, .reg rn1] => do return .storePairAbs (← regField rd) (← regField rn1) (← dwordField a)
  | [.low rd, .relative rn o] => do return .loadLowRel (← regField rd) (← regField rn) (← dwordField o)
  | [.high rd, .relative rn o] => do return .loadHighRel (← regField rd) (← regField rn) (← dwordField o)
  | [.reg rd, .relative rn o] => do return .loadWordRel (← regField rd) (← regField rn) (← dwordField o)
  | [.reg rd, .reg rn1, .relative rn o] => do
    return .loadPairRel (← regField rd) (← regField rn) (← regField rn1) (← dwordField o)
  | [.relative rn o, .low rd] => do return .storeLowRel (← regField rd) (← regField rn) (← dwordField o)
  | [.relative rn o, .high rd] => do return .storeHighRel (← regField rd) (← regField rn) (← dwordField o)
  | [.relative rn o, .reg rd] => do return .storeWordRel (← regField rd) (← regField rn) (← dwordField o)
  | [.relative rn o, .reg rd, .reg rn1] => do
    return .storePairRel (← regField rd) (← regField rn) (← regField rn1) (← dwordField o)
  | _ => none

/-- A conditional branch from its operands: two registers and a target (30_encoding R101). -/
def selectCompare (form : RegNum → RegNum → Addr → Instr) (operands : List Operand) : Option Instr :=
  match operands with
  | [.reg rd, .reg rn, .target a] => do return form (← regField rd) (← regField rn) (← dwordField a)
  | _ => none

/-- A branch on no register from its operand: a target (30_encoding R101). -/
def selectJump (form : Addr → Instr) (operands : List Operand) : Option Instr :=
  match operands with
  | [.target a] => do return form (← dwordField a)
  | _ => none

/-- The instruction that a mnemonic and its operands assemble to, labels being resolved; none where there is no such
form (42_mov R204, 30_encoding R101, R102). Mnemonics are lower-case (R103). -/
def select (mnemonic : String) (operands : List Operand) : Option Instr :=
  match mnemonic with
  | "nop" => if operands = [] then some .nop else none
  | "mov" => selectMov operands
  | "b" => selectJump .b operands
  | "be" => selectCompare .be operands
  | "bne" => selectCompare .bne operands
  | "blt" => selectCompare .blt operands
  | "bgt" => selectCompare .bgt operands
  | "bro" => selectJump .bro operands
  | other => (aluForms other).bind fun forms => selectAlu forms operands

/-! ### From the instruction to its operands -/

/-- The mnemonic and the operands of an instruction (30_encoding R101, R102). -/
def sourceOf : Instr → String × List Operand
  | .nop => ("nop", [])
  | .addImm rd v => ("add", [.reg rd.toNat, .imm v.toNat])
  | .addReg rd rn => ("add", [.reg rd.toNat, .reg rn.toNat])
  | .addMem rd a => ("add", [.reg rd.toNat, .absolute a.toNat])
  | .subImm rd v => ("sub", [.reg rd.toNat, .imm v.toNat])
  | .subReg rd rn => ("sub", [.reg rd.toNat, .reg rn.toNat])
  | .subMem rd a => ("sub", [.reg rd.toNat, .absolute a.toNat])
  | .mulImm rd v => ("mul", [.reg rd.toNat, .imm v.toNat])
  | .mulReg rd rn => ("mul", [.reg rd.toNat, .reg rn.toNat])
  | .mulMem rd a => ("mul", [.reg rd.toNat, .absolute a.toNat])
  | .andImm rd v => ("and", [.reg rd.toNat, .imm v.toNat])
  | .andReg rd rn => ("and", [.reg rd.toNat, .reg rn.toNat])
  | .andMem rd a => ("and", [.reg rd.toNat, .absolute a.toNat])
  | .orImm rd v => ("or", [.reg rd.toNat, .imm v.toNat])
  | .orReg rd rn => ("or", [.reg rd.toNat, .reg rn.toNat])
  | .orMem rd a => ("or", [.reg rd.toNat, .absolute a.toNat])
  | .xorImm rd v => ("xor", [.reg rd.toNat, .imm v.toNat])
  | .xorReg rd rn => ("xor", [.reg rd.toNat, .reg rn.toNat])
  | .xorMem rd a => ("xor", [.reg rd.toNat, .absolute a.toNat])
  | .lshImm rd v => ("lsh", [.reg rd.toNat, .imm v.toNat])
  | .lshReg rd rn => ("lsh", [.reg rd.toNat, .reg rn.toNat])
  | .lshMem rd a => ("lsh", [.reg rd.toNat, .absolute a.toNat])
  | .rshImm rd v => ("rsh", [.reg rd.toNat, .imm v.toNat])
  | .rshReg rd rn => ("rsh", [.reg rd.toNat, .reg rn.toNat])
  | .rshMem rd a => ("rsh", [.reg rd.toNat, .absolute a.toNat])
  | .movImm rd v => ("mov", [.reg rd.toNat, .imm v.toNat])
  | .movImm32 rd rn v => ("mov", [.reg rd.toNat, .reg rn.toNat, .imm v.toNat])
  | .movReg rd rn => ("mov", [.reg rd.toNat, .reg rn.toNat])
  | .loadLowAbs rd a => ("mov", [.low rd.toNat, .absolute a.toNat])
  | .loadHighAbs rd a => ("mov", [.high rd.toNat, .absolute a.toNat])
  | .loadWordAbs rd a => ("mov", [.reg rd.toNat, .absolute a.toNat])
  | .loadPairAbs rd rn1 a => ("mov", [.reg rd.toNat, .reg rn1.toNat, .absolute a.toNat])
  | .storeLowAbs rd a => ("mov", [.absolute a.toNat, .low rd.toNat])
  | .storeHighAbs rd a => ("mov", [.absolute a.toNat, .high rd.toNat])
  | .storeWordAbs rd a => ("mov", [.absolute a.toNat, .reg rd.toNat])
  | .storePairAbs rd rn1 a => ("mov", [.absolute a.toNat, .reg rd.toNat, .reg rn1.toNat])
  | .loadLowRel rd rn o => ("mov", [.low rd.toNat, .relative rn.toNat o.toNat])
  | .loadHighRel rd rn o => ("mov", [.high rd.toNat, .relative rn.toNat o.toNat])
  | .loadWordRel rd rn o => ("mov", [.reg rd.toNat, .relative rn.toNat o.toNat])
  | .loadPairRel rd rn rn1 o => ("mov", [.reg rd.toNat, .reg rn1.toNat, .relative rn.toNat o.toNat])
  | .storeLowRel rd rn o => ("mov", [.relative rn.toNat o.toNat, .low rd.toNat])
  | .storeHighRel rd rn o => ("mov", [.relative rn.toNat o.toNat, .high rd.toNat])
  | .storeWordRel rd rn o => ("mov", [.relative rn.toNat o.toNat, .reg rd.toNat])
  | .storePairRel rd rn rn1 o => ("mov", [.relative rn.toNat o.toNat, .reg rd.toNat, .reg rn1.toNat])
  | .b a => ("b", [.target a.toNat])
  | .be rd rn a => ("be", [.reg rd.toNat, .reg rn.toNat, .target a.toNat])
  | .bne rd rn a => ("bne", [.reg rd.toNat, .reg rn.toNat, .target a.toNat])
  | .blt rd rn a => ("blt", [.reg rd.toNat, .reg rn.toNat, .target a.toNat])
  | .bgt rd rn a => ("bgt", [.reg rd.toNat, .reg rn.toNat, .target a.toNat])
  | .bro a => ("bro", [.target a.toNat])

/-! ### Labels -/

/-- Replace a label by its 32-bit absolute address (30_encoding R103). -/
def resolve (table : List (String × Nat)) (o : Operand) : Option Operand :=
  match o with
  | .label name => (table.lookup name).map .target
  | other => some other

/-- The instruction of a line under a table of labels; the outer none is a line that does not assemble. -/
def lineInstr (table : List (String × Nat)) (line : SourceLine) : Option (Option Instr) :=
  match line.code with
  | none => some none
  | some (mnemonic, operands) =>
    (operands.mapM (resolve table)).bind fun resolved => (select mnemonic resolved).map some

/-- The bytes of a line under a table of labels; none if an Offset does not fit `OFFLEN`. -/
def lineBytes (p : Params) (table : List (String × Nat)) (line : SourceLine) : Option (List Byte) :=
  (lineInstr table line).bind fun i =>
    match i with
    | none => some []
    | some i => if i.fits p then some (encode p i) else none

/-- The length of a line in bytes. It depends on the operands' shape alone (30_encoding R100), so every label may
stand at address 0. -/
def lineLength (p : Params) (line : SourceLine) : Option Nat :=
  let blank (o : Operand) : Operand :=
    match o with
    | .label _ => .target 0
    | other => other
  (lineInstr [] { line with code := line.code.map fun c => (c.1, c.2.map blank) }).map
    fun i => (i.map (Instr.length p)).getD 0

/-- The table of labels of a program whose next line stands at `at_`: a label stands for the address of the next
instruction (30_encoding R103). -/
def labelTable (p : Params) (at_ : Nat) (lines : List SourceLine) : Option (List (String × Nat)) :=
  match lines with
  | [] => some []
  | line :: rest => do
    let len ← lineLength p line
    let table ← labelTable p (at_ + len) rest
    return match line.label with
      | none => table
      | some name => (name, at_) :: table

/-- The program text at `base` of some lines (30_encoding R103): two passes, the labels and then the bytes. -/
def assembleLines (p : Params) (base : Nat) (lines : List SourceLine) : Option (List Byte) := do
  let table ← labelTable p base lines
  let pieces ← lines.mapM (lineBytes p table)
  return pieces.flatten

/-! ### Text to lines -/

/-- The tokens of a line (30_encoding R101). -/
inductive Token where
  | name (text : String) | dec (n : Nat) | hex (n : Nat) | dotL | dotH | hash | comma | plus | lbracket | rbracket
  | colon
deriving DecidableEq, Repr

/-- The value of a hexadecimal digit. -/
def hexDigit (c : Char) : Option Nat :=
  if '0' ≤ c ∧ c ≤ '9' then some (c.toNat - '0'.toNat)
  else if 'a' ≤ c ∧ c ≤ 'f' then some (c.toNat - 'a'.toNat + 10)
  else if 'A' ≤ c ∧ c ≤ 'F' then some (c.toNat - 'A'.toNat + 10)
  else none

/-- A decimal digit. -/
def isDec (c : Char) : Bool := decide ('0' ≤ c) && decide (c ≤ '9')

/-- A character a name may begin with: a letter or `_`. -/
def isNameStart (c : Char) : Bool :=
  decide ('a' ≤ c) && decide (c ≤ 'z') || decide ('A' ≤ c) && decide (c ≤ 'Z') || c == '_'

/-- The number that some digits write in a base. -/
def numberOf (base : Nat) (digits : List Char) : Nat :=
  digits.foldl (fun n c => n * base + (hexDigit c).getD 0) 0

/-- The token at the head of a line that does not begin with a blank, and what follows it. -/
def lexToken (text : List Char) : Option (Token × List Char) :=
  match text with
  | '#' :: rest => some (.hash, rest)
  | ',' :: rest => some (.comma, rest)
  | '+' :: rest => some (.plus, rest)
  | '[' :: rest => some (.lbracket, rest)
  | ']' :: rest => some (.rbracket, rest)
  | ':' :: rest => some (.colon, rest)
  | '.' :: 'L' :: rest => some (.dotL, rest)
  | '.' :: 'H' :: rest => some (.dotH, rest)
  | '0' :: 'x' :: rest =>
    match rest.takeWhile (fun c => (hexDigit c).isSome) with
    | [] => none
    | digits => some (.hex (numberOf 16 digits), rest.drop digits.length)
  | c :: _ =>
    if isDec c then
      let digits := text.takeWhile isDec
      some (.dec (numberOf 10 digits), text.drop digits.length)
    else if isNameStart c then
      let word := text.takeWhile fun c => isNameStart c || isDec c
      some (.name (String.ofList word), text.drop word.length)
    else none
  | [] => none

/-- The tokens of a line; `fuel` at least its length plus one suffices. -/
def lex (fuel : Nat) (text : List Char) : Option (List Token) :=
  match fuel, text with
  | 0, _ => none
  | _, [] => some []
  | fuel + 1, ' ' :: rest => lex fuel rest
  | fuel + 1, text => do
    let (token, rest) ← lexToken text
    let tokens ← lex fuel rest
    return token :: tokens

/-- The operand at the head of some tokens, and what follows it (30_encoding R101, R103). -/
def parseOperand (tokens : List Token) : Option (Operand × List Token) :=
  match tokens with
  | .dec n :: .dotL :: rest => some (.low n, rest)
  | .dec n :: .dotH :: rest => some (.high n, rest)
  | .dec n :: rest => some (.reg n, rest)
  | .hash :: .hex v :: rest => some (.imm v, rest)
  | .lbracket :: .hex a :: .rbracket :: rest => some (.absolute a, rest)
  | .lbracket :: .dec r :: .plus :: .hex o :: .rbracket :: rest => some (.relative r o, rest)
  | .hex a :: rest => some (.target a, rest)
  | .name n :: rest => some (.label n, rest)
  | _ => none

/-- The operands of an instruction: separated by commas, but that the third may follow the second without one, as in
the source's `mov 1, 2 #0xDEADBEEF` (30_encoding R101, 90_conflicts C5). -/
def parseOperands (fuel : Nat) (before : Nat) (tokens : List Token) : Option (List Operand) :=
  match fuel with
  | 0 => none
  | fuel + 1 => do
    let (o, rest) ← parseOperand tokens
    match rest with
    | [] => return [o]
    | .comma :: rest => return o :: (← parseOperands fuel (before + 1) rest)
    | .hash :: _ | .name _ :: _ =>
      if before = 1 then return o :: (← parseOperands fuel 2 rest) else none
    | _ => none

/-- The instruction part of a line. -/
def parseCode (tokens : List Token) : Option (Option (String × List Operand)) :=
  match tokens with
  | [] => some none
  | [.name mnemonic] => some (some (mnemonic, []))
  | .name mnemonic :: rest => (parseOperands (rest.length + 1) 0 rest).map fun os => some (mnemonic, os)
  | _ => none

/-- A line: an optional `name:` and an optional instruction (30_encoding R103). -/
def parseLine (text : List Char) : Option SourceLine := do
  match ← lex (text.length + 1) text with
  | .name n :: .colon :: rest => return { label := some n, code := ← parseCode rest }
  | tokens => return { label := none, code := ← parseCode tokens }

/-- The lines of a text, cut at line feeds. -/
def cutLines (text : List Char) : List (List Char) :=
  match text with
  | [] => [[]]
  | c :: rest =>
    match c, cutLines rest with
    | '\n', lines => [] :: lines
    | c, line :: lines => (c :: line) :: lines
    | c, [] => [[c]]

/-- Assemble one line without labels to its instruction. -/
def assembleLine (text : String) : Option Instr := do
  let line ← parseLine text.toList
  (← lineInstr [] line)

/-- Assemble a program text that is to stand at `base` (`PROG_BASE`), for the encoding parameters. -/
def assemble (p : Params) (base : Addr) (text : String) : Option (List Byte) := do
  assembleLines p base.toNat (← (cutLines text.toList).mapM parseLine)

/-! ### Instructions to text -/

/-- The upper-case hexadecimal digit of a number below 16. -/
def hexChar (n : Nat) : Char := if n < 10 then Char.ofNat (48 + n) else Char.ofNat (55 + n)

/-- At least `width` hexadecimal digits of a number, in front of `after`; `fuel` bounds their number. -/
def hexChars (fuel width n : Nat) (after : List Char) : List Char :=
  match fuel with
  | 0 => after
  | fuel + 1 =>
    if n = 0 ∧ width = 0 then after else hexChars fuel (width - 1) (n / 16) (hexChar (n % 16) :: after)

/-- `0x` and at least `width` digits of a 32-bit number. -/
def hexText (width n : Nat) : List Char := '0' :: 'x' :: hexChars 8 width n []

/-- The decimal digits of a number, in front of `after`; `fuel` bounds their number. -/
def decChars (fuel n : Nat) (after : List Char) : List Char :=
  match fuel with
  | 0 => after
  | fuel + 1 =>
    let more := hexChar (n % 10) :: after
    if n < 10 then more else decChars fuel (n / 10) more

/-- A register number as the source writes it: bare decimal (10_state R20). -/
def decText (n : Nat) : List Char := decChars 3 n []

/-- An operand as text (30_encoding R101). -/
def operandText (o : Operand) : List Char :=
  match o with
  | .reg r => decText r
  | .low r => decText r ++ ['.', 'L']
  | .high r => decText r ++ ['.', 'H']
  | .imm v => '#' :: hexText 4 v
  | .absolute a => '[' :: hexText 1 a ++ [']']
  | .relative r off => '[' :: decText r ++ [' ', '+', ' '] ++ hexText 1 off ++ [']']
  | .target a => hexText 8 a
  | .label name => name.toList

/-- Operands as text, separated by `, ` (30_encoding R101, 90_conflicts C5). -/
def operandsText (os : List Operand) : List Char :=
  match os with
  | [] => []
  | [o] => operandText o
  | o :: rest => operandText o ++ [',', ' '] ++ operandsText rest

/-- An instruction as text (30_encoding R101, R102). -/
def render (i : Instr) : String :=
  match sourceOf i with
  | (mnemonic, []) => mnemonic
  | (mnemonic, os) => String.ofList (mnemonic.toList ++ ' ' :: operandsText os)

end Sys2Proof.Machine
end

