-- ==== Sys2Proof/Safety.lean ====
section
/-! DEFINITION. What counts as a safe run, in the terms claims use (60_exceptions R250, 70_reset_and_hazards R284). -/

namespace Sys2Proof.Machine

/-- The machine has not faulted. -/
def State.notFaulted (s : State) : Bool :=
  match s.status with
  | .faulted _ => false
  | .running | .ended => true

/-- "Only Ended is a final state of a successful run" (10_state R32). -/
def State.final (s : State) : Bool := s.status == .ended

/-- The state after `n` steps, none if one of them is no next state (00_scope R9, 70_reset_and_hazards R285). -/
def stateAfter (n : Nat) (s : State) : Option State :=
  match n with
  | 0 => some s
  | k + 1 =>
    match step s with
    | .next t => stateAfter k t
    | .fault _ | .refused _ => none

/-- A successful run: after some number of steps the machine is `Ended` (70_reset_and_hazards R284). -/
def endsSuccessfully (s : State) : Prop := ∃ n t, stateAfter n s = some t ∧ t.final = true

/-- Data memory lists no address outside `DATA_MAP` (10_state R31). -/
def State.memInMap (s : State) : Bool := s.mem.all fun c => inDataMap s.launch c.1

/-- The invariant of a launched machine: memory in canonical form and inside `DATA_MAP`, and the conditions of the
launch (10_state R21, R31; 20_memory R56). -/
def State.inv (s : State) : Bool := Memory.wf s.mem && s.memInMap && s.launch.wf s.params.ialign && s.params.wf

end Sys2Proof.Machine
end

