-- ==== Sys2Proof/Certificates/Slice0/Obligations.lean ====
section
/-! DEFINITION. The statements for the provers, and the tables of the spec they are stated with: which fields a form
uses (10_state R25), its data access (20_memory R59), its bytes (30_encoding R89), the fields that must be zero
(R98). -/

open Sys2Proof Sys2Proof.Machine

namespace Sys2Proof.Claims

/-- All of these registers exist (10_state R22). -/
abbrev legal (s : State) (rs : List RegNum) : Prop := ∀ r ∈ rs, r.toNat < s.params.nregs

/-- `a` is a multiple of `n`, if `MISALIGNED_POLICY` asks for it (20_memory R57). -/
abbrev aligned (s : State) (a : Addr) (n : Nat) : Prop := s.params.misaligned = .fault → a.toNat % n = 0

/-- An access of `n` bytes, aligned if the policy asks for it, all of them in `DATA_MAP` (20_memory R54, R57). -/
abbrev accessible (s : State) (a : Addr) (n : Nat) : Prop :=
  aligned s a n ∧ ∀ k < n, inDataMap s.launch (a.toNat + k) = true

/-- The three checks of a data access, in the parameters and the launch of a state (20_memory R54). -/
abbrev accessFaultOf (s : State) (a : Addr) (n : Nat) : Option Fault := checkAccess s.params.misaligned s.launch a n

/-- `ENC_LAYOUT`, `LEN` and `OFFLEN` have the spec's reference values (30_encoding R82 to R89, D5, D6, D21). -/
abbrev referenceEncoding (p : Params) : Prop := p.layout = Config.layout ∧ p.offLen = 32

/-- `pc +_32 len`: the address behind an instruction (10_state R27). -/
def behind (i : Instr) (s : State) : Addr := s.pc + BitVec.ofNat 32 (i.length s.params)

/-- `s` faulted: `status` written and nothing else (60_exceptions R250). -/
def faultedWith (s : State) (f : Fault) : State := { s with status := .faulted f }

/-- Running, with a launch that meets its conditions (00_scope R9, 20_memory R56, 10_state R21). -/
abbrev ready (s : State) : Prop := s.status = .running ∧ s.launch.wf s.params.ialign = true ∧ s.params.wf = true

/-- `pc` is a multiple of `IALIGN` and not below the text. -/
abbrev atText (s : State) : Prop := s.pc.toNat % s.params.ialign = 0 ∧ s.launch.progBase.toNat ≤ s.pc.toNat

/-- The bytes of the text from `pc` on, for a `pc` not below the text. -/
def textAt (s : State) : List Byte := s.launch.prog.drop (s.pc.toNat - s.launch.progBase.toNat)

/-- The arithmetic forms of specifier 0x00. -/
def aluImm : AluOp → RegNum → Word → Instr
  | .add => .addImm | .sub => .subImm | .mul => .mulImm | .and => .andImm | .or => .orImm | .xor => .xorImm
  | .lsh => .lshImm | .rsh => .rshImm

/-- The arithmetic forms of specifier 0x01. -/
def aluReg : AluOp → RegNum → RegNum → Instr
  | .add => .addReg | .sub => .subReg | .mul => .mulReg | .and => .andReg | .or => .orReg | .xor => .xorReg
  | .lsh => .lshReg | .rsh => .rshReg

/-- The arithmetic forms of specifier 0x02. -/
def aluMem : AluOp → RegNum → Addr → Instr
  | .add => .addMem | .sub => .subMem | .mul => .mulMem | .and => .andMem | .or => .orMem | .xor => .xorMem
  | .lsh => .lshMem | .rsh => .rshMem

/-- The register fields a form uses, by name, in the order rd, rn, rn1 (10_state R25, 60_exceptions R256 item 6). -/
def usedFields : Instr → List (RegField × RegNum)
  | .nop | .b _ | .bro _ => []
  | .addImm rd _ | .subImm rd _ | .mulImm rd _ | .andImm rd _ | .orImm rd _ | .xorImm rd _ | .lshImm rd _
  | .rshImm rd _ | .movImm rd _ | .addMem rd _ | .subMem rd _ | .mulMem rd _ | .andMem rd _ | .orMem rd _
  | .xorMem rd _ | .lshMem rd _ | .rshMem rd _ | .loadLowAbs rd _ | .loadHighAbs rd _ | .loadWordAbs rd _
  | .storeLowAbs rd _ | .storeHighAbs rd _ | .storeWordAbs rd _ => [(.rd, rd)]
  | .addReg rd rn | .subReg rd rn | .mulReg rd rn | .andReg rd rn | .orReg rd rn | .xorReg rd rn | .lshReg rd rn
  | .rshReg rd rn | .movReg rd rn | .movImm32 rd rn _ | .loadLowRel rd rn _ | .loadHighRel rd rn _
  | .loadWordRel rd rn _ | .storeLowRel rd rn _ | .storeHighRel rd rn _ | .storeWordRel rd rn _ | .be rd rn _
  | .bne rd rn _ | .blt rd rn _ | .bgt rd rn _ => [(.rd, rd), (.rn, rn)]
  | .loadPairAbs rd rn1 _ | .storePairAbs rd rn1 _ => [(.rd, rd), (.rn1, rn1)]
  | .loadPairRel rd rn rn1 _ | .storePairRel rd rn rn1 _ => [(.rd, rd), (.rn, rn), (.rn1, rn1)]

/-- The registers a form writes (10_state R25). -/
def destinations : Instr → List RegNum
  | .nop | .b _ | .bro _ | .be _ _ _ | .bne _ _ _ | .blt _ _ _ | .bgt _ _ _ => []
  | .storeLowAbs _ _ | .storeHighAbs _ _ | .storeWordAbs _ _ | .storePairAbs _ _ _ | .storeLowRel _ _ _
  | .storeHighRel _ _ _ | .storeWordRel _ _ _ | .storePairRel _ _ _ _ => []
  | .addImm rd _ | .subImm rd _ | .mulImm rd _ | .andImm rd _ | .orImm rd _ | .xorImm rd _ | .lshImm rd _
  | .rshImm rd _ | .addReg rd _ | .subReg rd _ | .mulReg rd _ | .andReg rd _ | .orReg rd _ | .xorReg rd _
  | .lshReg rd _ | .rshReg rd _ | .addMem rd _ | .subMem rd _ | .mulMem rd _ | .andMem rd _ | .orMem rd _
  | .xorMem rd _ | .lshMem rd _ | .rshMem rd _ | .movImm rd _ | .loadLowAbs rd _ | .loadHighAbs rd _
  | .loadWordAbs rd _ | .loadLowRel rd _ _ | .loadHighRel rd _ _ | .loadWordRel rd _ _ => [rd]
  | .movImm32 rd rn _ => [rd, rn]
  | .movReg _ rn => [rn]
  | .loadPairAbs rd rn1 _ | .loadPairRel rd _ rn1 _ => [rd, rn1]

/-- The data access of a form, its address and its size in bytes (20_memory R59, 42_mov R182). -/
def dataAccess (i : Instr) (s : State) : Option (Addr × Nat) :=
  match i with
  | .addMem _ a | .subMem _ a | .mulMem _ a | .andMem _ a | .orMem _ a | .xorMem _ a | .lshMem _ a | .rshMem _ a =>
    some (a, 2)
  | .loadLowAbs _ a | .loadHighAbs _ a | .storeLowAbs _ a | .storeHighAbs _ a =>
    some (effectiveAddress (.absolute a) s, 1)
  | .loadWordAbs _ a | .storeWordAbs _ a => some (effectiveAddress (.absolute a) s, 2)
  | .loadPairAbs _ _ a | .storePairAbs _ _ a => some (effectiveAddress (.absolute a) s, 4)
  | .loadLowRel _ rn o | .loadHighRel _ rn o | .storeLowRel _ rn o | .storeHighRel _ rn o =>
    some (effectiveAddress (.relative rn o) s, 1)
  | .loadWordRel _ rn o | .storeWordRel _ rn o => some (effectiveAddress (.relative rn o) s, 2)
  | .loadPairRel _ rn _ o | .storePairRel _ rn _ o => some (effectiveAddress (.relative rn o) s, 4)
  | _ => none

/-- The forms that write memory: mov 0x07 to 0x0A and 0x0F to 0x12 (20_memory R59). -/
def stores : Instr → Bool
  | .storeLowAbs _ _ | .storeHighAbs _ _ | .storeWordAbs _ _ | .storePairAbs _ _ _ | .storeLowRel _ _ _
  | .storeHighRel _ _ _ | .storeWordRel _ _ _ | .storePairRel _ _ _ _ => true
  | _ => false

/-- The forms of mov (42_mov R180). -/
def isMov : Instr → Bool
  | .movImm _ _ | .movImm32 _ _ _ | .movReg _ _ | .loadLowAbs _ _ | .loadHighAbs _ _ | .loadWordAbs _ _
  | .loadPairAbs _ _ _ | .storeLowAbs _ _ | .storeHighAbs _ _ | .storeWordAbs _ _ | .storePairAbs _ _ _
  | .loadLowRel _ _ _ | .loadHighRel _ _ _ | .loadWordRel _ _ _ | .loadPairRel _ _ _ _ | .storeLowRel _ _ _
  | .storeHighRel _ _ _ | .storeWordRel _ _ _ | .storePairRel _ _ _ _ => true
  | _ => false

/-- The forms of add, sub and mul, which write `OV` under REF-OVF (10_state R28). -/
def isAddSubMul : Instr → Bool
  | .addImm _ _ | .addReg _ _ | .addMem _ _ | .subImm _ _ | .subReg _ _ | .subMem _ _ | .mulImm _ _ | .mulReg _ _
  | .mulMem _ _ => true
  | _ => false

/-- The target of a branch (43_branch R220). -/
def targetOf : Instr → Option Addr
  | .b l | .be _ _ l | .bne _ _ l | .blt _ _ l | .bgt _ _ l | .bro l => some l
  | _ => none

/-- The condition of a branch holds, its registers being there (43_branch R221, R222, R227). -/
abbrev branchTaken (i : Instr) (s : State) : Prop :=
  match i with
  | .b _ => True
  | .be rd rn _ => legal s [rd, rn] ∧ readReg s rd = readReg s rn
  | .bne rd rn _ => legal s [rd, rn] ∧ readReg s rd ≠ readReg s rn
  | .blt rd rn _ => legal s [rd, rn] ∧ lessThan s.params.cmpSigned (readReg s rd) (readReg s rn) = true
  | .bgt rd rn _ => legal s [rd, rn] ∧ lessThan s.params.cmpSigned (readReg s rn) (readReg s rd) = true
  | .bro _ => s.ov = true
  | _ => False

/-- The bytes a form does not use under the reference layout, for the header's rd and rn and the pad byte of format X:
the table of 30_encoding R98. -/
def unusedBytes (opcode spec rd rn pad : Byte) : List Byte :=
  match opcode.toNat, spec.toNat with
  | 0x00, 0x00 | 0x0A, 0x00 | 0x0F, 0x00 => [rd, rn]
  | 0x09, 0x00 | 0x09, 0x03 | 0x09, 0x04 | 0x09, 0x05 | 0x09, 0x07 | 0x09, 0x08 | 0x09, 0x09 => [rn]
  | 0x09, 0x06 | 0x09, 0x0A => [rn, pad]
  | 0x09, 0x0E | 0x09, 0x12 => [pad]
  | op, 0x00 | op, 0x02 => if 0x01 ≤ op ∧ op ≤ 0x08 then [rn] else []
  | _, _ => []

/-- (opcode, specifier) names no instruction: 30_encoding R96 and R97. -/
abbrev undefinedPair (opcode spec : Byte) : Prop :=
  16 ≤ opcode.toNat ∨ (opcode.toNat = 0 ∧ spec.toNat ≠ 0) ∨
    (1 ≤ opcode.toNat ∧ opcode.toNat ≤ 8 ∧ 2 < spec.toNat) ∨ (opcode.toNat = 9 ∧ 0x12 < spec.toNat) ∨
    (10 ≤ opcode.toNat ∧ opcode.toNat ≤ 15 ∧ spec.toNat ≠ 0)

/-- `i` completes at `s`: the next state is `s` with the bytes stored at `ea` and the ones after it, `pc` moved on by
its length, and nothing else changed: every address outside the stored bytes reads as before. -/
def storesAt (i : Instr) (s : State) (ea : Addr) (bytes : List Byte) : Prop :=
  ∃ m, exec i s = .next { s with mem := m, pc := behind i s } ∧
    (∀ k, (h : k < bytes.length) → m.read (ea.toNat + k) = bytes[k]) ∧
    ∀ a, (a < ea.toNat ∨ ea.toNat + bytes.length ≤ a) → m.read a = s.mem.read a

/-- What two destinations hold after a 32-bit move: rd the upper and `second` the lower half, or, if they are one
register, what `OVERLAP_POLICY` gives (42_mov R202). -/
def pairRegs (s : State) (rd second : RegNum) (v : DWord) : Vector Word 256 :=
  if rd = second then
    s.regs.set rd.toNat
      (if s.params.overlap = .rdFirst then v.extractLsb' 0 16
        else Config.overlapValue (v.extractLsb' 16 16) (v.extractLsb' 0 16)) rd.isLt
  else (s.regs.set rd.toNat (v.extractLsb' 16 16) rd.isLt).set second.toNat (v.extractLsb' 0 16) second.isLt

/-- An instruction that uses rd and rn raises IllegalRegister for the first of them that is not there (10_state R22). -/
abbrev registerFaults (i : Instr) (s : State) (rd rn : RegNum) : Prop :=
  (s.params.nregs ≤ rd.toNat → exec i s = .next (faultedWith s (.illegalRegister .rd rd))) ∧
  (rd.toNat < s.params.nregs → s.params.nregs ≤ rn.toNat → exec i s = .next (faultedWith s (.illegalRegister .rn rn)))

/-- The fetch faults of a header, at a step that is not at `PROG_END`: a `pc` that is no multiple of `IALIGN`; one
that is and whose four bytes are not all in the text (20_memory R56, R58). -/
abbrev headerFetchFaults (s : State) : Prop :=
  ready s → s.pc.toNat ≠ s.launch.progEnd →
    (s.pc.toNat % s.params.ialign ≠ 0 → step s = .next (faultedWith s (.fetchMisaligned s.pc))) ∧
    (s.pc.toNat % s.params.ialign = 0 →
      (s.pc.toNat < s.launch.progBase.toNat ∨ s.launch.progEnd < s.pc.toNat + 4) →
      step s = .next (faultedWith s (.fetchFault s.pc 4)))

/-- The text at `pc` begins with a header whose opcode and specifier, at their places in the layout, are these, and
`rest` follows the header (30_encoding R82, R90). -/
def headerAt (s : State) (opcode spec : Byte) (header rest : List Byte) : Prop :=
  textAt s = header ++ rest ∧ header.length = 4 ∧ header.getD s.params.layout.opcode 0 = opcode ∧
    header.getD s.params.layout.spec 0 = spec

/-- The two bytes of a 16-bit value, the least significant first. -/
def wordLeastFirst (v : Word) : List Byte := [v.extractLsb' 0 8, v.extractLsb' 8 8]

/-- The four bytes of a 32-bit value, the least significant first. -/
def dwordLeastFirst (v : DWord) : List Byte :=
  [v.extractLsb' 0 8, v.extractLsb' 8 8, v.extractLsb' 16 8, v.extractLsb' 24 8]

/-- The bytes of a value, given with the least significant first, at rising addresses under a `BYTE_ORDER`
(20_memory R53). -/
def laid (order : ByteOrder) (leastFirst : List Byte) : List Byte :=
  match order with
  | .little => leastFirst
  | .big => leastFirst.reverse

/-- The significance of the byte at the `k`-th address of an `n`-byte value, 0 the least (20_memory R53). -/
def significance (order : ByteOrder) (n k : Nat) : Nat :=
  match order with
  | .little => k
  | .big => n - 1 - k

/-- The bytes of every form under the reference layout, for all operands: the table of 30_encoding R89 over the
formats of R87. -/
def rowOf (order : ByteOrder) (i : Instr) : List Byte :=
  match i with
  | .nop => [0x00, 0x00, 0x00, 0x00]
  | .addImm rd imm => [0x01, 0x00, rd, 0x00] ++ laid order (wordLeastFirst imm)
  | .addReg rd rn => [0x01, 0x01, rd, rn]
  | .addMem rd addr => [0x01, 0x02, rd, 0x00] ++ laid order (dwordLeastFirst addr)
  | .subImm rd imm => [0x02, 0x00, rd, 0x00] ++ laid order (wordLeastFirst imm)
  | .subReg rd rn => [0x02, 0x01, rd, rn]
  | .subMem rd addr => [0x02, 0x02, rd, 0x00] ++ laid order (dwordLeastFirst addr)
  | .mulImm rd imm => [0x03, 0x00, rd, 0x00] ++ laid order (wordLeastFirst imm)
  | .mulReg rd rn => [0x03, 0x01, rd, rn]
  | .mulMem rd addr => [0x03, 0x02, rd, 0x00] ++ laid order (dwordLeastFirst addr)
  | .andImm rd imm => [0x04, 0x00, rd, 0x00] ++ laid order (wordLeastFirst imm)
  | .andReg rd rn => [0x04, 0x01, rd, rn]
  | .andMem rd addr => [0x04, 0x02, rd, 0x00] ++ laid order (dwordLeastFirst addr)
  | .orImm rd imm => [0x05, 0x00, rd, 0x00] ++ laid order (wordLeastFirst imm)
  | .orReg rd rn => [0x05, 0x01, rd, rn]
  | .orMem rd addr => [0x05, 0x02, rd, 0x00] ++ laid order (dwordLeastFirst addr)
  | .xorImm rd imm => [0x06, 0x00, rd, 0x00] ++ laid order (wordLeastFirst imm)
  | .xorReg rd rn => [0x06, 0x01, rd, rn]
  | .xorMem rd addr => [0x06, 0x02, rd, 0x00] ++ laid order (dwordLeastFirst addr)
  | .lshImm rd imm => [0x07, 0x00, rd, 0x00] ++ laid order (wordLeastFirst imm)
  | .lshReg rd rn => [0x07, 0x01, rd, rn]
  | .lshMem rd addr => [0x07, 0x02, rd, 0x00] ++ laid order (dwordLeastFirst addr)
  | .rshImm rd imm => [0x08, 0x00, rd, 0x00] ++ laid order (wordLeastFirst imm)
  | .rshReg rd rn => [0x08, 0x01, rd, rn]
  | .rshMem rd addr => [0x08, 0x02, rd, 0x00] ++ laid order (dwordLeastFirst addr)
  | .movImm rd imm => [0x09, 0x00, rd, 0x00] ++ laid order (wordLeastFirst imm)
  | .movImm32 rd rn imm => [0x09, 0x01, rd, rn] ++ laid order (dwordLeastFirst imm)
  | .movReg rd rn => [0x09, 0x02, rd, rn]
  | .loadLowAbs rd addr => [0x09, 0x03, rd, 0x00] ++ laid order (dwordLeastFirst addr)
  | .loadHighAbs rd addr => [0x09, 0x04, rd, 0x00] ++ laid order (dwordLeastFirst addr)
  | .loadWordAbs rd addr => [0x09, 0x05, rd, 0x00] ++ laid order (dwordLeastFirst addr)
  | .loadPairAbs rd rn1 addr => [0x09, 0x06, rd, 0x00, rn1, 0x00] ++ laid order (dwordLeastFirst addr)
  | .storeLowAbs rd addr => [0x09, 0x07, rd, 0x00] ++ laid order (dwordLeastFirst addr)
  | .storeHighAbs rd addr => [0x09, 0x08, rd, 0x00] ++ laid order (dwordLeastFirst addr)
  | .storeWordAbs rd addr => [0x09, 0x09, rd, 0x00] ++ laid order (dwordLeastFirst addr)
  | .storePairAbs rd rn1 addr => [0x09, 0x0A, rd, 0x00, rn1, 0x00] ++ laid order (dwordLeastFirst addr)
  | .loadLowRel rd rn off => [0x09, 0x0B, rd, rn] ++ laid order (dwordLeastFirst off)
  | .loadHighRel rd rn off => [0x09, 0x0C, rd, rn] ++ laid order (dwordLeastFirst off)
  | .loadWordRel rd rn off => [0x09, 0x0D, rd, rn] ++ laid order (dwordLeastFirst off)
  | .loadPairRel rd rn rn1 off => [0x09, 0x0E, rd, rn, rn1, 0x00] ++ laid order (dwordLeastFirst off)
  | .storeLowRel rd rn off => [0x09, 0x0F, rd, rn] ++ laid order (dwordLeastFirst off)
  | .storeHighRel rd rn off => [0x09, 0x10, rd, rn] ++ laid order (dwordLeastFirst off)
  | .storeWordRel rd rn off => [0x09, 0x11, rd, rn] ++ laid order (dwordLeastFirst off)
  | .storePairRel rd rn rn1 off => [0x09, 0x12, rd, rn, rn1, 0x00] ++ laid order (dwordLeastFirst off)
  | .b label => [0x0A, 0x00, 0x00, 0x00] ++ laid order (dwordLeastFirst label)
  | .be rd rn label => [0x0B, 0x00, rd, rn] ++ laid order (dwordLeastFirst label)
  | .bne rd rn label => [0x0C, 0x00, rd, rn] ++ laid order (dwordLeastFirst label)
  | .blt rd rn label => [0x0D, 0x00, rd, rn] ++ laid order (dwordLeastFirst label)
  | .bgt rd rn label => [0x0E, 0x00, rd, rn] ++ laid order (dwordLeastFirst label)
  | .bro label => [0x0F, 0x00, 0x00, 0x00] ++ laid order (dwordLeastFirst label)

/-- The load of the high or the low half of a register, by its addressing mode. -/
def loadHalfAt (high : Bool) (am : AddressMode) (rd : RegNum) : Instr :=
  match am, high with
  | .absolute a, false => .loadLowAbs rd a
  | .absolute a, true => .loadHighAbs rd a
  | .relative rn o, false => .loadLowRel rd rn o
  | .relative rn o, true => .loadHighRel rd rn o

/-- The store of the high or the low half of a register, by its addressing mode. -/
def storeHalfAt (high : Bool) (am : AddressMode) (rd : RegNum) : Instr :=
  match am, high with
  | .absolute a, false => .storeLowAbs rd a
  | .absolute a, true => .storeHighAbs rd a
  | .relative rn o, false => .storeLowRel rd rn o
  | .relative rn o, true => .storeHighRel rd rn o

/-- The 16-bit load, by its addressing mode. -/
def loadWordAt (am : AddressMode) (rd : RegNum) : Instr :=
  match am with
  | .absolute a => .loadWordAbs rd a
  | .relative rn o => .loadWordRel rd rn o

/-- The 16-bit store, by its addressing mode. -/
def storeWordAt (am : AddressMode) (rd : RegNum) : Instr :=
  match am with
  | .absolute a => .storeWordAbs rd a
  | .relative rn o => .storeWordRel rd rn o

/-- The 32-bit load, by its addressing mode. -/
def loadPairAt (am : AddressMode) (rd rn1 : RegNum) : Instr :=
  match am with
  | .absolute a => .loadPairAbs rd rn1 a
  | .relative rn o => .loadPairRel rd rn rn1 o

/-- The 32-bit store, by its addressing mode. -/
def storePairAt (am : AddressMode) (rd rn1 : RegNum) : Instr :=
  match am with
  | .absolute a => .storePairAbs rd rn1 a
  | .relative rn o => .storePairRel rd rn rn1 o

/-- The high or the low half of a value (10_state R23). -/
def halfOf (high : Bool) (v : Word) : Byte := if high then v.extractLsb' 8 8 else v.extractLsb' 0 8

/-- The instructions `is`, one after another, lead from `s` to `t`, and none of them stores to one of the `n` bytes at
`a`. -/
def leadsBeside (is : List Instr) (a : Addr) (n : Nat) (s t : State) : Prop :=
  match is with
  | [] => t = s
  | i :: rest =>
    (stores i = true → ∀ ea k, dataAccess i s = some (ea, k) →
      ea.toNat + k ≤ a.toNat ∨ a.toNat + n ≤ ea.toNat) ∧
    ∃ u, exec i s = .next u ∧ leadsBeside rest a n u t

/-- `store` completes at `s`; and after it and any instructions that store to none of its `n` bytes at `ea`, `load`,
if its address is `ea` then, completes with `seen` true of the state it leaves. -/
def loadSeesStore (s : State) (store : Instr) (ea : Addr) (n : Nat) (am : AddressMode) (load : Instr)
    (seen : State → Prop) : Prop :=
  legal s store.usedRegs → accessible s ea n →
    ∃ t, exec store s = .next t ∧
      ∀ (is : List Instr) (u : State), leadsBeside is ea n t u → effectiveAddress am u = ea →
        legal u load.usedRegs → ∃ v, exec load u = .next v ∧ seen v

/-- The encoding and the length of be or bne, of the given opcode, and its faults: IllegalRegister, a specifier that is
not zero, the fetch faults of the header, and a label that is not all in the text (43_branch R223, R224). The bytes are
those of the reference layout. -/
def compareFormBytesAndFaults (opcode : Byte) (form : RegNum → RegNum → Addr → Instr) : Prop :=
  ∀ (rd rn : RegNum) (label : Addr) (s : State),
    registerFaults (form rd rn label) s rd rn ∧ headerFetchFaults s ∧
    (referenceEncoding s.params →
      encode s.params (form rd rn label) =
          [opcode, 0x00, rd, rn] ++ laid s.params.byteOrder (dwordLeastFirst label) ∧
        behind (form rd rn label) s = s.pc + 8 ∧
        ∀ (spec : Byte) (rest : List Byte), ready s → atText s → textAt s = opcode :: spec :: rd :: rn :: rest →
          (spec ≠ 0 → step s = .next (faultedWith s (.illegalInstruction s.pc opcode spec))) ∧
          (spec = 0 → rest.length < 4 → step s = .next (faultedWith s (.fetchFault (s.pc + 4) 4))))

end Sys2Proof.Claims

open Sys2Proof.Claims

/-! ### Encoding -/

/-- The bytes of every row of 30_encoding R89, for all operands and under either BYTE_ORDER, are what encode writes and
what decode reads under the reference layout, whatever follows them; and encodings of 95_test_vectors section 1 and of
the rules named there, written out byte by byte, decode to their instructions. -/
def Obligations.DecodeReadsWrittenWords : Prop :=
  (∀ (p : Params) (i : Instr), referenceEncoding p →
    encode p i = rowOf p.byteOrder i ∧ i.length p = (rowOf p.byteOrder i).length) ∧
  (∀ (p : Params) (i : Instr) (rest : List Byte), referenceEncoding p →
    decode p (rowOf p.byteOrder i ++ rest) = .ok i) ∧
  decode Config.reference [0x00, 0x00, 0x00, 0x00] = .ok .nop ∧
  decode Config.reference [0x01, 0x00, 0x01, 0x00, 0x05, 0x00] = .ok (.addImm 1 0x0005) ∧
  decode Config.reference [0x02, 0x01, 0x01, 0x02] = .ok (.subReg 1 2) ∧
  decode Config.reference [0x08, 0x02, 0x01, 0x00, 0x00, 0x20, 0x00, 0x00] = .ok (.rshMem 1 0x2000) ∧
  decode Config.reference [0x09, 0x00, 0x01, 0x00, 0x34, 0x12] = .ok (.movImm 1 0x1234) ∧
  decode Config.reference [0x09, 0x01, 0x01, 0x02, 0xEF, 0xBE, 0xAD, 0xDE] = .ok (.movImm32 1 2 0xDEADBEEF) ∧
  decode Config.reference [0x09, 0x0E, 0x01, 0x03, 0x02, 0x00, 0x30, 0x00, 0x00, 0x00] =
    .ok (.loadPairRel 1 3 2 0x30) ∧
  decode Config.reference [0x09, 0x0A, 0x01, 0x00, 0x02, 0x00, 0x00, 0x70, 0x00, 0x00] =
    .ok (.storePairAbs 1 2 0x7000) ∧
  decode Config.reference [0x0B, 0x00, 0x01, 0x02, 0x20, 0x10, 0x00, 0x00] = .ok (.be 1 2 0x1020) ∧
  decode Config.reference [0x0F, 0x00, 0x00, 0x00, 0x20, 0x10, 0x00, 0x00] = .ok (.bro 0x1020) ∧
  decode { Config.reference with byteOrder := .big } [0x09, 0x01, 0x01, 0x02, 0xDE, 0xAD, 0xBE, 0xEF] =
    .ok (.movImm32 1 2 0xDEADBEEF)

/-- Decoding the bytes of any instruction, with any bytes behind them, gives the instruction back, under every
well-formed layout, lengths, OFFLEN and either BYTE_ORDER; an Offset has to fit OFFLEN. What a well-formed layout
other than the reference is, and how it is read, is the model's choice (log 12), and so is an OFFLEN other than 32
(log 21). -/
def Obligations.DecodeInvertsEncode : Prop :=
  ∀ (p : Params) (i : Instr) (rest : List Byte), p.wf = true → i.fits p = true →
    decode p (encode p i ++ rest) = .ok i

/-- Bytes that decode to an instruction begin with exactly its encoding, under every well-formed layout: every byte
the decoder accepts means something, and unused fields are zero. An Offset that is decoded fits OFFLEN. What a
well-formed layout other than the reference is, and how it is read, is the model's choice (log 12), and so is an
OFFLEN other than 32 (log 21). -/
def Obligations.EncodeInvertsDecode : Prop :=
  ∀ (p : Params) (bytes : List Byte) (i : Instr), p.wf = true → decode p bytes = .ok i →
    bytes.take (i.length p) = encode p i ∧ i.fits p = true

/-- An undefined (opcode, specifier), wherever the layout has the two bytes, raises IllegalInstruction(pc, opcode,
spec) and changes nothing else, however many bytes follow the header (30_encoding R96, R97). Where the two bytes lie
in a layout other than the reference is the model's choice (log 12). -/
def Obligations.UndefinedFormFaults : Prop :=
  ∀ (s : State) (opcode spec : Byte) (header rest : List Byte), ready s → atText s →
    headerAt s opcode spec header rest → undefinedPair opcode spec →
    step s = .next (faultedWith s (.illegalInstruction s.pc opcode spec))

/-- The encoding of an instruction has zero in every unused field; a complete instruction with a non-zero unused field
raises IllegalInstruction(pc, opcode, spec), before any register is checked. The first two clauses are for the unused
fields of 30_encoding R98's table under the reference layout (the spec's decision D7). The third, for every byte of
the form that is in none of its fields under any well-formed layout, is the model's choice for layouts other than the
reference (log 12). -/
def Obligations.UnusedFieldNotZeroFaults : Prop :=
  (∀ (p : Params) (i : Instr) (opcode spec rd rn : Byte) (rest : List Byte), referenceEncoding p →
    encode p i = opcode :: spec :: rd :: rn :: rest →
    ∀ b ∈ unusedBytes opcode spec rd rn (rest.getD 1 0), b = 0) ∧
  (∀ (s : State) (opcode spec rd rn : Byte) (rest : List Byte) (f : Form), referenceEncoding s.params →
    ready s → atText s → textAt s = opcode :: spec :: rd :: rn :: rest → formOf opcode spec = some f →
    s.params.len f ≤ rest.length + 4 → (∃ b ∈ unusedBytes opcode spec rd rn (rest.getD 1 0), b ≠ 0) →
    step s = .next (faultedWith s (.illegalInstruction s.pc opcode spec))) ∧
  ∀ (s : State) (opcode spec : Byte) (header rest : List Byte) (f : Form), ready s → atText s →
    headerAt s opcode spec header rest → formOf opcode spec = some f → s.params.len f ≤ rest.length + 4 →
    (∃ k < s.params.len f, s.params.inField f k = false ∧ (textAt s).getD k 0 ≠ 0) →
    step s = .next (faultedWith s (.illegalInstruction s.pc opcode spec))

/-! ### The step -/

/-- A step runs the decoded instruction: where the text at `pc` decodes to `i`, the step is exec of `i` at the same
state. -/
def Obligations.StepExecutesDecodedInstruction : Prop :=
  ∀ (s : State) (i : Instr), ready s → atText s → decode s.params (textAt s) = .ok i →
    step s = exec i s

/-- A word of the opcode table that decodes to `i` under the state's parameters, launched by `withFetchWord` at an
aligned `pc`, runs as the very next instruction (the model's own launch, log 5); `decodeTableWord` is that decoding at
the reference parameters. -/
def Obligations.LaunchedWordRunsFirst : Prop :=
  (∀ (s : State) (nbits w : Nat) (i : Instr), s.pc.toNat % s.params.ialign = 0 →
    s.pc.toNat + s.params.longest < 2 ^ 32 → s.params.wf = true →
    decode s.params (tableBytes s.params.longest nbits w) = .ok i →
    step (s.withFetchWord nbits w) = exec i (s.withFetchWord nbits w)) ∧
  ∀ (nbits w : Nat) (i : Instr), decodeTableWord nbits w = some i ↔
    decode Config.reference (tableBytes Config.reference.longest nbits w) = .ok i

/-- At `PROG_END` the run ends: status becomes Ended and nothing else changes; Ended is the only final state
(70_reset_and_hazards R284). -/
def Obligations.StepEndsAtProgEnd : Prop :=
  ∀ s : State, (ready s → s.pc.toNat = s.launch.progEnd → step s = .next { s with status := .ended }) ∧
    (s.final = true ↔ s.status = .ended)

/-- A machine that is Faulted or Ended takes no step. That the answer is then the fault, or the refusal `ended`, is the
model's choice (logs 14 and 15). -/
def Obligations.TerminatedMachineTakesNoStep : Prop :=
  ∀ s : State, (∀ f, s.status = .faulted f → step s = .fault f) ∧ (s.status = .ended → step s = .refused .ended)

/-- `Fetch(addr, n)` (20_memory R56): an address that is no multiple of IALIGN, then the bounds of the text on exact
integers, then the bytes. An IALIGN other than 2 is the model's choice (log 19). -/
def Obligations.FetchRule : Prop :=
  ∀ (ialign : Nat) (l : Launch) (a : Addr) (n : Nat),
    (a.toNat % ialign ≠ 0 → fetch ialign l a n = .error (.fetchMisaligned a)) ∧
    (a.toNat % ialign = 0 → (a.toNat < l.progBase.toNat ∨ a.toNat + n > l.progEnd) →
      fetch ialign l a n = .error (.fetchFault a n)) ∧
    (a.toNat % ialign = 0 → l.progBase.toNat ≤ a.toNat → a.toNat + n ≤ l.progEnd →
      ∃ bytes, fetch ialign l a n = .ok bytes ∧ bytes.length = n ∧
        ∀ k < n, bytes[k]? = l.prog[a.toNat - l.progBase.toNat + k]?)

/-- The faults of fetching at a step that is not at `PROG_END`: a `pc` that is no multiple of IALIGN; a header not all
in the text; a rest not all in the text (20_memory R56, R58; 30_encoding R90). An IALIGN other than 2 and a layout
other than the reference are the model's choice (logs 19 and 12). -/
def Obligations.FetchFaultsOfStep : Prop :=
  ∀ s : State, headerFetchFaults s ∧
    ∀ (opcode spec : Byte) (header rest : List Byte) (f : Form), ready s → atText s →
      headerAt s opcode spec header rest → formOf opcode spec = some f → rest.length + 4 < s.params.len f →
      step s = .next (faultedWith s (.fetchFault (s.pc + 4) (s.params.len f - 4)))

/-- What a step can do to the status, and that a fault writes nothing else: a next state that is not running is the
state before with its status changed, `pc` and all, and takes no further step, the answer then being the fault, or the
refusal `ended` (the model's choice, logs 14 and 15); it is Ended only at `PROG_END` (60_exceptions R250, R257). -/
def Obligations.StepFaultsChangeOnlyStatus : Prop :=
  ∀ s t : State, step s = .next t →
    s.status = .running ∧
    (t.status ≠ .running → t = { s with status := t.status }) ∧
    (t.status = .ended → s.pc.toNat = s.launch.progEnd ∧ step t = .refused .ended ∧ t.final = true) ∧
    (∀ f, t.status = .faulted f → step t = .fault f ∧ t.final = false)

/-- No run from a Faulted state ends successfully, and an Ended state is the end of one (10_state R32). -/
def Obligations.FaultedRunNeverEnds : Prop :=
  ∀ s : State, (s.notFaulted = false → ¬ endsSuccessfully s) ∧ (s.final = true → endsSuccessfully s)

/-- No step writes the program text, `DATA_MAP` or a parameter (20_memory R56, R67; 10_state section 1). -/
def Obligations.StepKeepsLaunchAndParams : Prop :=
  ∀ s t : State, step s = .next t → t.launch = s.launch ∧ t.params = s.params

/-! ### Faults of an instruction -/

/-- The first used register field, in the order rd, rn, rn1, that is NREGS or more raises IllegalRegister(field name,
value) and changes nothing else; with all used fields below NREGS no instruction raises it (10_state R22). -/
def Obligations.IllegalRegisterFaults : Prop :=
  ∀ (i : Instr) (s : State),
    (∀ (before after : List (RegField × RegNum)) (field : RegField) (r : RegNum),
      usedFields i = before ++ (field, r) :: after → (∀ x ∈ before, x.2.toNat < s.params.nregs) →
      s.params.nregs ≤ r.toNat → exec i s = .next (faultedWith s (.illegalRegister field r))) ∧
    ((∀ x ∈ usedFields i, x.2.toNat < s.params.nregs) → s.status = .running →
      ∀ t field r, exec i s = .next t → t.status ≠ .faulted (.illegalRegister field r))

/-- The faults of a data access, in their order, for every form that makes one: misaligned, under the policy fault;
else a byte in the text; else no byte in the text and one outside DATA_MAP. Nothing but the status changes (20_memory
R54, R57, R59, R62). That a misaligned access under the policy perform is checked for the text and for DATA_MAP like
an aligned one, and is an AccessFault past 0xFFFFFFFF, is the model's choice (log 19). -/
def Obligations.DataAccessFaults : Prop :=
  ∀ (i : Instr) (s : State) (ea : Addr) (n : Nat), legal s i.usedRegs → dataAccess i s = some (ea, n) →
    (s.params.misaligned = .fault → ea.toNat % n ≠ 0 →
      exec i s = .next (faultedWith s (.misalignedAccess ea n))) ∧
    (aligned s ea n → (∃ k < n, inText s.launch (ea.toNat + k) = true) →
      exec i s = .next (faultedWith s (.textAccess ea n))) ∧
    (aligned s ea n → (∀ k < n, inText s.launch (ea.toNat + k) = false) →
      (∃ k < n, inDataMap s.launch (ea.toNat + k) = false) →
      exec i s = .next (faultedWith s (.accessFault ea n)))

/-- Every one of the 50 forms completes, its status as before, when its registers exist and its data access, if it
makes one, is in DATA_MAP and aligned where the policy asks for it. No instruction faults on the values it computes
(60_exceptions R251). That a misaligned access under the policy perform proceeds, on the bytes from its address on, is
the model's choice (log 19). -/
def Obligations.EveryInstructionCompletes : Prop :=
  ∀ (i : Instr) (s : State), legal s i.usedRegs →
    (∀ ea n, dataAccess i s = some (ea, n) → accessible s ea n) →
    ∃ t, exec i s = .next t ∧ t.status = s.status

/-! ### nop and arithmetic -/

/-- nop changes only pc, by its length; under the reference layout it is the bytes 00 00 00 00 and the length 4 (40_nop
R120). -/
def Obligations.NopAdvancesOnly : Prop :=
  ∀ s : State, exec .nop s = .next { s with pc := behind .nop s } ∧
    (referenceEncoding s.params → encode s.params .nop = [0x00, 0x00, 0x00, 0x00] ∧ behind .nop s = s.pc + 4)

/-- The eight immediate forms (addImm, subImm, mulImm, andImm, orImm, xorImm, lshImm, rshImm): x[rd] becomes
op(x[rd], imm16), OV becomes OvfUpdate(op, x[rd], imm16, OV), pc moves on by the length, nothing else changes (41_alu
R132). -/
def Obligations.AluImmediateForms : Prop :=
  ∀ (op : AluOp) (rd : RegNum) (imm : Word) (s : State), legal s [rd] →
    exec (aluImm op rd imm) s = .next { s with
      regs := s.regs.set rd.toNat (aluResult s.params.shiftRule op (readReg s rd) imm) rd.isLt
      ov := ovfUpdate s.params.ovfUpdate op (readReg s rd) imm s.ov
      pc := behind (aluImm op rd imm) s }

/-- The eight register forms (addReg, subReg, mulReg, andReg, orReg, xorReg, lshReg, rshReg): both operands are read
before x[rd] is written, so rd = rn takes the old value twice; pc moves on by the length, nothing else changes (41_alu
R132). -/
def Obligations.AluRegisterForms : Prop :=
  ∀ (op : AluOp) (rd rn : RegNum) (s : State), legal s [rd, rn] →
    exec (aluReg op rd rn) s = .next { s with
      regs := s.regs.set rd.toNat (aluResult s.params.shiftRule op (readReg s rd) (readReg s rn)) rd.isLt
      ov := ovfUpdate s.params.ovfUpdate op (readReg s rd) (readReg s rn) s.ov
      pc := behind (aluReg op rd rn) s }

/-- The eight memory forms (addMem, subMem, mulMem, andMem, orMem, xorMem, lshMem, rshMem): the second operand is the
16-bit value at the address, in BYTE_ORDER; pc moves on by the length, memory and everything else is unchanged (41_alu
R132). That a misaligned access under the policy perform proceeds, on the bytes from its address on, is the model's
choice (log 19). -/
def Obligations.AluMemoryForms : Prop :=
  ∀ (op : AluOp) (rd : RegNum) (addr : Addr) (b : Word) (s : State), legal s [rd] → accessible s addr 2 →
    b = wordOf s.params.byteOrder (s.mem.read addr.toNat) (s.mem.read (addr.toNat + 1)) →
    exec (aluMem op rd addr) s = .next { s with
      regs := s.regs.set rd.toNat (aluResult s.params.shiftRule op (readReg s rd) b) rd.isLt
      ov := ovfUpdate s.params.ovfUpdate op (readReg s rd) b s.ov
      pc := behind (aluMem op rd addr) s }

/-- The table of op(a, b) (41_alu R133), on integers and bit by bit, under the reference ShiftRule; in every form a is
x[rd] and b the second operand: imm16, x[rn], or the value MemRead answers (R131). The wrapping of add and sub and the
shifts by 16 or more are the spec's decisions D14 and D16 (logs 24 and 8). -/
def Obligations.AluOperationTable : Prop :=
  (∀ (op : AluOp) (rd : RegNum) (imm : Word) (s : State), legal s [rd] → s.params.shiftRule = .reference →
    ∃ t, exec (aluImm op rd imm) s = .next t ∧ readReg t rd = aluResult .reference op (readReg s rd) imm) ∧
  (∀ (op : AluOp) (rd rn : RegNum) (s : State), legal s [rd, rn] → s.params.shiftRule = .reference →
    ∃ t, exec (aluReg op rd rn) s = .next t ∧
      readReg t rd = aluResult .reference op (readReg s rd) (readReg s rn)) ∧
  (∀ (op : AluOp) (rd : RegNum) (addr : Addr) (b : Word) (s : State), legal s [rd] →
    memReadWord s addr = .ok b → s.params.shiftRule = .reference →
    ∃ t, exec (aluMem op rd addr) s = .next t ∧ readReg t rd = aluResult .reference op (readReg s rd) b) ∧
  ∀ a b : Word,
    (aluResult .reference .add a b).toNat = (a.toNat + b.toNat) % 65536 ∧
    (aluResult .reference .sub a b).toNat = (a.toNat + 65536 - b.toNat) % 65536 ∧
    (aluResult .reference .mul a b).toNat = (a.toNat * b.toNat) % 65536 ∧
    (∀ i < 16, (aluResult .reference .and a b).getLsbD i = (a.getLsbD i && b.getLsbD i)) ∧
    (∀ i < 16, (aluResult .reference .or a b).getLsbD i = (a.getLsbD i || b.getLsbD i)) ∧
    (∀ i < 16, (aluResult .reference .xor a b).getLsbD i = (a.getLsbD i != b.getLsbD i)) ∧
    (aluResult .reference .lsh a b).toNat = (if b.toNat ≤ 15 then (a.toNat * 2 ^ b.toNat) % 65536 else 0) ∧
    (aluResult .reference .rsh a b).toNat = (if b.toNat ≤ 15 then a.toNat / 2 ^ b.toNat else 0)

/-- REF-OVF (41_alu R134): the exact unsigned result of add, sub, mul is out of range; and, or, xor, lsh, rsh leave the
flag as it was. -/
def Obligations.RefOvfTable : Prop :=
  ∀ (a b : Word) (ov : Bool),
    (ovfUpdate .refOvf .add a b ov = true ↔ a.toNat + b.toNat > 65535) ∧
    (ovfUpdate .refOvf .sub a b ov = true ↔ a.toNat < b.toNat) ∧
    (ovfUpdate .refOvf .mul a b ov = true ↔ a.toNat * b.toNat > 65535) ∧
    ∀ op, op = .and ∨ op = .or ∨ op = .xor ∨ op = .lsh ∨ op = .rsh → ovfUpdate .refOvf op a b ov = ov

/-- REF-OVF and the result agree: OV is 1 after an add exactly when the 16-bit result lost something, that is when it
is below an operand; after a sub exactly when it is above the minuend; after a mul exactly when the result is not the
exact product (41_alu R138, R142, R146). -/
def Obligations.OverflowMeansResultDiffers : Prop :=
  ∀ (a b : Word) (ov : Bool),
    (ovfUpdate .refOvf .add a b ov = true ↔ (aluResult .reference .add a b).toNat < a.toNat) ∧
    (ovfUpdate .refOvf .sub a b ov = true ↔ a.toNat < (aluResult .reference .sub a b).toNat) ∧
    (ovfUpdate .refOvf .mul a b ov = true ↔ (aluResult .reference .mul a b).toNat ≠ a.toNat * b.toNat)

/-- Lsh and Rsh (41_alu R162, R166). Under the reference ShiftRule, for every amount: that an amount of 16 or more
gives 0 and that zeros enter at bit 15 are the spec's decision D16 (log 8). And what holds of them under any
ShiftRule, the uninterpreted setting being the model's choice (log 8): lsh by at most 15, and rsh by at most 15 of a
value whose bit 15 is clear. -/
def Obligations.ShiftLaws : Prop :=
  ∀ (rule : ShiftRule) (a n : Word),
    (n.toNat ≤ 15 → (aluResult rule .lsh a n).toNat = (a.toNat * 2 ^ n.toNat) % 65536) ∧
    (16 ≤ n.toNat → rule = .reference → aluResult rule .lsh a n = 0) ∧
    (n.toNat ≤ 15 → (rule = .reference ∨ a.toNat < 32768) → (aluResult rule .rsh a n).toNat = a.toNat / 2 ^ n.toNat) ∧
    (16 ≤ n.toNat → rule = .reference → aluResult rule .rsh a n = 0)

/-! ### mov -/

/-- mov 0x00 (42_mov R183): the encoding under the reference layout, and all 16 bits of rd written. -/
def Obligations.MovImmediateForm : Prop :=
  ∀ (rd : RegNum) (imm : Word) (s : State),
    (referenceEncoding s.params →
      encode s.params (.movImm rd imm) = [0x09, 0x00, rd, 0x00] ++ laid s.params.byteOrder (wordLeastFirst imm) ∧
        behind (.movImm rd imm) s = s.pc + 6) ∧
    (legal s [rd] → exec (.movImm rd imm) s =
      .next { s with regs := s.regs.set rd.toNat imm rd.isLt, pc := behind (.movImm rd imm) s })

/-- mov 0x01 (42_mov R184): rd gets the upper and rn the lower half. rd = rn holds the lower half when OVERLAP_POLICY is
rd first (R202, D22); that it holds a free value when the policy is left uninterpreted is the model's choice
(log 10). -/
def Obligations.MovImmediatePairForm : Prop :=
  ∀ (rd rn : RegNum) (imm : DWord) (s : State), legal s [rd, rn] →
    exec (.movImm32 rd rn imm) s =
      .next { s with regs := pairRegs s rd rn imm, pc := behind (.movImm32 rd rn imm) s }

/-- mov 0x02 (42_mov R185): x[rd] is copied INTO x[rn], all 16 bits, and nothing else but pc changes; with rd = rn
only pc changes; rd or rn not there raises IllegalRegister; the fetch faults of its header; its encoding and length
under the reference layout. -/
def Obligations.MovRegisterReversed : Prop :=
  ∀ (rd rn : RegNum) (s : State),
    (referenceEncoding s.params →
      encode s.params (.movReg rd rn) = [0x09, 0x02, rd, rn] ∧ behind (.movReg rd rn) s = s.pc + 4) ∧
    (legal s [rd, rn] →
      exec (.movReg rd rn) s =
        .next { s with regs := s.regs.set rn.toNat (readReg s rd) rn.isLt, pc := behind (.movReg rd rn) s } ∧
      (rd = rn → exec (.movReg rd rn) s = .next { s with pc := behind (.movReg rd rn) s })) ∧
    registerFaults (.movReg rd rn) s rd rn ∧ headerFetchFaults s

/-- The four loads from an absolute address (42_mov R186 to R189): a byte into one half with the other kept, 16 bits,
32 bits into a pair, in BYTE_ORDER. A pair of one register holds the lower half when OVERLAP_POLICY is rd first (R202,
D22); that it holds a free value when the policy is left uninterpreted is the model's choice (log 10). That a
misaligned access under the policy perform proceeds, on the bytes from its address on, is the model's choice
(log 19). -/
def Obligations.LoadAbsoluteForms : Prop :=
  ∀ (rd rn1 : RegNum) (addr : Addr) (s : State),
    (legal s [rd] → accessible s addr 1 →
      exec (.loadLowAbs rd addr) s = .next { s with
        regs := s.regs.set rd.toNat (joinBytes (highByte (readReg s rd)) (s.mem.read addr.toNat)) rd.isLt
        pc := behind (.loadLowAbs rd addr) s } ∧
      exec (.loadHighAbs rd addr) s = .next { s with
        regs := s.regs.set rd.toNat (joinBytes (s.mem.read addr.toNat) (lowByte (readReg s rd))) rd.isLt
        pc := behind (.loadHighAbs rd addr) s }) ∧
    (legal s [rd] → accessible s addr 2 →
      exec (.loadWordAbs rd addr) s = .next { s with
        regs := s.regs.set rd.toNat
          (wordOf s.params.byteOrder (s.mem.read addr.toNat) (s.mem.read (addr.toNat + 1))) rd.isLt
        pc := behind (.loadWordAbs rd addr) s }) ∧
    (legal s [rd, rn1] → accessible s addr 4 →
      exec (.loadPairAbs rd rn1 addr) s = .next { s with
        regs := pairRegs s rd rn1 (dwordOf s.params.byteOrder (s.mem.read addr.toNat)
          (s.mem.read (addr.toNat + 1)) (s.mem.read (addr.toNat + 2)) (s.mem.read (addr.toNat + 3)))
        pc := behind (.loadPairAbs rd rn1 addr) s })

/-- The four loads from a register-relative address (42_mov R194 to R197). The base register is read before any
register is written, so it may be a destination (R202). A pair of one register holds the lower half when
OVERLAP_POLICY is rd first (R202, D22); that it holds a free value when the policy is left uninterpreted is the
model's choice (log 10). That a misaligned access under the policy perform proceeds, on the bytes from its address on,
is the model's choice (log 19). -/
def Obligations.LoadRelativeForms : Prop :=
  ∀ (rd rn rn1 : RegNum) (off : DWord) (s : State) (ea : Addr), ea = effectiveAddress (.relative rn off) s →
    (legal s [rd, rn] → accessible s ea 1 →
      exec (.loadLowRel rd rn off) s = .next { s with
        regs := s.regs.set rd.toNat (joinBytes (highByte (readReg s rd)) (s.mem.read ea.toNat)) rd.isLt
        pc := behind (.loadLowRel rd rn off) s } ∧
      exec (.loadHighRel rd rn off) s = .next { s with
        regs := s.regs.set rd.toNat (joinBytes (s.mem.read ea.toNat) (lowByte (readReg s rd))) rd.isLt
        pc := behind (.loadHighRel rd rn off) s }) ∧
    (legal s [rd, rn] → accessible s ea 2 →
      exec (.loadWordRel rd rn off) s = .next { s with
        regs := s.regs.set rd.toNat
          (wordOf s.params.byteOrder (s.mem.read ea.toNat) (s.mem.read (ea.toNat + 1))) rd.isLt
        pc := behind (.loadWordRel rd rn off) s }) ∧
    (legal s [rd, rn, rn1] → accessible s ea 4 →
      exec (.loadPairRel rd rn rn1 off) s = .next { s with
        regs := pairRegs s rd rn1 (dwordOf s.params.byteOrder (s.mem.read ea.toNat)
          (s.mem.read (ea.toNat + 1)) (s.mem.read (ea.toNat + 2)) (s.mem.read (ea.toNat + 3)))
        pc := behind (.loadPairRel rd rn rn1 off) s })

/-- The four stores to an absolute address (42_mov R190 to R193): the bytes stored, in BYTE_ORDER, and everything else
unchanged. That a misaligned access under the policy perform proceeds, on the bytes from its address on, is the
model's choice (log 19). -/
def Obligations.StoreAbsoluteForms : Prop :=
  ∀ (rd rn1 : RegNum) (addr : Addr) (s : State),
    (legal s [rd] → accessible s addr 1 →
      storesAt (.storeLowAbs rd addr) s addr [(readReg s rd).extractLsb' 0 8] ∧
      storesAt (.storeHighAbs rd addr) s addr [(readReg s rd).extractLsb' 8 8]) ∧
    (legal s [rd] → accessible s addr 2 →
      storesAt (.storeWordAbs rd addr) s addr
        (laid s.params.byteOrder (wordLeastFirst (readReg s rd)))) ∧
    (legal s [rd, rn1] → accessible s addr 4 →
      storesAt (.storePairAbs rd rn1 addr) s addr
        (laid s.params.byteOrder (wordLeastFirst (readReg s rn1) ++ wordLeastFirst (readReg s rd))))

/-- The four stores to a register-relative address (42_mov R198 to R201): the bytes stored, in BYTE_ORDER, and
everything else unchanged. That a misaligned access under the policy perform proceeds, on the bytes from its address
on, is the model's choice (log 19). -/
def Obligations.StoreRelativeForms : Prop :=
  ∀ (rd rn rn1 : RegNum) (off : DWord) (s : State) (ea : Addr), ea = effectiveAddress (.relative rn off) s →
    (legal s [rd, rn] → accessible s ea 1 →
      storesAt (.storeLowRel rd rn off) s ea [(readReg s rd).extractLsb' 0 8] ∧
      storesAt (.storeHighRel rd rn off) s ea [(readReg s rd).extractLsb' 8 8]) ∧
    (legal s [rd, rn] → accessible s ea 2 →
      storesAt (.storeWordRel rd rn off) s ea
        (laid s.params.byteOrder (wordLeastFirst (readReg s rd)))) ∧
    (legal s [rd, rn, rn1] → accessible s ea 4 →
      storesAt (.storePairRel rd rn rn1 off) s ea
        (laid s.params.byteOrder (wordLeastFirst (readReg s rn1) ++ wordLeastFirst (readReg s rd))))

/-- The effective address of the register-relative forms is the zero-extended register plus the Offset, of OFFLEN
bits, modulo 2^32; that of the absolute forms is the address field (42_mov R182; OFFLEN 32 is the spec's decision D21).
The first clause at an OFFLEN other than 32, that a shorter Offset is zero-extended, is the model's choice (log 21). -/
def Obligations.EffectiveAddressRule : Prop :=
  ∀ (rn : RegNum) (off : DWord) (s : State),
    (effectiveAddress (.relative rn off) s).toNat =
      ((readReg s rn).toNat + off.toNat % 2 ^ s.params.offLen) % 2 ^ 32 ∧
    (s.params.offLen = 32 → effectiveAddress (.relative rn off) s = (readReg s rn).zeroExtend 32 + off) ∧
    effectiveAddress (.absolute off) s = off

/-- No form of mov reads or writes OV; none writes pc other than by its length; one that faults writes nothing but the
status (42_mov R203). -/
def Obligations.MovIgnoresOverflowFlag : Prop :=
  ∀ (i : Instr) (s t : State) (b : Bool), isMov i = true → exec i s = .next t →
    t.ov = s.ov ∧ exec i { s with ov := b } = .next { t with ov := b } ∧
    ((∃ f, t = faultedWith s f) ∨ (t.status = s.status ∧ t.pc = behind i s))

/-! ### Branches -/

/-- b (43_branch R222) always goes to its label, and nothing but pc changes. Its fetch faults of the header; and under
the reference layout its encoding, and its other faults: another specifier, rd or rn not zero, the fetch fault of the
rest. -/
def Obligations.UnconditionalBranch : Prop :=
  ∀ (label : Addr) (s : State),
    exec (.b label) s = .next { s with pc := label } ∧ headerFetchFaults s ∧
    (referenceEncoding s.params →
      encode s.params (.b label) = [0x0A, 0x00, 0x00, 0x00] ++ laid s.params.byteOrder (dwordLeastFirst label) ∧
      ∀ (spec rd rn : Byte) (rest : List Byte), ready s → atText s → textAt s = 0x0A :: spec :: rd :: rn :: rest →
        (spec ≠ 0 → step s = .next (faultedWith s (.illegalInstruction s.pc 0x0A spec))) ∧
        (spec = 0 → rest.length < 4 → step s = .next (faultedWith s (.fetchFault (s.pc + 4) 4))) ∧
        (spec = 0 → 4 ≤ rest.length → (rd ≠ 0 ∨ rn ≠ 0) →
          step s = .next (faultedWith s (.illegalInstruction s.pc 0x0A spec))))

/-- bro goes to its label exactly when OV is 1; it does not clear OV (the spec's decision D15), and nothing but pc
changes (43_branch R227). -/
def Obligations.OverflowBranch : Prop :=
  ∀ (label : Addr) (s : State),
    exec (.bro label) s = .next { s with pc := if s.ov = true then label else behind (.bro label) s }

/-- be (43_branch R223) branches exactly when all 16 bits of x[rd] and x[rn] agree, bne (R224) exactly when they do not;
only pc changes. The faults: IllegalRegister, the fetch faults of the header; and under the reference layout the
encodings and lengths, another specifier, the fetch fault of the rest. -/
def Obligations.EqualityBranches : Prop :=
  (∀ (rd rn : RegNum) (label : Addr) (s : State), legal s [rd, rn] →
    exec (.be rd rn label) s =
      .next { s with pc := if readReg s rd = readReg s rn then label else behind (.be rd rn label) s } ∧
    exec (.bne rd rn label) s =
      .next { s with pc := if readReg s rd ≠ readReg s rn then label else behind (.bne rd rn label) s }) ∧
  compareFormBytesAndFaults 0x0B .be ∧ compareFormBytesAndFaults 0x0C .bne

/-- blt and bgt compare x[rd] on the left with x[rn], as unsigned integers, or as two's-complement integers when
CMP_SIGNED is true; only pc changes (43_branch R221, R225, R226; the spec's decision D17, log 9). -/
def Obligations.OrderBranches : Prop :=
  ∀ (rd rn : RegNum) (label : Addr) (s : State), legal s [rd, rn] →
    (s.params.cmpSigned = false →
      exec (.blt rd rn label) s =
        .next { s with
          pc := if (readReg s rd).toNat < (readReg s rn).toNat then label else behind (.blt rd rn label) s } ∧
      exec (.bgt rd rn label) s =
        .next { s with
          pc := if (readReg s rd).toNat > (readReg s rn).toNat then label else behind (.bgt rd rn label) s }) ∧
    (s.params.cmpSigned = true →
      exec (.blt rd rn label) s =
        .next { s with
          pc := if (readReg s rd).toInt < (readReg s rn).toInt then label else behind (.blt rd rn label) s } ∧
      exec (.bgt rd rn label) s =
        .next { s with
          pc := if (readReg s rd).toInt > (readReg s rn).toInt then label else behind (.bgt rd rn label) s })

/-- "the two readings differ exactly when bit 15 of the two values differs" (43_branch R221). -/
def Obligations.SignedReadingDiffersAtBit15 : Prop :=
  ∀ a b : Word, lessThan true a b ≠ lessThan false a b ↔ a.getLsbD 15 ≠ b.getLsbD 15

/-- For any two values exactly one of be, blt, bgt is taken, under either reading (43_branch R226). -/
def Obligations.ExactlyOneCompareBranchTaken : Prop :=
  ∀ (rd rn : RegNum) (label : Addr) (s : State), legal s [rd, rn] → label ≠ behind (.be rd rn label) s →
    label ≠ behind (.blt rd rn label) s → label ≠ behind (.bgt rd rn label) s →
    ∃ e l g : State, exec (.be rd rn label) s = .next e ∧ exec (.blt rd rn label) s = .next l ∧
      exec (.bgt rd rn label) s = .next g ∧
      ((e.pc = label ∧ l.pc ≠ label ∧ g.pc ≠ label) ∨ (e.pc ≠ label ∧ l.pc = label ∧ g.pc ≠ label) ∨
        (e.pc ≠ label ∧ l.pc ≠ label ∧ g.pc = label))

/-- A branch to its own address whose condition holds is an infinite execution: after any number of steps the machine
is where it was, and it never becomes Ended (43_branch R230). -/
def Obligations.SelfBranchNeverEnds : Prop :=
  ∀ (s : State) (i : Instr) (rest : List Byte), ready s → atText s → textAt s = encode s.params i ++ rest →
    targetOf i = some s.pc → branchTaken i s →
    (∀ n, stateAfter n s = some s) ∧ ¬ endsSuccessfully s

/-! ### What no instruction changes -/

/-- Only the stores of mov change memory, and only the bytes of their access (20_memory R59, R66). -/
def Obligations.OnlyStoresChangeMemory : Prop :=
  ∀ (i : Instr) (s t : State), exec i s = .next t →
    (stores i = false → t.mem = s.mem) ∧
    (stores i = true → ∀ ea n, dataAccess i s = some (ea, n) →
      ∀ a, (a < ea.toNat ∨ ea.toNat + n ≤ a) → t.mem.read a = s.mem.read a)

/-- A register that is no destination of a form is unchanged by it (10_state R25). -/
def Obligations.OnlyDestinationsChange : Prop :=
  ∀ (i : Instr) (s t : State) (r : RegNum), exec i s = .next t → r ∉ destinations i → readReg t r = readReg s r

/-- A register that a form does not use neither changes nor matters: writing it before or after the instruction is the
same (10_state R22, R25). -/
def Obligations.UnusedRegistersDoNotMatter : Prop :=
  ∀ (i : Instr) (s t : State) (r : RegNum) (v : Word), r ∉ i.usedRegs → exec i s = .next t →
    exec i (writeReg s r v) = .next (writeReg t r v)

/-- OV is written by add, sub and mul only, under REF-OVF, and read by bro only: any other instruction does the same
to everything else whatever OV is (10_state R28). -/
def Obligations.OverflowFlagWrittenAndReadBy : Prop :=
  ∀ (i : Instr) (s t : State), exec i s = .next t →
    (s.params.ovfUpdate = .refOvf → isAddSubMul i = false → t.ov = s.ov) ∧
    ((∀ label, i ≠ .bro label) → ∀ b, ∃ c, exec i { s with ov := b } = .next { t with ov := c })

/-- An instruction that completes moves pc on by its length, but that a branch may go to its target (10_state R27). -/
def Obligations.OnlyBranchesRedirectPc : Prop :=
  ∀ (i : Instr) (s t : State), exec i s = .next t → s.status = .running → t.status = .running →
    t.pc = behind i s ∨ targetOf i = some t.pc

/-- In a run that does not fault pc + len never wraps: an instruction that is no branch, or a branch whose condition
is false, leaves pc inside the text or at PROG_END, and a multiple of IALIGN (10_state R27, 20_memory R58). An IALIGN
other than 2 is the model's choice (log 19). -/
def Obligations.SequentialPcDoesNotWrap : Prop :=
  ∀ (s t : State) (i : Instr), ready s → atText s → decode s.params (textAt s) = .ok i →
    (targetOf i = none ∨ ¬ branchTaken i s) → exec i s = .next t → t.status = .running →
    t.pc.toNat = s.pc.toNat + i.length s.params ∧ t.pc.toNat ≤ s.launch.progEnd ∧ t.pc.toNat % s.params.ialign = 0

/-- A register that the machine does not have never changes (10_state R22). -/
def Obligations.MissingRegistersNeverChange : Prop :=
  ∀ (s t : State) (r : RegNum), step s = .next t → s.params.nregs ≤ r.toNat → readReg t r = readReg s r

/-! ### Registers and memory -/

/-- Writing a half of a register changes that half, keeps the other, and leaves every other register (10_state R23). -/
def Obligations.HalfWrites : Prop :=
  ∀ (s : State) (r q : RegNum) (b : Byte),
    lowByte (readReg (writeLow s r b) r) = b ∧ highByte (readReg (writeLow s r b) r) = highByte (readReg s r) ∧
    highByte (readReg (writeHigh s r b) r) = b ∧ lowByte (readReg (writeHigh s r b) r) = lowByte (readReg s r) ∧
    (q ≠ r → readReg (writeLow s r b) q = readReg s q ∧ readReg (writeHigh s r b) q = readReg s q)

/-- MemRead for 1, 2 and 4 bytes (20_memory R54): the three checks in their order, the first under the policy fault;
then the bytes, each at its place under BYTE_ORDER (little: the lowest address the least significant); an access that
passes the checks never runs past 0xFFFFFFFF. A read answers a value and no state, so it has no side effect. The
clauses for a misaligned access under the policy perform are the model's choice (log 19): it is checked for the text
and for DATA_MAP like an aligned one, reads the bytes from its address on, and one that passes never runs past
0xFFFFFFFF, which R54 derives from alignment alone. -/
def Obligations.MemReadRule : Prop :=
  ∀ (s : State) (a : Addr),
    (∀ f, accessFaultOf s a 1 = some f → memReadByte s a = .error f) ∧
    (∀ f, accessFaultOf s a 2 = some f → memReadWord s a = .error f) ∧
    (∀ f, accessFaultOf s a 4 = some f → memReadDWord s a = .error f) ∧
    (∀ n ∈ [1, 2, 4], (a.toNat % n = 0 ∨ accessFaultOf s a n = none → a.toNat + n ≤ 2 ^ 32) ∧
      (s.params.misaligned = .fault → a.toNat % n ≠ 0 → accessFaultOf s a n = some (.misalignedAccess a n)) ∧
      (aligned s a n → (∃ k < n, inText s.launch (a.toNat + k) = true) →
        accessFaultOf s a n = some (.textAccess a n)) ∧
      (aligned s a n → (∀ k < n, inText s.launch (a.toNat + k) = false) →
        (∃ k < n, inDataMap s.launch (a.toNat + k) = false) → accessFaultOf s a n = some (.accessFault a n))) ∧
    (accessible s a 1 → memReadByte s a = .ok (s.mem.read a.toNat)) ∧
    (accessible s a 2 → ∃ w, memReadWord s a = .ok w ∧
      ∀ k < 2, w.extractLsb' (8 * significance s.params.byteOrder 2 k) 8 = s.mem.read (a.toNat + k)) ∧
    (accessible s a 4 → ∃ d, memReadDWord s a = .ok d ∧
      ∀ k < 4, d.extractLsb' (8 * significance s.params.byteOrder 4 k) 8 = s.mem.read (a.toNat + k))

/-- MemWrite for 1, 2 and 4 bytes (20_memory R55): the same checks, all before any byte is written; then byte k of the
value at addr + k (under BYTE_ORDER big, counted from the most significant), every other byte and everything else
unchanged. The clauses for a misaligned access under the policy perform are the model's choice (log 19). -/
def Obligations.MemWriteRule : Prop :=
  ∀ (s : State) (a : Addr) (b : Byte) (w : Word) (d : DWord),
    (∀ bytes f, accessFaultOf s a bytes.length = some f → memWrite s a bytes = .error f) ∧
    (accessible s a 1 → ∃ m, memWrite s a [b] = .ok { s with mem := m } ∧
      m.read a.toNat = b ∧ ∀ x, x ≠ a.toNat → m.read x = s.mem.read x) ∧
    (accessible s a 2 → ∃ m, memWrite s a (wordBytes s.params.byteOrder w) = .ok { s with mem := m } ∧
      (∀ k < 2, m.read (a.toNat + k) = w.extractLsb' (8 * significance s.params.byteOrder 2 k) 8) ∧
      ∀ x, (x < a.toNat ∨ a.toNat + 2 ≤ x) → m.read x = s.mem.read x) ∧
    (accessible s a 4 → ∃ m, memWrite s a (dwordBytes s.params.byteOrder d) = .ok { s with mem := m } ∧
      (∀ k < 4, m.read (a.toNat + k) = d.extractLsb' (8 * significance s.params.byteOrder 4 k) 8) ∧
      ∀ x, (x < a.toNat ∨ a.toNat + 4 ≤ x) → m.read x = s.mem.read x)

/-- A mixed-width access sees the same bytes (20_memory R69): after a 4-byte write its two halves and its four bytes,
after a 2-byte write its two bytes. R69 is the clause of BYTE_ORDER little; under big the significance counts from the
other end. That a misaligned access under the policy perform proceeds, on the bytes from its address on, is the
model's choice (log 19). -/
def Obligations.MixedWidthReads : Prop :=
  (∀ (s t : State) (a : Addr) (d : DWord), memWrite s a (dwordBytes s.params.byteOrder d) = .ok t →
    (s.params.byteOrder = .little →
      memReadWord t a = .ok (d.extractLsb' 0 16) ∧ memReadWord t (a + 2) = .ok (d.extractLsb' 16 16)) ∧
    (s.params.byteOrder = .big →
      memReadWord t a = .ok (d.extractLsb' 16 16) ∧ memReadWord t (a + 2) = .ok (d.extractLsb' 0 16)) ∧
    ∀ k < 4, memReadByte t (a + BitVec.ofNat 32 k) =
      .ok (d.extractLsb' (8 * significance s.params.byteOrder 4 k) 8)) ∧
  ∀ (s u : State) (a : Addr) (w : Word), memWrite s a (wordBytes s.params.byteOrder w) = .ok u →
    ∀ k < 2, memReadByte u (a + BitVec.ofNat 32 k) =
      .ok (w.extractLsb' (8 * significance s.params.byteOrder 2 k) 8)

/-- A load gives the value of the latest earlier store to the same address, whatever instructions that store to none
of its bytes come between: 8, 16 and 32 bits, either half, absolute and register-relative addresses (20_memory R64).
That a misaligned access under the policy perform proceeds, on the bytes from its address on, is the model's choice
(log 19). -/
def Obligations.LoadReturnsLatestStore : Prop :=
  ∀ (s : State) (am am' : AddressMode) (rd rn1 rq rp : RegNum) (high high' : Bool) (ea : Addr),
    ea = effectiveAddress am s →
    loadSeesStore s (storeHalfAt high am rd) ea 1 am' (loadHalfAt high' am' rq)
      (fun v => halfOf high' (readReg v rq) = halfOf high (readReg s rd)) ∧
    loadSeesStore s (storeWordAt am rd) ea 2 am' (loadWordAt am' rq)
      (fun v => readReg v rq = readReg s rd) ∧
    (rq ≠ rp → loadSeesStore s (storePairAt am rd rn1) ea 4 am' (loadPairAt am' rq rp)
      (fun v => readReg v rq = readReg s rd ∧ readReg v rp = readReg s rn1))

/-- Loading the low half from A and the high half from A + 1 loads what one 16-bit load from an even A loads under
BYTE_ORDER little (42_mov R187); under big the halves are taken from A + 1 and from A. That a misaligned access under
the policy perform proceeds, on the bytes from its address on, is the model's choice (log 19). -/
def Obligations.ByteLoadsMakeWordLoad : Prop :=
  ∀ (s : State) (rd : RegNum) (a lowAt highAt : Addr), legal s [rd] → accessible s a 2 →
    (s.params.byteOrder = .little → lowAt = a ∧ highAt = a + 1) →
    (s.params.byteOrder = .big → lowAt = a + 1 ∧ highAt = a) →
    ∃ t u w, exec (.loadLowAbs rd lowAt) s = .next t ∧ exec (.loadHighAbs rd highAt) t = .next u ∧
      exec (.loadWordAbs rd a) s = .next w ∧ u.regs = w.regs ∧ u.mem = w.mem ∧ u.ov = w.ov

/-- Memories in canonical form that read the same at every address are the same data (the model's representation,
log 4). -/
def Obligations.CanonicalMemoriesAreEqual : Prop :=
  ∀ m m' : Memory, Memory.wf m = true → Memory.wf m' = true → (∀ a, m.read a = m'.read a) → m = m'

/-! ### Invariants -/

/-- Every step keeps the invariant: memory in canonical form and inside DATA_MAP, a good launch and good parameters
(10_state R21, R31; 20_memory R56). What a good layout, IALIGN and OFFLEN other than the reference are is the model's
choice (logs 12, 19 and 21). -/
def Obligations.StepKeepsInvariant : Prop :=
  ∀ s t : State, s.inv = true → step s = .next t → t.inv = true

/-- The state after reset meets the invariant. -/
def Obligations.ResetMeetsInvariant : Prop := State.reset.inv = true

/-- Reset: status Running is the spec's (10_state R34). The other values are the model's choice: pc (log 1), the
registers (log 2), OV (log 3), what memory reads (log 4). -/
def Obligations.ResetValues : Prop :=
  State.reset.status = .running ∧ State.reset.pc = 0x00001000 ∧ (∀ r, readReg State.reset r = 0) ∧
    State.reset.ov = false ∧ ∀ a, State.reset.mem.read a = 0

/-! ### Assembler syntax -/

/-- The assembler picks the form back from the shape of its operands (42_mov R204): the mnemonic and the operand list of
an instruction (30_encoding R101, R102) select that instruction. It is about operand lists and not about text; that a
bare number may stand for a branch target is the model's choice (log 28). -/
def Obligations.AssemblerInvertsSyntax : Prop :=
  ∀ i : Instr, select (sourceOf i).1 (sourceOf i).2 = some i

/-- Source lines of 30_encoding R101 assemble to their forms, with and without the comma of 90_conflicts C5; and a
line of R102, the shape that the spec's own decision D33 gives the arithmetic lines, since the source shows none. -/
def Obligations.AssemblerReadsSourceLines : Prop :=
  assembleLine "mov 1, #0x1234" = some (.movImm 1 0x1234) ∧
  assembleLine "mov 1, 2 #0xDEADBEEF" = some (.movImm32 1 2 0xDEADBEEF) ∧
  assembleLine "mov 1, 2, #0xDEADBEEF" = some (.movImm32 1 2 0xDEADBEEF) ∧
  assembleLine "mov 1.H, [0x2001]" = some (.loadHighAbs 1 0x2001) ∧
  assembleLine "mov [3 + 0x60], 1, 2" = some (.storePairRel 1 3 2 0x60) ∧
  assembleLine "add 1, [0x2000]" = some (.addMem 1 0x2000)
end

