-- ==== Sys2Proof/Laws/Bytes.lean ====
section
/-! SUPPORT. The bit fields of Machine/Bytes.lean fit together: a value is the join of its parts, and a part of a
join is the part (10_state R23, 20_memory R53). -/

namespace Sys2Proof

/-- The bit of a part, where the part begins at bit `k` and the bit is `i`. -/
theorem extract_bit (v : BitVec n) (k w i : Nat) (hk : k ≤ i) (hw : i < k + w) :
    (v.extractLsb' k w).getLsbD (i - k) = v.getLsbD i := by
  have h1 : i - k < w := by omega
  have h2 : k + (i - k) = i := by omega
  simp [h1, h2]

@[simp] theorem leWord_extract (v : Word) : leWord (v.extractLsb' 0 8) (v.extractLsb' 8 8) = v := by
  ext i hi
  rw [leWord, BitVec.getElem_setWidth, BitVec.getLsbD_append, ← BitVec.getLsbD_eq_getElem hi]
  split
  · exact extract_bit v 0 8 i (by omega) (by omega)
  · exact extract_bit v 8 8 i (by omega) (by omega)

@[simp] theorem leDWord_extract (v : DWord) :
    leDWord (v.extractLsb' 0 8) (v.extractLsb' 8 8) (v.extractLsb' 16 8) (v.extractLsb' 24 8) = v := by
  ext i hi
  rw [leDWord, BitVec.getElem_setWidth, BitVec.getLsbD_append, BitVec.getLsbD_append, BitVec.getLsbD_append,
    ← BitVec.getLsbD_eq_getElem hi, Nat.sub_sub, Nat.sub_sub]
  split
  · exact extract_bit v 0 8 i (by omega) (by omega)
  split
  · exact extract_bit v 8 8 i (by omega) (by omega)
  split
  · exact extract_bit v 16 8 i (by omega) (by omega)
  · exact extract_bit v 24 8 i (by omega) (by omega)

@[simp] theorem joinBytes_halves (v : Word) : joinBytes (highByte v) (lowByte v) = v := leWord_extract v

/-- Bit `i` of a join of two bytes. -/
theorem joinBytes_bit (hi lo : Byte) (i : Nat) (h : i < 16) :
    (joinBytes hi lo).getLsbD i = if i < 8 then lo.getLsbD i else hi.getLsbD (i - 8) := by
  rw [joinBytes, BitVec.getLsbD_setWidth, BitVec.getLsbD_append, decide_eq_true h, Bool.true_and]

/-- Bit `i` of a join of two halves. -/
theorem joinHalves_bit (upper lower : Word) (i : Nat) (h : i < 32) :
    (joinHalves upper lower).getLsbD i = if i < 16 then lower.getLsbD i else upper.getLsbD (i - 16) := by
  rw [joinHalves, BitVec.getLsbD_setWidth, BitVec.getLsbD_append, decide_eq_true h, Bool.true_and]

@[simp] theorem lowByte_joinBytes (hi lo : Byte) : lowByte (joinBytes hi lo) = lo := by
  ext i h
  rw [lowByte, BitVec.getElem_extractLsb', joinBytes_bit _ _ _ (by omega), if_pos (by omega), Nat.zero_add,
    BitVec.getLsbD_eq_getElem h]

@[simp] theorem highByte_joinBytes (hi lo : Byte) : highByte (joinBytes hi lo) = hi := by
  ext i h
  rw [highByte, BitVec.getElem_extractLsb', joinBytes_bit _ _ _ (by omega), if_neg (by omega), Nat.add_sub_cancel_left,
    BitVec.getLsbD_eq_getElem h]

@[simp] theorem upperHalf_joinHalves (u l : Word) : upperHalf (joinHalves u l) = u := by
  ext i h
  rw [upperHalf, BitVec.getElem_extractLsb', joinHalves_bit _ _ _ (by omega), if_neg (by omega),
    Nat.add_sub_cancel_left, BitVec.getLsbD_eq_getElem h]

@[simp] theorem lowerHalf_joinHalves (u l : Word) : lowerHalf (joinHalves u l) = l := by
  ext i h
  rw [lowerHalf, BitVec.getElem_extractLsb', joinHalves_bit _ _ _ (by omega), if_pos (by omega), Nat.zero_add,
    BitVec.getLsbD_eq_getElem h]

/-- The low two bytes of a 32-bit value are its lower half (20_memory R69). -/
theorem leWord_lower (v : DWord) : leWord (v.extractLsb' 0 8) (v.extractLsb' 8 8) = lowerHalf v := by
  ext i hi
  rw [leWord, lowerHalf, BitVec.getElem_setWidth, BitVec.getLsbD_append, BitVec.getElem_extractLsb', Nat.zero_add]
  split
  · exact extract_bit v 0 8 i (by omega) (by omega)
  · exact extract_bit v 8 8 i (by omega) (by omega)

/-- The high two bytes of a 32-bit value are its upper half (20_memory R69). -/
theorem leWord_upper (v : DWord) : leWord (v.extractLsb' 16 8) (v.extractLsb' 24 8) = upperHalf v := by
  ext i hi
  rw [leWord, upperHalf, BitVec.getElem_setWidth, BitVec.getLsbD_append, BitVec.getElem_extractLsb']
  split
  · have := extract_bit v 16 8 (16 + i) (by omega) (by omega)
    rwa [Nat.add_sub_cancel_left] at this
  · have := extract_bit v 24 8 (16 + i) (by omega) (by omega)
    rwa [show 16 + i - 24 = i - 8 by omega] at this

/-- A value is the join of its upper and lower half. -/
@[simp] theorem joinHalves_halves (v : DWord) : joinHalves (upperHalf v) (lowerHalf v) = v := by
  ext i hi
  rw [← BitVec.getLsbD_eq_getElem hi, ← BitVec.getLsbD_eq_getElem hi, joinHalves_bit _ _ _ hi]
  split
  · exact extract_bit v 0 16 i (by omega) (by omega)
  · exact extract_bit v 16 16 i (by omega) (by omega)

@[simp] theorem inByteOrder_length (order : ByteOrder) (bs : List Byte) :
    (inByteOrder order bs).length = bs.length := by
  cases order <;> simp [inByteOrder]

@[simp] theorem wordBytes_length (order : ByteOrder) (v : Word) : (wordBytes order v).length = 2 := by simp [wordBytes]
@[simp] theorem dwordBytes_length (order : ByteOrder) (v : DWord) : (dwordBytes order v).length = 4 := by
  simp [dwordBytes, leastFirst]

/-- The two bytes of a 16-bit value, by number: the byte order only exchanges them. -/
theorem wordBytes_eq (order : ByteOrder) (v : Word) :
    ∃ b0 b1, wordBytes order v = [b0, b1] ∧ wordOf order b0 b1 = v := by
  cases order <;> exact ⟨_, _, rfl, leWord_extract v⟩

/-- The four bytes of a 32-bit value: read back in the same order they are the value. -/
theorem dwordBytes_eq (order : ByteOrder) (v : DWord) :
    ∃ b0 b1 b2 b3, dwordBytes order v = [b0, b1, b2, b3] ∧ dwordOf order b0 b1 b2 b3 = v := by
  cases order <;> exact ⟨_, _, _, _, rfl, leDWord_extract v⟩

/-! ### Operand fields -/

/-- The byte order exchanges and exchanges back. -/
@[simp] theorem inByteOrder_twice (order : ByteOrder) (bs : List Byte) :
    inByteOrder order (inByteOrder order bs) = bs := by
  cases order <;> simp [inByteOrder]

/-- Bit `i` of a join of four bytes. -/
theorem leDWord_bit (a b c d : Byte) (i : Nat) (h : i < 32) :
    (leDWord a b c d).getLsbD i =
      if i < 8 then a.getLsbD i else if i < 16 then b.getLsbD (i - 8)
        else if i < 24 then c.getLsbD (i - 16) else d.getLsbD (i - 24) := by
  rw [leDWord, BitVec.getLsbD_setWidth, BitVec.getLsbD_append, BitVec.getLsbD_append, BitVec.getLsbD_append,
    Nat.sub_sub, Nat.sub_sub, decide_eq_true h, Bool.true_and]
  split_ifs <;> first | rfl | omega

/-- The bytes of a join of four bytes are the four. -/
@[simp] theorem leastFirst_leDWord (a b c d : Byte) : leastFirst (leDWord a b c d) = [a, b, c, d] := by
  have part (k : Nat) (hk : k + 8 ≤ 32) (x : Byte)
      (hx : ∀ i < 8, (leDWord a b c d).getLsbD (k + i) = x.getLsbD i) : (leDWord a b c d).extractLsb' k 8 = x := by
    ext i hi
    rw [BitVec.getElem_extractLsb', hx i hi, BitVec.getLsbD_eq_getElem hi]
  unfold leastFirst
  rw [part 0 (by omega) a, part 8 (by omega) b, part 16 (by omega) c, part 24 (by omega) d] <;>
    intro i hi <;> rw [leDWord_bit _ _ _ _ _ (by omega)] <;> split_ifs <;> first | omega | (congr 1; omega)

@[simp] theorem fieldBytes_length (order : ByteOrder) {n : Nat} (h : n ≤ 4) (v : DWord) :
    (fieldBytes order n v).length = n := by simp [fieldBytes, leastFirst, h]

/-- A byte above a value is zero. -/
theorem extract_small {v : DWord} {k : Nat} (h : v.toNat < 2 ^ k) : v.extractLsb' k 8 = 0 := by
  apply BitVec.eq_of_toNat_eq
  rw [BitVec.extractLsb'_toNat, Nat.shiftRight_eq_div_pow, Nat.div_eq_of_lt h]; rfl

/-- A value that fits a field of `n` bytes is read back from it (30_encoding R85, R86). -/
theorem fieldValue_fieldBytes (order : ByteOrder) {n : Nat} (hn : n ≤ 4) {v : DWord} (hv : v.toNat < 256 ^ n) :
    fieldValue order (fieldBytes order n v) = v := by
  have small (j : Nat) (h : n ≤ j) : v.extractLsb' (8 * j) 8 = 0 := by
    refine extract_small (Nat.lt_of_lt_of_le hv ?_)
    rw [show 256 = 2 ^ 8 from rfl, ← Nat.pow_mul]
    exact Nat.pow_le_pow_right (by decide) (by omega)
  conv => rhs; rw [← leDWord_extract v]
  have h0 := small 0
  have h1 := small 1
  have h2 := small 2
  have h3 := small 3
  simp only [fieldValue, fieldBytes, inByteOrder_twice, leastFirst]
  match n, hn with
  | 0, _ => simp_all
  | 1, _ => simp_all
  | 2, _ => simp_all
  | 3, _ => simp_all
  | 4, _ => rfl

/-- The bytes of a field are those of the value read from it (30_encoding R85, R86). -/
theorem fieldBytes_fieldValue (order : ByteOrder) (bs : List Byte) (h : bs.length ≤ 4) :
    fieldBytes order bs.length (fieldValue order bs) = bs := by
  have key (l : List Byte) (hl : l.length ≤ 4) :
      [l.getD 0 0, l.getD 1 0, l.getD 2 0, l.getD 3 0].take l.length = l := by
    match l, hl with
    | [], _ => rfl
    | [_], _ => rfl
    | [_, _], _ => rfl
    | [_, _, _], _ => rfl
    | [_, _, _, _], _ => rfl
  unfold fieldBytes fieldValue
  rw [leastFirst_leDWord]
  have := key (inByteOrder order bs) (by simpa using h)
  rw [inByteOrder_length] at this
  rw [this, inByteOrder_twice]

/-- A join of four bytes as a number. -/
theorem leDWord_toNat (a b c d : Byte) :
    (leDWord a b c d).toNat = d.toNat * 16777216 + c.toNat * 65536 + b.toNat * 256 + a.toNat := by
  have := a.isLt; have := b.isLt; have := c.isLt; have := d.isLt
  rw [leDWord, BitVec.toNat_setWidth, BitVec.toNat_append, BitVec.toNat_append, BitVec.toNat_append,
    ← Nat.shiftLeft_add_eq_or_of_lt c.isLt, ← Nat.shiftLeft_add_eq_or_of_lt b.isLt,
    ← Nat.shiftLeft_add_eq_or_of_lt a.isLt, Nat.shiftLeft_eq, Nat.shiftLeft_eq, Nat.shiftLeft_eq]
  omega

/-- A value read from a field of `n` bytes is below `256 ^ n`. -/
theorem fieldValue_lt (order : ByteOrder) (bs : List Byte) (h : bs.length ≤ 4) :
    (fieldValue order bs).toNat < 256 ^ bs.length := by
  have key (l : List Byte) (hl : l.length ≤ 4) :
      (leDWord (l.getD 0 0) (l.getD 1 0) (l.getD 2 0) (l.getD 3 0)).toNat < 256 ^ l.length := by
    rw [leDWord_toNat]
    match l, hl with
    | [], _ => simp
    | [a], _ => have := a.isLt; simpa using by omega
    | [a, b], _ => have := a.isLt; have := b.isLt; simpa using by omega
    | [a, b, c], _ => have := a.isLt; have := b.isLt; have := c.isLt; simpa using by omega
    | [a, b, c, d], _ =>
      have := a.isLt; have := b.isLt; have := c.isLt; have := d.isLt; simpa using by omega
  have := key (inByteOrder order bs) (by simpa using h)
  rwa [inByteOrder_length] at this

/-- The field of a 16-bit immediate (30_encoding R86). -/
theorem fieldBytes_word (order : ByteOrder) (v : Word) : fieldBytes order 2 (v.setWidth 32) = wordBytes order v := by
  have part (k : Nat) (hk : k + 8 ≤ 16) : (v.setWidth 32).extractLsb' k 8 = v.extractLsb' k 8 := by
    ext i hi; simp [BitVec.getLsbD_setWidth]; omega
  unfold fieldBytes wordBytes leastFirst
  rw [part 0 (by omega), part 8 (by omega)]; rfl

/-- The field of a 32-bit value (30_encoding R86). -/
theorem fieldBytes_dword (order : ByteOrder) (v : DWord) : fieldBytes order 4 v = dwordBytes order v := rfl

end Sys2Proof
end

