-- ==== Sys2Proof/Laws/Encoding.lean ====
section
/-! SUPPORT. What an encoding holds at each place of the layout, that a well-formed layout keeps the places apart, and
everything that decoding can answer (30_encoding R82 to R90). -/

namespace Sys2Proof

/-- Every form is listed. -/
theorem mem_allForms (f : Form) : f ∈ allForms := by
  cases f with
  | alu op kind => cases op <;> cases kind <;> decide
  | load part kind => cases part <;> cases kind <;> decide
  | store part kind => cases part <;> cases kind <;> decide
  | _ => decide

/-- Every form has its row. -/
theorem Form.row_lt (f : Form) : f.row < 50 := by
  cases f with
  | alu op kind => cases op <;> cases kind <;> decide
  | load part kind => cases part <;> cases kind <;> decide
  | store part kind => cases part <;> cases kind <;> decide
  | _ => decide

/-- What the conditions on the parameters say. -/
theorem Params.wf_iff (p : Params) :
    p.wf = true ↔ (4 ≤ p.nregs ∧ p.nregs ≤ 256) ∧ 4 % p.ialign = 0 ∧
      (p.offLen % 8 = 0 ∧ 8 ≤ p.offLen ∧ p.offLen ≤ 32) ∧ (p.layout.opcode < 4 ∧ p.layout.spec < 4) ∧
      p.layout.forms.length = 50 ∧ (∀ l ∈ p.layout.forms, 4 ≤ l.length ∧ l.length % p.ialign = 0) ∧
      ∀ f, allApart (p.places f) = true ∧ ∀ x ∈ p.places f, x.start + x.width ≤ p.len f := by
  have : (∀ f ∈ allForms, p.formWf f = true) ↔
      ∀ f, allApart (p.places f) = true ∧ ∀ x ∈ p.places f, x.start + x.width ≤ p.len f :=
    ⟨fun h f => by simpa [Params.formWf] using h f (mem_allForms f),
      fun h f _ => by simpa [Params.formWf] using h f⟩
  simp only [Params.wf, Params.layoutWf, Bool.and_eq_true, decide_eq_true_eq, List.all_eq_true, this]
  tauto

/-- The layout of a form is an entry of the table. -/
theorem Params.of_mem {p : Params} (h : p.wf = true) (f : Form) : p.layout.of f ∈ p.layout.forms := by
  have hl := ((p.wf_iff.1 h).2.2.2.2.1)
  have hr := f.row_lt
  unfold Layout.of
  rw [List.getD_eq_getElem?_getD, List.getElem?_eq_getElem (by omega)]
  exact List.getElem_mem _

/-- Every length is at least the header's and a multiple of `IALIGN` (30_encoding R81, 20_memory R58). -/
theorem Params.len_wf {p : Params} (h : p.wf = true) (f : Form) : 4 ≤ p.len f ∧ p.len f % p.ialign = 0 :=
  (p.wf_iff.1 h).2.2.2.2.2.1 _ (p.of_mem h f)

/-- An operand field has at most four bytes (30_encoding R85). -/
theorem Params.operandBytes_le {p : Params} (h : p.wf = true) (f : Form) : p.operandBytes f ≤ 4 := by
  have := (p.wf_iff.1 h).2.2.1
  unfold Params.operandBytes
  split <;> omega

/-- The greatest length is the start or one of the lengths, and below none of them. -/
theorem longestFrom_spec (n : Nat) (forms : List FormLayout) :
    (longestFrom n forms = n ∨ ∃ l ∈ forms, longestFrom n forms = l.length) ∧ n ≤ longestFrom n forms ∧
      ∀ l ∈ forms, l.length ≤ longestFrom n forms := by
  induction forms generalizing n with
  | nil => simp [longestFrom]
  | cons l rest ih =>
    rw [longestFrom]
    split
    · next h =>
      obtain ⟨h1, h2, h3⟩ := ih l.length
      refine ⟨?_, by omega, ?_⟩
      · rcases h1 with h1 | ⟨m, hm, h1⟩
        · exact .inr ⟨l, by simp, h1⟩
        · exact .inr ⟨m, by simp [hm], h1⟩
      · rintro m (_ | ⟨_, hm⟩)
        · exact h2
        · exact h3 m hm
    · next h =>
      obtain ⟨h1, h2, h3⟩ := ih n
      refine ⟨?_, h2, ?_⟩
      · rcases h1 with h1 | ⟨m, hm, h1⟩
        · exact .inl h1
        · exact .inr ⟨m, by simp [hm], h1⟩
      · rintro m (_ | ⟨_, hm⟩)
        · omega
        · exact h3 m hm

/-- The longest form is a multiple of `IALIGN` (20_memory R58). -/
theorem Params.longest_mod {p : Params} (h : p.wf = true) : p.longest % p.ialign = 0 := by
  rcases (longestFrom_spec 0 p.layout.forms).1 with h1 | ⟨l, hl, h1⟩
  · unfold Params.longest; rw [h1]; exact Nat.zero_mod _
  · unfold Params.longest; rw [h1]; exact ((p.wf_iff.1 h).2.2.2.2.2.1 l hl).2

/-- The one place that holds a byte is found. -/
theorem find_covers {places : List Place} (h : allApart places = true) {x : Place} (hx : x ∈ places) {k : Nat}
    (hk : x.covers k = true) : places.find? (·.covers k) = some x := by
  induction places with
  | nil => cases hx
  | cons y rest ih =>
    simp only [allApart, Bool.and_eq_true, List.all_eq_true] at h
    rcases List.mem_cons.1 hx with rfl | hr
    · simp [hk]
    · have hy : y.covers k = false := by
        have := h.1 x hr
        simp only [Place.apart, Place.covers, Bool.or_eq_true, Bool.and_eq_true, decide_eq_true_eq,
          Bool.and_eq_false_iff, decide_eq_false_iff_not] at this hk ⊢
        omega
      rw [List.find?_cons, hy]
      exact ih h.2 hr

/-- Each byte of a place is the byte of its field. -/
theorem byteAt_place {p : Params} (h : p.wf = true) (f : Form) (v : Fields) {x : Place} (hx : x ∈ p.places f)
    {j : Nat} (hj : j < x.width) : byteAt p f v (x.start + j) = (placeBytes p f v x.field).getD j 0 := by
  have hf := ((p.wf_iff.1 h).2.2.2.2.2.2 f).1
  have hk : x.covers (x.start + j) = true := by simp [Place.covers, hj]
  simp [byteAt, find_covers hf hx hk]

/-- A byte that belongs to no field is zero (30_encoding R98). -/
theorem byteAt_unused {p : Params} {f : Form} {k : Nat} (h : p.inField f k = false) (v : Fields) :
    byteAt p f v k = 0 := by
  have : (p.places f).find? (·.covers k) = none := by
    rw [List.find?_eq_none]
    intro x hx hc
    have : p.inField f k = true := List.any_eq_true.2 ⟨x, hx, hc⟩
    rw [h] at this
    cases this
  simp [byteAt, this]

@[simp] theorem encode_length (p : Params) (i : Instr) : (encode p i).length = i.length p := by simp [encode]

/-- The byte at an offset of an encoding, whatever follows it. -/
theorem encode_getD (p : Params) (i : Instr) (rest : List Byte) {k : Nat} (hk : k < i.length p) :
    (encode p i ++ rest).getD k 0 = byteAt p i.form i.fields k := by
  rw [List.getD_eq_getElem?_getD, List.getElem?_append_left (by simpa using hk)]
  simp [encode, hk]

/-- The width of each place is the number of its field's bytes. -/
theorem placeBytes_length {p : Params} (h : p.wf = true) {f : Form} {x : Place} (hx : x ∈ p.places f) (v : Fields) :
    (placeBytes p f v x.field).length = x.width := by
  have := fieldBytes_length p.byteOrder (p.operandBytes_le h f) v.operand
  unfold Params.places at hx
  simp only [List.mem_append, List.mem_cons, List.not_mem_nil, or_false] at hx
  rcases hx with ((((rfl | rfl) | hx) | hx) | hx) | hx <;> try split at hx <;> simp at hx
  all_goals try subst hx
  all_goals simp [placeBytes, this]

/-- A field of a place is read back from an encoding (30_encoding R84 to R87). -/
theorem encode_place {p : Params} (h : p.wf = true) (i : Instr) (rest : List Byte) {x : Place}
    (hx : x ∈ p.places i.form) :
    ((encode p i ++ rest).drop x.start).take x.width = placeBytes p i.form i.fields x.field := by
  have hw := placeBytes_length h hx i.fields
  have hin := ((p.wf_iff.1 h).2.2.2.2.2.2 i.form).2 x hx
  refine List.ext_getElem (by simp [hw]; unfold Instr.length; omega) fun j h1 h2 => ?_
  have hj : j < x.width := by omega
  have := encode_getD p i rest (k := x.start + j) (by unfold Instr.length; omega)
  rw [byteAt_place h _ _ hx hj] at this
  rw [List.getD_eq_getElem?_getD, List.getD_eq_getElem?_getD, List.getElem?_eq_getElem h2] at this
  rw [List.getElem_take, List.getElem_drop]
  rw [List.getElem?_eq_getElem (by simp [Instr.length]; omega)] at this
  simpa using this

/-- A one-byte field is read back from an encoding. -/
theorem encode_byte {p : Params} (h : p.wf = true) (i : Instr) (rest : List Byte) {x : Place}
    (hx : x ∈ p.places i.form) (hw : x.width = 1) :
    (encode p i ++ rest).getD x.start 0 = (placeBytes p i.form i.fields x.field).getD 0 0 := by
  have hin := ((p.wf_iff.1 h).2.2.2.2.2.2 i.form).2 x hx
  rw [encode_getD _ _ _ (by unfold Instr.length; omega)]
  exact byteAt_place h _ _ hx (j := 0) (by omega)

/-- With `OFFLEN` 32 every operand fits (30_encoding R85). -/
theorem Instr.fits_of_offLen {p : Params} (h : p.offLen = 32) (i : Instr) : i.fits p = true := by
  have wide (v : DWord) : v.toNat < 256 ^ 4 := v.isLt
  have narrow (v : Word) : (v.setWidth 32).toNat < 256 ^ 2 := by have := v.isLt; simp; omega
  refine decide_eq_true ?_
  cases i <;>
    first
    | exact wide _
    | exact narrow _
    | exact Nat.one_pos
    | (show _ < 256 ^ (p.offLen / 8); rw [h]; exact wide _)

/-- What bytes that decode are: complete, of a form, its unused bytes zero; and the instruction they decode to
(30_encoding R90). -/
theorem decode_ok {p : Params} {bytes : List Byte} {i : Instr} (h : decode p bytes = .ok i) :
    4 ≤ bytes.length ∧
      ∃ f, formOf (bytes.getD p.layout.opcode 0) (bytes.getD p.layout.spec 0) = some f ∧ p.len f ≤ bytes.length ∧
        unusedZero p f bytes = true ∧ i = f.instr (readFields p f bytes) := by
  unfold decode at h
  split at h
  · cases h
  · next hlen =>
    refine ⟨by omega, ?_⟩
    simp only at h
    split at h
    · cases h
    · next f hf =>
      split at h
      · cases h
      · next hb =>
        split at h
        · next hu => cases h; exact ⟨f, hf, by omega, hu, rfl⟩
        · cases h

/-- The specifiers that select an arithmetic form (30_encoding R97). -/
theorem aluFormOf_some {op : AluOp} {s : Nat} {f : Form} (h : aluFormOf op s = some f) :
    f.opcode.toNat = 1 + op.index ∧ f.spec.toNat = s := by
  unfold aluFormOf at h
  split at h <;> cases h <;> cases op <;> exact ⟨rfl, rfl⟩

/-- The specifiers that select a form of mov (30_encoding R97). -/
theorem movFormOf_some {s : Nat} {f : Form} (h : movFormOf s = some f) : f.opcode.toNat = 9 ∧ f.spec.toNat = s := by
  unfold movFormOf at h
  split at h <;> cases h <;> exact ⟨rfl, rfl⟩

/-- A form is selected by its own opcode and specifier only (30_encoding R89, R93). -/
theorem formOf_some {opcode spec : Byte} {f : Form} (h : formOf opcode spec = some f) :
    f.opcode = opcode ∧ f.spec = spec := by
  suffices f.opcode.toNat = opcode.toNat ∧ f.spec.toNat = spec.toNat from
    ⟨BitVec.eq_of_toNat_eq this.1, BitVec.eq_of_toNat_eq this.2⟩
  unfold formOf at h
  split at h
  all_goals
    first
    | (cases h; done)
    | (rename_i ho; rw [ho]; exact aluFormOf_some h)
    | (rename_i ho; rw [ho]; exact movFormOf_some h)
    | (rename_i ho hs; rw [ho, hs]; cases h; exact ⟨rfl, rfl⟩)

end Sys2Proof
end

