-- ==== Sys2Proof/Laws/Memory.lean ====
section
/-! SUPPORT. Memory: a read after a write, and every memory operation keeps the canonical form. -/

namespace Sys2Proof.Machine

/-- The canonical form of a non-empty memory. -/
theorem Memory.wf_cons (k : Nat) (b : Byte) (rest : Memory) :
    Memory.wf ((k, b) :: rest) = true ↔
      b ≠ Config.unlistedByte ∧ (∀ c ∈ rest, k < c.1) ∧ Memory.wf rest = true := by
  simp [Memory.wf, and_assoc]

theorem Memory.read_insert (m : Memory) (a : Nat) (v : Byte) (x : Nat) :
    (m.insert a v).read x = if x = a then v else m.read x := by
  induction m with
  | nil => simp [Memory.insert, Memory.read, eq_comm]
  | cons c rest ih =>
    obtain ⟨k, b⟩ := c
    rw [Memory.insert]
    by_cases hk : k < a
    · rw [if_pos hk, Memory.read, ih, Memory.read]
      by_cases hx : x = a
      · rw [if_neg (by omega), if_pos hx, if_pos hx]
      · rw [if_neg hx, if_neg hx]
    · rw [if_neg hk, Memory.read]
      by_cases hx : x = a
      · rw [if_pos hx.symm, if_pos hx]
      · rw [if_neg (Ne.symm hx), if_neg hx]

theorem Memory.read_erase (m : Memory) (a x : Nat) :
    (m.erase a).read x = if x = a then Config.unlistedByte else m.read x := by
  induction m with
  | nil => simp [Memory.erase, Memory.read]
  | cons c rest ih =>
    obtain ⟨k, b⟩ := c
    rw [Memory.erase] at ih ⊢
    rw [List.filter_cons]
    by_cases hk : k = a
    · subst hk
      rw [if_neg (by simp), ih, Memory.read]
      by_cases hx : x = k
      · rw [if_pos hx, if_pos hx]
      · rw [if_neg hx, if_neg hx, if_neg (Ne.symm hx)]
    · rw [if_pos (by simpa using hk), Memory.read, ih, Memory.read]
      by_cases hx : x = a
      · rw [if_neg (by omega), if_pos hx, if_pos hx]
      · rw [if_neg hx, if_neg hx]

/-- A read after a write: the byte written at its address, the old byte elsewhere. -/
theorem Memory.read_write (m : Memory) (a : Nat) (v : Byte) (x : Nat) :
    (m.write a v).read x = if x = a then v else m.read x := by
  unfold Memory.write
  split
  · next h => rw [Memory.read_erase, h]
  · rw [Memory.read_insert, Memory.read_erase]; split <;> rfl

theorem Memory.mem_erase {m : Memory} {a : Nat} {c : Host.Cell} : c ∈ m.erase a ↔ c ∈ m ∧ c.1 ≠ a := by
  simp [Memory.erase]

theorem Memory.mem_insert {m : Memory} {a : Nat} {v : Byte} {c : Host.Cell} (h : c ∈ m.insert a v) :
    c ∈ m ∨ c = (a, v) := by
  induction m with
  | nil => exact .inr (by simpa [Memory.insert] using h)
  | cons d rest ih =>
    obtain ⟨k, b⟩ := d
    rw [Memory.insert] at h
    split at h
    · rcases List.mem_cons.1 h with rfl | h
      · simp
      · rcases ih h with h | h <;> simp [h]
    · rcases List.mem_cons.1 h with rfl | h
      · exact .inr rfl
      · exact .inl h

/-- What a write lists is what was listed, and the address written. -/
theorem Memory.mem_write {m : Memory} {a : Nat} {v : Byte} {c : Host.Cell} (h : c ∈ m.write a v) :
    c ∈ m ∨ c = (a, v) := by
  unfold Memory.write at h
  split at h
  · exact .inl (Memory.mem_erase.1 h).1
  · exact (Memory.mem_insert h).imp_left fun h => (Memory.mem_erase.1 h).1

theorem Memory.wf_erase {m : Memory} (h : m.wf = true) (a : Nat) : (m.erase a).wf = true := by
  induction m with
  | nil => rfl
  | cons d rest ih =>
    obtain ⟨k, b⟩ := d
    obtain ⟨hb, hlt, hwf⟩ := (Memory.wf_cons k b rest).1 h
    have hr := ih hwf
    rw [Memory.erase] at hr ⊢
    rw [List.filter_cons]
    split
    · exact (Memory.wf_cons _ _ _).2 ⟨hb, fun c hc => hlt c (List.mem_filter.1 hc).1, hr⟩
    · exact hr

theorem Memory.wf_insert {m : Memory} (h : m.wf = true) {a : Nat} {v : Byte} (hv : v ≠ Config.unlistedByte)
    (ha : ∀ c ∈ m, c.1 ≠ a) : (m.insert a v).wf = true := by
  induction m with
  | nil => simp [Memory.insert, Memory.wf, hv]
  | cons d rest ih =>
    obtain ⟨k, b⟩ := d
    obtain ⟨hb, hlt, hwf⟩ := (Memory.wf_cons k b rest).1 h
    have hka : k ≠ a := ha (k, b) (by simp)
    rw [Memory.insert]
    split
    · next hk =>
      refine (Memory.wf_cons _ _ _).2 ⟨hb, ?_, ih hwf fun c hc => ha c (by simp [hc])⟩
      intro c hc
      rcases Memory.mem_insert hc with hc | rfl
      · exact hlt c hc
      · exact hk
    · next hk =>
      refine (Memory.wf_cons _ _ _).2 ⟨hv, ?_, h⟩
      intro c hc
      rcases List.mem_cons.1 hc with rfl | hc
      · show a < k; omega
      · have := hlt c hc; omega

/-- A write keeps the canonical form. -/
theorem Memory.wf_write {m : Memory} (h : m.wf = true) (a : Nat) (v : Byte) : (m.write a v).wf = true := by
  unfold Memory.write
  split
  · exact Memory.wf_erase h a
  · next hv => exact Memory.wf_insert (Memory.wf_erase h a) hv fun c hc => (Memory.mem_erase.1 hc).2

/-- Writing bytes keeps the canonical form. -/
theorem Memory.wf_writeBytes {m : Memory} (h : m.wf = true) (a : Nat) (bytes : List Byte) :
    (m.writeBytes a bytes).wf = true := by
  induction bytes generalizing m a with
  | nil => exact h
  | cons b rest ih => exact ih (Memory.wf_write h a b) (a + 1)

/-- A read after writing bytes. -/
theorem Memory.read_writeBytes (m : Memory) (a : Nat) (bytes : List Byte) (x : Nat) :
    (m.writeBytes a bytes).read x =
      if a ≤ x ∧ x < a + bytes.length then bytes.getD (x - a) 0 else m.read x := by
  induction bytes generalizing m a with
  | nil => rw [Memory.writeBytes, if_neg (by simp)]
  | cons b rest ih =>
    rw [Memory.writeBytes, ih, Memory.read_write]
    by_cases hx : x = a
    · subst hx
      rw [if_neg (by omega), if_pos rfl, if_pos (by simp)]
      simp
    · by_cases hr : a + 1 ≤ x ∧ x < a + 1 + rest.length
      · obtain ⟨k, rfl⟩ : ∃ k, x = a + 1 + k := ⟨x - (a + 1), by omega⟩
        rw [if_pos hr, if_pos (by simp; omega)]
        have h1 : a + 1 + k - (a + 1) = k := by omega
        have h2 : a + 1 + k - a = k + 1 := by omega
        rw [h1, h2, List.getD_cons_succ]
      · rw [if_neg hr, if_neg hx, if_neg (by simp; omega)]

/-- What writing bytes lists is what was listed, and addresses of the bytes written. -/
theorem Memory.mem_writeBytes {m : Memory} {a : Nat} {bytes : List Byte} {c : Host.Cell}
    (h : c ∈ m.writeBytes a bytes) : c ∈ m ∨ (a ≤ c.1 ∧ c.1 < a + bytes.length) := by
  induction bytes generalizing m a with
  | nil => exact .inl h
  | cons b rest ih =>
    rcases ih h with h | h
    · rcases Memory.mem_write h with h | rfl
      · exact .inl h
      · exact .inr ⟨le_rfl, by simp⟩
    · exact .inr ⟨by omega, by simp; omega⟩

/-- Reset's memory is in canonical form. -/
theorem State.reset_mem_wf : Memory.wf State.reset.mem = true := rfl

end Sys2Proof.Machine
end

