-- ==== Sys2Proof/Laws/State.lean ====
section
/-! SUPPORT. One lemma per field per update, so that no later proof unfolds a record update, and what reading a
register gives after each register write. -/

namespace Sys2Proof.Machine

variable (s : State) (r q : RegNum) (v : Word) (b : Byte) (d : DWord) (f : Form)

@[simp] theorem writeReg_pc : (writeReg s r v).pc = s.pc := rfl
@[simp] theorem writeReg_ov : (writeReg s r v).ov = s.ov := rfl
@[simp] theorem writeReg_mem : (writeReg s r v).mem = s.mem := rfl
@[simp] theorem writeReg_status : (writeReg s r v).status = s.status := rfl
@[simp] theorem writeReg_params : (writeReg s r v).params = s.params := rfl
@[simp] theorem writeReg_launch : (writeReg s r v).launch = s.launch := rfl
theorem writeReg_regs : (writeReg s r v).regs = s.regs.set r.toNat v r.isLt := rfl

@[simp] theorem writeLow_pc : (writeLow s r b).pc = s.pc := rfl
@[simp] theorem writeLow_ov : (writeLow s r b).ov = s.ov := rfl
@[simp] theorem writeLow_mem : (writeLow s r b).mem = s.mem := rfl
@[simp] theorem writeLow_status : (writeLow s r b).status = s.status := rfl
@[simp] theorem writeLow_params : (writeLow s r b).params = s.params := rfl
@[simp] theorem writeLow_launch : (writeLow s r b).launch = s.launch := rfl

@[simp] theorem writeHigh_pc : (writeHigh s r b).pc = s.pc := rfl
@[simp] theorem writeHigh_ov : (writeHigh s r b).ov = s.ov := rfl
@[simp] theorem writeHigh_mem : (writeHigh s r b).mem = s.mem := rfl
@[simp] theorem writeHigh_status : (writeHigh s r b).status = s.status := rfl
@[simp] theorem writeHigh_params : (writeHigh s r b).params = s.params := rfl
@[simp] theorem writeHigh_launch : (writeHigh s r b).launch = s.launch := rfl

@[simp] theorem advance_pc : (advance s f).pc = nextPc s f := rfl
@[simp] theorem advance_regs : (advance s f).regs = s.regs := rfl
@[simp] theorem advance_ov : (advance s f).ov = s.ov := rfl
@[simp] theorem advance_mem : (advance s f).mem = s.mem := rfl
@[simp] theorem advance_status : (advance s f).status = s.status := rfl
@[simp] theorem advance_params : (advance s f).params = s.params := rfl
@[simp] theorem advance_launch : (advance s f).launch = s.launch := rfl
@[simp] theorem readReg_advance : readReg (advance s f) r = readReg s r := rfl

/-- Reading a register after writing one (10_state R20, R24). -/
@[simp] theorem readReg_writeReg : readReg (writeReg s r v) q = if r = q then v else readReg s q := by
  simp [readReg, writeReg, Vector.getElem_set, BitVec.toNat_inj]

/-- A second write to the same register replaces the first. -/
@[simp] theorem writeReg_writeReg (w : Word) : writeReg (writeReg s r v) r w = writeReg s r w := by
  simp [writeReg]

theorem readReg_writeLow :
    readReg (writeLow s r b) q = if r = q then joinBytes (highByte (readReg s r)) b else readReg s q := by
  simp [writeLow]

theorem readReg_writeHigh :
    readReg (writeHigh s r b) q = if r = q then joinBytes b (lowByte (readReg s r)) else readReg s q := by
  simp [writeHigh]

/-- What the pair write is, by the coincidence of its registers (42_mov R202). -/
theorem writePair_eq :
    writePair s r q d =
      if r = q then
        writeReg s r (if s.params.overlap = .rdFirst then lowerHalf d
          else Config.overlapValue (upperHalf d) (lowerHalf d))
      else writeReg (writeReg s r (upperHalf d)) q (lowerHalf d) := by
  unfold writePair
  split
  · next h => subst h; cases h : s.params.overlap <;> simp
  · rfl

@[simp] theorem writePair_pc : (writePair s r q d).pc = s.pc := by rw [writePair_eq]; split <;> rfl
@[simp] theorem writePair_ov : (writePair s r q d).ov = s.ov := by rw [writePair_eq]; split <;> rfl
@[simp] theorem writePair_mem : (writePair s r q d).mem = s.mem := by rw [writePair_eq]; split <;> rfl
@[simp] theorem writePair_status : (writePair s r q d).status = s.status := by rw [writePair_eq]; split <;> rfl
@[simp] theorem writePair_params : (writePair s r q d).params = s.params := by rw [writePair_eq]; split <;> rfl
@[simp] theorem writePair_launch : (writePair s r q d).launch = s.launch := by rw [writePair_eq]; split <;> rfl

/-- Two states with the same fields are the same state. -/
theorem State.ext_fields {s t : State} (h1 : s.regs = t.regs) (h2 : s.pc = t.pc) (h3 : s.ov = t.ov)
    (h4 : s.mem = t.mem) (h5 : s.status = t.status) (h6 : s.params = t.params) (h7 : s.launch = t.launch) : s = t := by
  cases s; cases t; simp_all

end Sys2Proof.Machine
end

