-- ==== Sys2Proof/Laws/Ops.lean ====
section
/-! SUPPORT. One lemma per shared operation that says once everything it can do. -/

namespace Sys2Proof.Machine

/-- The state a fault leaves (60_exceptions R250). -/
abbrev faultState (f : Fault) (s : State) : State := { s with status := .faulted f }

theorem raise_eq (f : Fault) (s : State) : raise f s = .next (faultState f s) := rfl

/-! ### Checks -/

/-- No illegal register exactly when every used field is below `NREGS` (10_state R22). -/
theorem illegalRegister_none_iff (n : Nat) (fields : List (RegField × RegNum)) :
    illegalRegister n fields = none ↔ ∀ x ∈ fields, x.2.toNat < n := by
  induction fields with
  | nil => simp [illegalRegister]
  | cons x rest ih =>
    obtain ⟨field, r⟩ := x
    rw [illegalRegister]
    by_cases h : r.toNat < n <;> simp [h, ih]

/-- The illegal register reported is the first one (60_exceptions R256 item 6). -/
theorem illegalRegister_first (n : Nat) (before : List (RegField × RegNum)) (field : RegField) (r : RegNum)
    (after : List (RegField × RegNum)) (hb : ∀ x ∈ before, x.2.toNat < n) (hr : n ≤ r.toNat) :
    illegalRegister n (before ++ (field, r) :: after) = some (.illegalRegister field r) := by
  induction before with
  | nil => rw [List.nil_append, illegalRegister, if_neg (by omega)]
  | cons x rest ih =>
    obtain ⟨g, q⟩ := x
    rw [List.cons_append, illegalRegister, if_pos (hb (g, q) (by simp))]
    exact ih fun x hx => hb x (by simp [hx])

/-- An address of `DATA_MAP` is not an address of the text (20_memory R52). -/
theorem inDataMap_not_inText {l : Launch} {a : Nat} (h : inDataMap l a = true) : inText l a = false := by
  simp only [inDataMap, Bool.and_eq_true, Bool.not_eq_true'] at h
  exact h.2

/-- An address of `DATA_MAP` is one of the 2^32 addresses (20_memory R50). -/
theorem inDataMap_lt {l : Launch} {a : Nat} (h : inDataMap l a = true) : a < 2 ^ 32 := by
  simp only [inDataMap, Bool.and_eq_true, decide_eq_true_eq] at h
  exact h.1.2

/-- The alignment that `MISALIGNED_POLICY` asks for (20_memory R57). -/
abbrev alignedFor (policy : MisalignedPolicy) (a : Addr) (n : Nat) : Prop := policy = .fault → a.toNat % n = 0

/-- An access may proceed exactly when it is aligned, if the policy asks for it, and all of its bytes are in `DATA_MAP`
(20_memory R54, R57). -/
theorem checkAccess_none_iff (q : MisalignedPolicy) (l : Launch) (a : Addr) (n : Nat) :
    checkAccess q l a n = none ↔ alignedFor q a n ∧ ∀ k < n, inDataMap l (a.toNat + k) = true := by
  unfold checkAccess alignedFor
  by_cases h1 : q = .fault ∧ a.toNat % n ≠ 0
  · rw [if_pos h1]
    simp only [reduceCtorEq, false_iff]
    exact fun h => h1.2 (h.1 h1.1)
  · have h3 : q = .fault → a.toNat % n = 0 := fun h => by_contra fun h2 => h1 ⟨h, h2⟩
    rw [if_neg h1]
    by_cases h2 : (List.range n).any (fun k => inText l (a.toNat + k)) = true
    · obtain ⟨k, hk, ht⟩ := List.any_eq_true.1 h2
      simp only [h2, if_true, reduceCtorEq, false_iff]
      intro h
      rw [inDataMap_not_inText (h.2 k (List.mem_range.1 hk))] at ht
      cases ht
    · simpa [h2] using fun _ => h3

/-- A misaligned access under the policy `fault` (20_memory R57; 60_exceptions R256 item 7). -/
theorem checkAccess_misaligned {q : MisalignedPolicy} {l : Launch} {a : Addr} {n : Nat} (hq : q = .fault)
    (h : a.toNat % n ≠ 0) : checkAccess q l a n = some (.misalignedAccess a n) := by
  unfold checkAccess; rw [if_pos ⟨hq, h⟩]

/-- An access with a byte in the text, aligned if the policy asks for it (60_exceptions R256 item 8). -/
theorem checkAccess_text {q : MisalignedPolicy} {l : Launch} {a : Addr} {n : Nat} (h : alignedFor q a n)
    (k : Nat) (hk : k < n) (ht : inText l (a.toNat + k) = true) : checkAccess q l a n = some (.textAccess a n) := by
  unfold checkAccess
  rw [if_neg (fun h2 => h2.2 (h h2.1)), if_pos (List.any_eq_true.2 ⟨k, List.mem_range.2 hk, ht⟩)]

/-- An access with no byte in the text and one outside `DATA_MAP`, aligned if the policy asks for it (60_exceptions R256
item 9). -/
theorem checkAccess_outside {q : MisalignedPolicy} {l : Launch} {a : Addr} {n : Nat} (h : alignedFor q a n)
    (hno : ∀ k < n, inText l (a.toNat + k) = false) (k : Nat) (hk : k < n)
    (hm : inDataMap l (a.toNat + k) = false) : checkAccess q l a n = some (.accessFault a n) := by
  have h2 : ¬ (List.range n).any (fun k => inText l (a.toNat + k)) = true := by
    intro hany
    obtain ⟨j, hj, ht⟩ := List.any_eq_true.1 hany
    rw [hno j (List.mem_range.1 hj)] at ht
    cases ht
  have h3 : ¬ (List.range n).all (fun k => inDataMap l (a.toNat + k)) = true := by
    intro hall
    have := List.all_eq_true.1 hall k (List.mem_range.2 hk)
    rw [hm] at this
    cases this
  unfold checkAccess
  rw [if_neg (fun h2 => h2.2 (h h2.1)), if_neg h2, if_neg h3]

/-! ### Memory access -/

/-- A byte read that answers a value answers the byte, of an address it may access (20_memory R54). -/
theorem memReadByte_ok {s : State} {a : Addr} {v : Byte} :
    memReadByte s a = .ok v ↔ checkAccess s.params.misaligned s.launch a 1 = none ∧ v = s.mem.read a.toNat := by
  unfold memReadByte; cases checkAccess s.params.misaligned s.launch a 1 <;> simp [eq_comm]

/-- A 16-bit read that answers a value answers the two bytes, in `BYTE_ORDER` (20_memory R54). -/
theorem memReadWord_ok {s : State} {a : Addr} {v : Word} :
    memReadWord s a = .ok v ↔ checkAccess s.params.misaligned s.launch a 2 = none ∧
      v = s.mem.readWord s.params.byteOrder a.toNat := by
  unfold memReadWord; cases checkAccess s.params.misaligned s.launch a 2 <;> simp [eq_comm]

/-- A 32-bit read that answers a value answers the four bytes, in `BYTE_ORDER` (20_memory R54). -/
theorem memReadDWord_ok {s : State} {a : Addr} {v : DWord} :
    memReadDWord s a = .ok v ↔ checkAccess s.params.misaligned s.launch a 4 = none ∧
      v = s.mem.readDWord s.params.byteOrder a.toNat := by
  unfold memReadDWord; cases checkAccess s.params.misaligned s.launch a 4 <;> simp [eq_comm]

/-- A write that answers a state answers the one with exactly those bytes written (20_memory R55). -/
theorem memWrite_ok {s t : State} {a : Addr} {bytes : List Byte} :
    memWrite s a bytes = .ok t ↔
      checkAccess s.params.misaligned s.launch a bytes.length = none ∧
        t = { s with mem := s.mem.writeBytes a.toNat bytes } := by
  unfold memWrite; cases checkAccess s.params.misaligned s.launch a bytes.length <;> simp [eq_comm]

/-! ### Performing an instruction -/

/-- Everything `perform` can do: take the fault of a register or of the effect, or the effect. -/
theorem perform_next {s t : State} {fields : List (RegField × RegNum)} {effect : Except Fault State}
    (h : perform s fields effect = .next t) :
    (∃ f, t = faultState f s ∧
      (illegalRegister s.params.nregs fields = some f ∨
        illegalRegister s.params.nregs fields = none ∧ effect = .error f)) ∨
      illegalRegister s.params.nregs fields = none ∧ effect = .ok t := by
  unfold perform at h
  split at h
  · next f hf => cases h; exact .inl ⟨f, rfl, .inl hf⟩
  · next hn =>
    split at h
    · cases h; exact .inr ⟨hn, rfl⟩
    · next f => cases h; exact .inl ⟨f, rfl, .inr ⟨hn, rfl⟩⟩

/-- With legal registers and an effect that answers a state, that state is next. -/
theorem perform_ok {s t : State} {fields : List (RegField × RegNum)} {effect : Except Fault State}
    (hr : illegalRegister s.params.nregs fields = none) (he : effect = .ok t) :
    perform s fields effect = .next t := by
  unfold perform; rw [hr, he]

/-- With legal registers and an effect that faults, the fault is raised. -/
theorem perform_fault {s : State} {fields : List (RegField × RegNum)} {effect : Except Fault State} {f : Fault}
    (hr : illegalRegister s.params.nregs fields = none) (he : effect = .error f) :
    perform s fields effect = .next (faultState f s) := by
  unfold perform; rw [hr, he]; rfl

/-- With an illegal register, its fault is raised. -/
theorem perform_illegal {s : State} {fields : List (RegField × RegNum)} {effect : Except Fault State} {f : Fault}
    (hr : illegalRegister s.params.nregs fields = some f) : perform s fields effect = .next (faultState f s) := by
  unfold perform; rw [hr]; rfl

/-- `perform` never stops: it always answers a next state. -/
theorem perform_exists (s : State) (fields : List (RegField × RegNum)) (effect : Except Fault State) :
    ∃ t, perform s fields effect = .next t := by
  unfold perform
  split
  · exact ⟨_, rfl⟩
  · split <;> exact ⟨_, rfl⟩

/-! ### The families -/

/-- The state after an arithmetic form as one record (41_alu R132). -/
theorem aluCommit_eq (op : AluOp) (rd : RegNum) (f : Form) (s : State) (b : Word) :
    aluCommit op rd f s b =
      { s with
        regs := s.regs.set rd.toNat (aluResult s.params.shiftRule op (readReg s rd) b) rd.isLt
        ov := ovfUpdate s.params.ovfUpdate op (readReg s rd) b s.ov
        pc := nextPc s f } := rfl

/-- Everything an arithmetic form can do: take a fault, or commit its result (41_alu R132). -/
theorem aluExec_next {op : AluOp} {rd : RegNum} {src : AluSource} {s t : State} (h : aluExec op rd src s = .next t) :
    (∃ f, t = faultState f s) ∨
      ∃ b, secondOperand src s = .ok b ∧ t = aluCommit op rd (sourceForm op src) s b := by
  rcases perform_next h with ⟨f, rfl, _⟩ | ⟨_, he⟩
  · exact .inl ⟨f, rfl⟩
  · cases hb : secondOperand src s with
    | error f => rw [hb] at he; cases he
    | ok b => rw [hb] at he; cases he; exact .inr ⟨b, rfl, rfl⟩

/-- Everything a byte load into the low half can do (42_mov R186, R194). -/
theorem loadLow_next {rd : RegNum} {am : AddressMode} {s t : State} (h : loadLow rd am s = .next t) :
    (∃ f, t = faultState f s) ∨
      t = advance (writeLow s rd (s.mem.read (effectiveAddress am s).toNat)) (.load .low (modeKind am)) := by
  rcases perform_next h with ⟨f, rfl, _⟩ | ⟨_, he⟩
  · exact .inl ⟨f, rfl⟩
  · cases hv : memReadByte s (effectiveAddress am s) with
    | error f => rw [hv] at he; cases he
    | ok v => rw [hv] at he; cases he; rw [(memReadByte_ok.1 hv).2]; exact .inr rfl

/-- Everything a byte load into the high half can do (42_mov R187, R195). -/
theorem loadHigh_next {rd : RegNum} {am : AddressMode} {s t : State} (h : loadHigh rd am s = .next t) :
    (∃ f, t = faultState f s) ∨
      t = advance (writeHigh s rd (s.mem.read (effectiveAddress am s).toNat)) (.load .high (modeKind am)) := by
  rcases perform_next h with ⟨f, rfl, _⟩ | ⟨_, he⟩
  · exact .inl ⟨f, rfl⟩
  · cases hv : memReadByte s (effectiveAddress am s) with
    | error f => rw [hv] at he; cases he
    | ok v => rw [hv] at he; cases he; rw [(memReadByte_ok.1 hv).2]; exact .inr rfl

/-- Everything a 16-bit load can do (42_mov R188, R196). -/
theorem loadWord_next {rd : RegNum} {am : AddressMode} {s t : State} (h : loadWord rd am s = .next t) :
    (∃ f, t = faultState f s) ∨
      t = advance (writeReg s rd (s.mem.readWord s.params.byteOrder (effectiveAddress am s).toNat))
        (.load .word (modeKind am)) := by
  rcases perform_next h with ⟨f, rfl, _⟩ | ⟨_, he⟩
  · exact .inl ⟨f, rfl⟩
  · cases hv : memReadWord s (effectiveAddress am s) with
    | error f => rw [hv] at he; cases he
    | ok v => rw [hv] at he; cases he; rw [(memReadWord_ok.1 hv).2]; exact .inr rfl

/-- Everything a 32-bit load can do (42_mov R189, R197). -/
theorem loadPair_next {rd rn1 : RegNum} {am : AddressMode} {s t : State} (h : loadPair rd rn1 am s = .next t) :
    (∃ f, t = faultState f s) ∨
      t = advance (writePair s rd rn1 (s.mem.readDWord s.params.byteOrder (effectiveAddress am s).toNat))
        (.load .pair (modeKind am)) := by
  rcases perform_next h with ⟨f, rfl, _⟩ | ⟨_, he⟩
  · exact .inl ⟨f, rfl⟩
  · cases hv : memReadDWord s (effectiveAddress am s) with
    | error f => rw [hv] at he; cases he
    | ok v => rw [hv] at he; cases he; rw [(memReadDWord_ok.1 hv).2]; exact .inr rfl

/-- Everything a write of bytes followed by the next instruction can do; the four stores are instances. -/
theorem store_next {fields : List (RegField × RegNum)} {a : Addr} {bytes : List Byte} {f : Form} {s t : State}
    (h : perform s fields ((memWrite s a bytes).map fun u => advance u f) = .next t) :
    (∃ g, t = faultState g s) ∨
      checkAccess s.params.misaligned s.launch a bytes.length = none ∧
        t = { s with mem := s.mem.writeBytes a.toNat bytes, pc := nextPc s f } := by
  rcases perform_next h with ⟨g, rfl, _⟩ | ⟨_, he⟩
  · exact .inl ⟨g, rfl⟩
  · cases hv : memWrite s a bytes with
    | error g => rw [hv] at he; cases he
    | ok u =>
      rw [hv] at he; cases he
      obtain ⟨hc, rfl⟩ := memWrite_ok.1 hv
      exact .inr ⟨hc, rfl⟩

/-! ### Fetch and step -/

/-- A fetch that answers bytes answers those of the text at the address (20_memory R56). -/
theorem fetch_ok_iff {ialign : Nat} {l : Launch} {a : Addr} {n : Nat} {bytes : List Byte} :
    fetch ialign l a n = .ok bytes ↔
      a.toNat % ialign = 0 ∧ l.progBase.toNat ≤ a.toNat ∧ a.toNat + n ≤ l.progEnd ∧
        bytes = (l.prog.drop (a.toNat - l.progBase.toNat)).take n := by
  unfold fetch
  split
  · next h => simp [h]
  · split
    · next h1 h2 => simp; omega
    · next h1 h2 =>
      simp only [Except.ok.injEq]
      constructor
      · rintro rfl; exact ⟨by omega, by omega, by omega, rfl⟩
      · rintro ⟨_, _, _, rfl⟩; rfl

/-- Everything a step of a machine can do (00_scope R9). -/
theorem step_next {s t : State} (h : step s = .next t) :
    s.status = .running ∧ s.launch.wf s.params.ialign = true ∧ s.params.wf = true ∧
      ((s.pc.toNat = s.launch.progEnd ∧ t = { s with status := .ended }) ∨
        s.pc.toNat ≠ s.launch.progEnd ∧
          ((∃ f, fetchDecode s.params s.launch s.pc = .error f ∧ t = faultState f s) ∨
            ∃ i, fetchDecode s.params s.launch s.pc = .ok i ∧ exec i s = .next t)) := by
  unfold step at h
  split at h
  · cases h
  · cases h
  · next hs =>
    split at h
    · next hw =>
      obtain ⟨hl, hp⟩ := Bool.and_eq_true_iff.1 hw
      refine ⟨hs, hl, hp, ?_⟩
      split at h
      · next hpc => cases h; exact .inl ⟨hpc, rfl⟩
      · next hpc =>
        refine .inr ⟨hpc, ?_⟩
        split at h
        · next f hf => cases h; exact .inl ⟨f, hf, rfl⟩
        · next i hi => exact .inr ⟨i, hi, h⟩
    · cases h

/-- A running machine with a good launch, not at `PROG_END`, executes the instruction it fetches. -/
theorem step_exec {s : State} {i : Instr} (hs : s.status = .running) (hl : s.launch.wf s.params.ialign = true)
    (hp : s.params.wf = true) (hpc : s.pc.toNat ≠ s.launch.progEnd) (hi : fetchDecode s.params s.launch s.pc = .ok i) :
    step s = exec i s := by
  unfold step; rw [hs]; simp [hl, hp, hpc, hi]

end Sys2Proof.Machine
end

