-- ==== Sys2Proof/Laws/PerInstr.lean ====
section
/-! SUPPORT. Statements for all instructions, made one instruction at a time. -/

/-- Opcode and specifier of the instruction's form select that form, and the form and the fields give the instruction
back; the fields that the form does not use are zero, and its operand fits 16 bits where the form has an imm16
(30_encoding R81, R89, R98). -/
def Sys2Proof.Laws.FormAndFields.Statement (i : Sys2Proof.Instr) : Prop :=
  Sys2Proof.formOf i.form.opcode i.form.spec = some i.form ∧ i.form.instr i.fields = i ∧
    (i.form.uses.rd = false → i.fields.rd = 0) ∧ (i.form.uses.rn = false → i.fields.rn = 0) ∧
    (i.form.uses.rn1 = false → i.fields.rn1 = 0) ∧ (i.form.uses.operand = .none → i.fields.operand = 0) ∧
    (i.form.uses.operand = .imm16 → i.fields.operand.toNat < 65536)

/-- A 16-bit immediate in the operand field. -/
theorem Sys2Proof.Laws.imm_operand (v : Sys2Proof.Word) :
    (v.setWidth 32).setWidth 16 = v ∧ (v.setWidth 32).toNat < 65536 := by
  have := v.isLt
  constructor
  · simp
  · rw [BitVec.toNat_setWidth]; omega

theorem Sys2Proof.Laws.FormAndFields.nop :
    Sys2Proof.Laws.FormAndFields.Statement (.nop) := by
  refine ⟨rfl, ?_, ?_, ?_, ?_, ?_, ?_⟩ <;>
    simp [Sys2Proof.Instr.form, Sys2Proof.Instr.fields, Sys2Proof.Form.instr, Sys2Proof.Form.uses]

theorem Sys2Proof.Laws.FormAndFields.addImm (rd : Sys2Proof.RegNum) (imm : Sys2Proof.Word) :
    Sys2Proof.Laws.FormAndFields.Statement (.addImm rd imm) := by
  exact ⟨rfl, congrArg (Sys2Proof.Instr.addImm rd) (Sys2Proof.Laws.imm_operand imm).1, nofun, fun _ => rfl,
    fun _ => rfl, nofun, fun _ => (Sys2Proof.Laws.imm_operand imm).2⟩

theorem Sys2Proof.Laws.FormAndFields.addReg (rd rn : Sys2Proof.RegNum) :
    Sys2Proof.Laws.FormAndFields.Statement (.addReg rd rn) := by
  refine ⟨rfl, ?_, ?_, ?_, ?_, ?_, ?_⟩ <;>
    simp [Sys2Proof.Instr.form, Sys2Proof.Instr.fields, Sys2Proof.Form.instr, Sys2Proof.Form.uses]

theorem Sys2Proof.Laws.FormAndFields.addMem (rd : Sys2Proof.RegNum) (addr : Sys2Proof.Addr) :
    Sys2Proof.Laws.FormAndFields.Statement (.addMem rd addr) := by
  refine ⟨rfl, ?_, ?_, ?_, ?_, ?_, ?_⟩ <;>
    simp [Sys2Proof.Instr.form, Sys2Proof.Instr.fields, Sys2Proof.Form.instr, Sys2Proof.Form.uses]

theorem Sys2Proof.Laws.FormAndFields.subImm (rd : Sys2Proof.RegNum) (imm : Sys2Proof.Word) :
    Sys2Proof.Laws.FormAndFields.Statement (.subImm rd imm) := by
  exact ⟨rfl, congrArg (Sys2Proof.Instr.subImm rd) (Sys2Proof.Laws.imm_operand imm).1, nofun, fun _ => rfl,
    fun _ => rfl, nofun, fun _ => (Sys2Proof.Laws.imm_operand imm).2⟩

theorem Sys2Proof.Laws.FormAndFields.subReg (rd rn : Sys2Proof.RegNum) :
    Sys2Proof.Laws.FormAndFields.Statement (.subReg rd rn) := by
  refine ⟨rfl, ?_, ?_, ?_, ?_, ?_, ?_⟩ <;>
    simp [Sys2Proof.Instr.form, Sys2Proof.Instr.fields, Sys2Proof.Form.instr, Sys2Proof.Form.uses]

theorem Sys2Proof.Laws.FormAndFields.subMem (rd : Sys2Proof.RegNum) (addr : Sys2Proof.Addr) :
    Sys2Proof.Laws.FormAndFields.Statement (.subMem rd addr) := by
  refine ⟨rfl, ?_, ?_, ?_, ?_, ?_, ?_⟩ <;>
    simp [Sys2Proof.Instr.form, Sys2Proof.Instr.fields, Sys2Proof.Form.instr, Sys2Proof.Form.uses]

theorem Sys2Proof.Laws.FormAndFields.mulImm (rd : Sys2Proof.RegNum) (imm : Sys2Proof.Word) :
    Sys2Proof.Laws.FormAndFields.Statement (.mulImm rd imm) := by
  exact ⟨rfl, congrArg (Sys2Proof.Instr.mulImm rd) (Sys2Proof.Laws.imm_operand imm).1, nofun, fun _ => rfl,
    fun _ => rfl, nofun, fun _ => (Sys2Proof.Laws.imm_operand imm).2⟩

theorem Sys2Proof.Laws.FormAndFields.mulReg (rd rn : Sys2Proof.RegNum) :
    Sys2Proof.Laws.FormAndFields.Statement (.mulReg rd rn) := by
  refine ⟨rfl, ?_, ?_, ?_, ?_, ?_, ?_⟩ <;>
    simp [Sys2Proof.Instr.form, Sys2Proof.Instr.fields, Sys2Proof.Form.instr, Sys2Proof.Form.uses]

theorem Sys2Proof.Laws.FormAndFields.mulMem (rd : Sys2Proof.RegNum) (addr : Sys2Proof.Addr) :
    Sys2Proof.Laws.FormAndFields.Statement (.mulMem rd addr) := by
  refine ⟨rfl, ?_, ?_, ?_, ?_, ?_, ?_⟩ <;>
    simp [Sys2Proof.Instr.form, Sys2Proof.Instr.fields, Sys2Proof.Form.instr, Sys2Proof.Form.uses]

theorem Sys2Proof.Laws.FormAndFields.andImm (rd : Sys2Proof.RegNum) (imm : Sys2Proof.Word) :
    Sys2Proof.Laws.FormAndFields.Statement (.andImm rd imm) := by
  exact ⟨rfl, congrArg (Sys2Proof.Instr.andImm rd) (Sys2Proof.Laws.imm_operand imm).1, nofun, fun _ => rfl,
    fun _ => rfl, nofun, fun _ => (Sys2Proof.Laws.imm_operand imm).2⟩

theorem Sys2Proof.Laws.FormAndFields.andReg (rd rn : Sys2Proof.RegNum) :
    Sys2Proof.Laws.FormAndFields.Statement (.andReg rd rn) := by
  refine ⟨rfl, ?_, ?_, ?_, ?_, ?_, ?_⟩ <;>
    simp [Sys2Proof.Instr.form, Sys2Proof.Instr.fields, Sys2Proof.Form.instr, Sys2Proof.Form.uses]

theorem Sys2Proof.Laws.FormAndFields.andMem (rd : Sys2Proof.RegNum) (addr : Sys2Proof.Addr) :
    Sys2Proof.Laws.FormAndFields.Statement (.andMem rd addr) := by
  refine ⟨rfl, ?_, ?_, ?_, ?_, ?_, ?_⟩ <;>
    simp [Sys2Proof.Instr.form, Sys2Proof.Instr.fields, Sys2Proof.Form.instr, Sys2Proof.Form.uses]

theorem Sys2Proof.Laws.FormAndFields.orImm (rd : Sys2Proof.RegNum) (imm : Sys2Proof.Word) :
    Sys2Proof.Laws.FormAndFields.Statement (.orImm rd imm) := by
  exact ⟨rfl, congrArg (Sys2Proof.Instr.orImm rd) (Sys2Proof.Laws.imm_operand imm).1, nofun, fun _ => rfl,
    fun _ => rfl, nofun, fun _ => (Sys2Proof.Laws.imm_operand imm).2⟩

theorem Sys2Proof.Laws.FormAndFields.orReg (rd rn : Sys2Proof.RegNum) :
    Sys2Proof.Laws.FormAndFields.Statement (.orReg rd rn) := by
  refine ⟨rfl, ?_, ?_, ?_, ?_, ?_, ?_⟩ <;>
    simp [Sys2Proof.Instr.form, Sys2Proof.Instr.fields, Sys2Proof.Form.instr, Sys2Proof.Form.uses]

theorem Sys2Proof.Laws.FormAndFields.orMem (rd : Sys2Proof.RegNum) (addr : Sys2Proof.Addr) :
    Sys2Proof.Laws.FormAndFields.Statement (.orMem rd addr) := by
  refine ⟨rfl, ?_, ?_, ?_, ?_, ?_, ?_⟩ <;>
    simp [Sys2Proof.Instr.form, Sys2Proof.Instr.fields, Sys2Proof.Form.instr, Sys2Proof.Form.uses]

theorem Sys2Proof.Laws.FormAndFields.xorImm (rd : Sys2Proof.RegNum) (imm : Sys2Proof.Word) :
    Sys2Proof.Laws.FormAndFields.Statement (.xorImm rd imm) := by
  exact ⟨rfl, congrArg (Sys2Proof.Instr.xorImm rd) (Sys2Proof.Laws.imm_operand imm).1, nofun, fun _ => rfl,
    fun _ => rfl, nofun, fun _ => (Sys2Proof.Laws.imm_operand imm).2⟩

theorem Sys2Proof.Laws.FormAndFields.xorReg (rd rn : Sys2Proof.RegNum) :
    Sys2Proof.Laws.FormAndFields.Statement (.xorReg rd rn) := by
  refine ⟨rfl, ?_, ?_, ?_, ?_, ?_, ?_⟩ <;>
    simp [Sys2Proof.Instr.form, Sys2Proof.Instr.fields, Sys2Proof.Form.instr, Sys2Proof.Form.uses]

theorem Sys2Proof.Laws.FormAndFields.xorMem (rd : Sys2Proof.RegNum) (addr : Sys2Proof.Addr) :
    Sys2Proof.Laws.FormAndFields.Statement (.xorMem rd addr) := by
  refine ⟨rfl, ?_, ?_, ?_, ?_, ?_, ?_⟩ <;>
    simp [Sys2Proof.Instr.form, Sys2Proof.Instr.fields, Sys2Proof.Form.instr, Sys2Proof.Form.uses]

theorem Sys2Proof.Laws.FormAndFields.lshImm (rd : Sys2Proof.RegNum) (imm : Sys2Proof.Word) :
    Sys2Proof.Laws.FormAndFields.Statement (.lshImm rd imm) := by
  exact ⟨rfl, congrArg (Sys2Proof.Instr.lshImm rd) (Sys2Proof.Laws.imm_operand imm).1, nofun, fun _ => rfl,
    fun _ => rfl, nofun, fun _ => (Sys2Proof.Laws.imm_operand imm).2⟩

theorem Sys2Proof.Laws.FormAndFields.lshReg (rd rn : Sys2Proof.RegNum) :
    Sys2Proof.Laws.FormAndFields.Statement (.lshReg rd rn) := by
  refine ⟨rfl, ?_, ?_, ?_, ?_, ?_, ?_⟩ <;>
    simp [Sys2Proof.Instr.form, Sys2Proof.Instr.fields, Sys2Proof.Form.instr, Sys2Proof.Form.uses]

theorem Sys2Proof.Laws.FormAndFields.lshMem (rd : Sys2Proof.RegNum) (addr : Sys2Proof.Addr) :
    Sys2Proof.Laws.FormAndFields.Statement (.lshMem rd addr) := by
  refine ⟨rfl, ?_, ?_, ?_, ?_, ?_, ?_⟩ <;>
    simp [Sys2Proof.Instr.form, Sys2Proof.Instr.fields, Sys2Proof.Form.instr, Sys2Proof.Form.uses]

theorem Sys2Proof.Laws.FormAndFields.rshImm (rd : Sys2Proof.RegNum) (imm : Sys2Proof.Word) :
    Sys2Proof.Laws.FormAndFields.Statement (.rshImm rd imm) := by
  exact ⟨rfl, congrArg (Sys2Proof.Instr.rshImm rd) (Sys2Proof.Laws.imm_operand imm).1, nofun, fun _ => rfl,
    fun _ => rfl, nofun, fun _ => (Sys2Proof.Laws.imm_operand imm).2⟩

theorem Sys2Proof.Laws.FormAndFields.rshReg (rd rn : Sys2Proof.RegNum) :
    Sys2Proof.Laws.FormAndFields.Statement (.rshReg rd rn) := by
  refine ⟨rfl, ?_, ?_, ?_, ?_, ?_, ?_⟩ <;>
    simp [Sys2Proof.Instr.form, Sys2Proof.Instr.fields, Sys2Proof.Form.instr, Sys2Proof.Form.uses]

theorem Sys2Proof.Laws.FormAndFields.rshMem (rd : Sys2Proof.RegNum) (addr : Sys2Proof.Addr) :
    Sys2Proof.Laws.FormAndFields.Statement (.rshMem rd addr) := by
  refine ⟨rfl, ?_, ?_, ?_, ?_, ?_, ?_⟩ <;>
    simp [Sys2Proof.Instr.form, Sys2Proof.Instr.fields, Sys2Proof.Form.instr, Sys2Proof.Form.uses]

theorem Sys2Proof.Laws.FormAndFields.movImm (rd : Sys2Proof.RegNum) (imm : Sys2Proof.Word) :
    Sys2Proof.Laws.FormAndFields.Statement (.movImm rd imm) := by
  exact ⟨rfl, congrArg (Sys2Proof.Instr.movImm rd) (Sys2Proof.Laws.imm_operand imm).1, nofun, fun _ => rfl,
    fun _ => rfl, nofun, fun _ => (Sys2Proof.Laws.imm_operand imm).2⟩

theorem Sys2Proof.Laws.FormAndFields.movImm32 (rd rn : Sys2Proof.RegNum) (imm : Sys2Proof.DWord) :
    Sys2Proof.Laws.FormAndFields.Statement (.movImm32 rd rn imm) := by
  refine ⟨rfl, ?_, ?_, ?_, ?_, ?_, ?_⟩ <;>
    simp [Sys2Proof.Instr.form, Sys2Proof.Instr.fields, Sys2Proof.Form.instr, Sys2Proof.Form.uses]

theorem Sys2Proof.Laws.FormAndFields.movReg (rd rn : Sys2Proof.RegNum) :
    Sys2Proof.Laws.FormAndFields.Statement (.movReg rd rn) := by
  refine ⟨rfl, ?_, ?_, ?_, ?_, ?_, ?_⟩ <;>
    simp [Sys2Proof.Instr.form, Sys2Proof.Instr.fields, Sys2Proof.Form.instr, Sys2Proof.Form.uses]

theorem Sys2Proof.Laws.FormAndFields.loadLowAbs (rd : Sys2Proof.RegNum) (addr : Sys2Proof.Addr) :
    Sys2Proof.Laws.FormAndFields.Statement (.loadLowAbs rd addr) := by
  refine ⟨rfl, ?_, ?_, ?_, ?_, ?_, ?_⟩ <;>
    simp [Sys2Proof.Instr.form, Sys2Proof.Instr.fields, Sys2Proof.Form.instr, Sys2Proof.Form.uses]

theorem Sys2Proof.Laws.FormAndFields.loadHighAbs (rd : Sys2Proof.RegNum) (addr : Sys2Proof.Addr) :
    Sys2Proof.Laws.FormAndFields.Statement (.loadHighAbs rd addr) := by
  refine ⟨rfl, ?_, ?_, ?_, ?_, ?_, ?_⟩ <;>
    simp [Sys2Proof.Instr.form, Sys2Proof.Instr.fields, Sys2Proof.Form.instr, Sys2Proof.Form.uses]

theorem Sys2Proof.Laws.FormAndFields.loadWordAbs (rd : Sys2Proof.RegNum) (addr : Sys2Proof.Addr) :
    Sys2Proof.Laws.FormAndFields.Statement (.loadWordAbs rd addr) := by
  refine ⟨rfl, ?_, ?_, ?_, ?_, ?_, ?_⟩ <;>
    simp [Sys2Proof.Instr.form, Sys2Proof.Instr.fields, Sys2Proof.Form.instr, Sys2Proof.Form.uses]

theorem Sys2Proof.Laws.FormAndFields.loadPairAbs (rd rn1 : Sys2Proof.RegNum) (addr : Sys2Proof.Addr) :
    Sys2Proof.Laws.FormAndFields.Statement (.loadPairAbs rd rn1 addr) := by
  refine ⟨rfl, ?_, ?_, ?_, ?_, ?_, ?_⟩ <;>
    simp [Sys2Proof.Instr.form, Sys2Proof.Instr.fields, Sys2Proof.Form.instr, Sys2Proof.Form.uses]

theorem Sys2Proof.Laws.FormAndFields.storeLowAbs (rd : Sys2Proof.RegNum) (addr : Sys2Proof.Addr) :
    Sys2Proof.Laws.FormAndFields.Statement (.storeLowAbs rd addr) := by
  refine ⟨rfl, ?_, ?_, ?_, ?_, ?_, ?_⟩ <;>
    simp [Sys2Proof.Instr.form, Sys2Proof.Instr.fields, Sys2Proof.Form.instr, Sys2Proof.Form.uses]

theorem Sys2Proof.Laws.FormAndFields.storeHighAbs (rd : Sys2Proof.RegNum) (addr : Sys2Proof.Addr) :
    Sys2Proof.Laws.FormAndFields.Statement (.storeHighAbs rd addr) := by
  refine ⟨rfl, ?_, ?_, ?_, ?_, ?_, ?_⟩ <;>
    simp [Sys2Proof.Instr.form, Sys2Proof.Instr.fields, Sys2Proof.Form.instr, Sys2Proof.Form.uses]

theorem Sys2Proof.Laws.FormAndFields.storeWordAbs (rd : Sys2Proof.RegNum) (addr : Sys2Proof.Addr) :
    Sys2Proof.Laws.FormAndFields.Statement (.storeWordAbs rd addr) := by
  refine ⟨rfl, ?_, ?_, ?_, ?_, ?_, ?_⟩ <;>
    simp [Sys2Proof.Instr.form, Sys2Proof.Instr.fields, Sys2Proof.Form.instr, Sys2Proof.Form.uses]

theorem Sys2Proof.Laws.FormAndFields.storePairAbs (rd rn1 : Sys2Proof.RegNum) (addr : Sys2Proof.Addr) :
    Sys2Proof.Laws.FormAndFields.Statement (.storePairAbs rd rn1 addr) := by
  refine ⟨rfl, ?_, ?_, ?_, ?_, ?_, ?_⟩ <;>
    simp [Sys2Proof.Instr.form, Sys2Proof.Instr.fields, Sys2Proof.Form.instr, Sys2Proof.Form.uses]

theorem Sys2Proof.Laws.FormAndFields.loadLowRel (rd rn : Sys2Proof.RegNum) (off : Sys2Proof.DWord) :
    Sys2Proof.Laws.FormAndFields.Statement (.loadLowRel rd rn off) := by
  refine ⟨rfl, ?_, ?_, ?_, ?_, ?_, ?_⟩ <;>
    simp [Sys2Proof.Instr.form, Sys2Proof.Instr.fields, Sys2Proof.Form.instr, Sys2Proof.Form.uses]

theorem Sys2Proof.Laws.FormAndFields.loadHighRel (rd rn : Sys2Proof.RegNum) (off : Sys2Proof.DWord) :
    Sys2Proof.Laws.FormAndFields.Statement (.loadHighRel rd rn off) := by
  refine ⟨rfl, ?_, ?_, ?_, ?_, ?_, ?_⟩ <;>
    simp [Sys2Proof.Instr.form, Sys2Proof.Instr.fields, Sys2Proof.Form.instr, Sys2Proof.Form.uses]

theorem Sys2Proof.Laws.FormAndFields.loadWordRel (rd rn : Sys2Proof.RegNum) (off : Sys2Proof.DWord) :
    Sys2Proof.Laws.FormAndFields.Statement (.loadWordRel rd rn off) := by
  refine ⟨rfl, ?_, ?_, ?_, ?_, ?_, ?_⟩ <;>
    simp [Sys2Proof.Instr.form, Sys2Proof.Instr.fields, Sys2Proof.Form.instr, Sys2Proof.Form.uses]

theorem Sys2Proof.Laws.FormAndFields.loadPairRel (rd rn rn1 : Sys2Proof.RegNum) (off : Sys2Proof.DWord) :
    Sys2Proof.Laws.FormAndFields.Statement (.loadPairRel rd rn rn1 off) := by
  refine ⟨rfl, ?_, ?_, ?_, ?_, ?_, ?_⟩ <;>
    simp [Sys2Proof.Instr.form, Sys2Proof.Instr.fields, Sys2Proof.Form.instr, Sys2Proof.Form.uses]

theorem Sys2Proof.Laws.FormAndFields.storeLowRel (rd rn : Sys2Proof.RegNum) (off : Sys2Proof.DWord) :
    Sys2Proof.Laws.FormAndFields.Statement (.storeLowRel rd rn off) := by
  refine ⟨rfl, ?_, ?_, ?_, ?_, ?_, ?_⟩ <;>
    simp [Sys2Proof.Instr.form, Sys2Proof.Instr.fields, Sys2Proof.Form.instr, Sys2Proof.Form.uses]

theorem Sys2Proof.Laws.FormAndFields.storeHighRel (rd rn : Sys2Proof.RegNum) (off : Sys2Proof.DWord) :
    Sys2Proof.Laws.FormAndFields.Statement (.storeHighRel rd rn off) := by
  refine ⟨rfl, ?_, ?_, ?_, ?_, ?_, ?_⟩ <;>
    simp [Sys2Proof.Instr.form, Sys2Proof.Instr.fields, Sys2Proof.Form.instr, Sys2Proof.Form.uses]

theorem Sys2Proof.Laws.FormAndFields.storeWordRel (rd rn : Sys2Proof.RegNum) (off : Sys2Proof.DWord) :
    Sys2Proof.Laws.FormAndFields.Statement (.storeWordRel rd rn off) := by
  refine ⟨rfl, ?_, ?_, ?_, ?_, ?_, ?_⟩ <;>
    simp [Sys2Proof.Instr.form, Sys2Proof.Instr.fields, Sys2Proof.Form.instr, Sys2Proof.Form.uses]

theorem Sys2Proof.Laws.FormAndFields.storePairRel (rd rn rn1 : Sys2Proof.RegNum) (off : Sys2Proof.DWord) :
    Sys2Proof.Laws.FormAndFields.Statement (.storePairRel rd rn rn1 off) := by
  refine ⟨rfl, ?_, ?_, ?_, ?_, ?_, ?_⟩ <;>
    simp [Sys2Proof.Instr.form, Sys2Proof.Instr.fields, Sys2Proof.Form.instr, Sys2Proof.Form.uses]

theorem Sys2Proof.Laws.FormAndFields.b (label : Sys2Proof.Addr) :
    Sys2Proof.Laws.FormAndFields.Statement (.b label) := by
  refine ⟨rfl, ?_, ?_, ?_, ?_, ?_, ?_⟩ <;>
    simp [Sys2Proof.Instr.form, Sys2Proof.Instr.fields, Sys2Proof.Form.instr, Sys2Proof.Form.uses]

theorem Sys2Proof.Laws.FormAndFields.be (rd rn : Sys2Proof.RegNum) (label : Sys2Proof.Addr) :
    Sys2Proof.Laws.FormAndFields.Statement (.be rd rn label) := by
  refine ⟨rfl, ?_, ?_, ?_, ?_, ?_, ?_⟩ <;>
    simp [Sys2Proof.Instr.form, Sys2Proof.Instr.fields, Sys2Proof.Form.instr, Sys2Proof.Form.uses]

theorem Sys2Proof.Laws.FormAndFields.bne (rd rn : Sys2Proof.RegNum) (label : Sys2Proof.Addr) :
    Sys2Proof.Laws.FormAndFields.Statement (.bne rd rn label) := by
  refine ⟨rfl, ?_, ?_, ?_, ?_, ?_, ?_⟩ <;>
    simp [Sys2Proof.Instr.form, Sys2Proof.Instr.fields, Sys2Proof.Form.instr, Sys2Proof.Form.uses]

theorem Sys2Proof.Laws.FormAndFields.blt (rd rn : Sys2Proof.RegNum) (label : Sys2Proof.Addr) :
    Sys2Proof.Laws.FormAndFields.Statement (.blt rd rn label) := by
  refine ⟨rfl, ?_, ?_, ?_, ?_, ?_, ?_⟩ <;>
    simp [Sys2Proof.Instr.form, Sys2Proof.Instr.fields, Sys2Proof.Form.instr, Sys2Proof.Form.uses]

theorem Sys2Proof.Laws.FormAndFields.bgt (rd rn : Sys2Proof.RegNum) (label : Sys2Proof.Addr) :
    Sys2Proof.Laws.FormAndFields.Statement (.bgt rd rn label) := by
  refine ⟨rfl, ?_, ?_, ?_, ?_, ?_, ?_⟩ <;>
    simp [Sys2Proof.Instr.form, Sys2Proof.Instr.fields, Sys2Proof.Form.instr, Sys2Proof.Form.uses]

theorem Sys2Proof.Laws.FormAndFields.bro (label : Sys2Proof.Addr) :
    Sys2Proof.Laws.FormAndFields.Statement (.bro label) := by
  refine ⟨rfl, ?_, ?_, ?_, ?_, ?_, ?_⟩ <;>
    simp [Sys2Proof.Instr.form, Sys2Proof.Instr.fields, Sys2Proof.Form.instr, Sys2Proof.Form.uses]
end

