-- ==== Sys2Proof/Tests/Slice0.lean ====
section
/-! SUPPORT. The model's own tests: the refusals of WellFormed; the encodings and the refusals of Decode; the vectors of
95_test_vectors, at most two for each form; the assembler; and for each obligation with hypotheses a theorem
`test_meets_<Obligation>` that shows states and operands meeting them. Expected results are the spec's. -/

open Sys2Proof Sys2Proof.Machine Sys2Proof.Claims

namespace Sys2Proof.Tests

/-! ### Helpers -/

/-- The start state of 95_test_vectors section 0: the text at 0x1000, `DATA_MAP` 0x2000 to 0x7FFF, with some registers,
`OV` and some data bytes. -/
def before (text : List Byte) (regs : List (RegNum × Word)) (ov : Bool) (data : List (Nat × List Byte)) : State :=
  let s := { State.reset with
    ov := ov
    mem := data.foldl (fun m x => m.writeBytes x.1 x.2) []
    launch := { progBase := 0x1000, prog := text, dataMap := [{ base := 0x2000, size := 0x6000 }] } }
  regs.foldl (fun s x => writeReg s x.1 x.2) s

/-- The same with another `DATA_MAP`. -/
def withData (base size : Nat) (s : State) : State :=
  { s with launch := { s.launch with dataMap := [{ base := base, size := size }] } }

/-- The same with another `NREGS`. -/
def withNregs (n : Nat) (s : State) : State := { s with params := { s.params with nregs := n } }

/-- The same under `BYTE_ORDER` big. -/
def bigEndian (s : State) : State := { s with params := { s.params with byteOrder := .big } }

/-- The same under other parameters. -/
def under (p : Params) (s : State) : State := { s with params := p }

/-- The reference parameters with another `NREGS`. -/
def registers (n : Nat) : Params := { Config.reference with nregs := n }

/-- The reference parameters with `BYTE_ORDER` big. -/
def bigReference : Params := { Config.reference with byteOrder := .big }

/-- The reference parameters with data accesses at any address. -/
def anyAlignment : Params := { Config.reference with misaligned := .perform }

/-- The reference parameters with an Offset of 16 bits. -/
def shortOffset : Params := { Config.reference with offLen := 16 }

/-- Parameters with another `ENC_LAYOUT` and `LEN`: rn, rd, specifier, opcode in this order; every form 12 bytes long,
rn1 in byte 4 and the operand field in the last four bytes; `IALIGN` 4. -/
def otherLayout : Params :=
  { Config.reference with
    ialign := 4
    layout := {
      opcode := 3
      spec := 2
      forms := List.replicate 50 { length := 12, rd := 1, rn := 0, rn1 := 4, operand := 8 } } }

/-- Running at `pc`, with these registers, this `OV` and these data bytes. -/
def after (pc : Addr) (regs : List (RegNum × Word)) (ov : Option Bool) (data : List (Nat × List Byte)) (t : State) :
    Bool :=
  t.status == .running && t.pc == pc && regs.all (fun x => readReg t x.1 == x.2) && ov.all (t.ov == ·) &&
    data.all fun x => (List.range x.2.length).all fun k => some (t.mem.read (x.1 + k)) == x.2[k]?

/-- Faulted with `f`, `pc` and the rest as in `s`; of the registers the first four are looked at. -/
def faults (s : State) (f : Fault) (t : State) : Bool :=
  t.status == .faulted f && t.pc == s.pc && t.ov == s.ov && t.mem == s.mem &&
    [0, 1, 2, 3].all fun r => readReg t r == readReg s r

/-- After `n` steps, all of them to a next state, `check` holds. -/
def runs (n : Nat) (s : State) (check : State → Bool) : Bool :=
  match stateAfter n s with
  | some t => check t
  | none => false

/-! ### WellFormed: what each check refuses -/

/-- 10_state R22: a used register number of `NREGS` or more, in each of the fields rd, rn, rn1; V-DEC-16 completes. An
Offset that does not fit `OFFLEN`, and one that does (30_encoding R85). -/
theorem test_instr_wf :
    (Instr.addImm 16 5).wf (registers 16) = false ∧ (Instr.addImm 16 5).wf (registers 17) = true ∧
      (Instr.be 1 17 0).wf (registers 16) = false ∧
      (Instr.loadPairRel 1 3 32 0x30).wf (registers 16) = false ∧ Instr.nop.wf (registers 4) = true ∧
      (Instr.loadLowRel 1 3 0x10000).wf shortOffset = false ∧ (Instr.loadLowRel 1 3 0xFFFF).wf shortOffset = true ∧
      (Instr.loadLowAbs 1 0x10000).wf shortOffset = true := by decide

/-- 20_memory R56: `PROG_BASE` odd, a length that is odd, `PROG_END` of 2^32; a text that ends at 2^32 - 2 is good. -/
theorem test_launch_wf :
    ({ progBase := 0x1001, prog := [], dataMap := [] } : Launch).wf 2 = false ∧
      ({ progBase := 0x1000, prog := [0], dataMap := [] } : Launch).wf 2 = false ∧
      ({ progBase := 0xFFFFFFFC, prog := [0, 0, 0, 0], dataMap := [] } : Launch).wf 2 = false ∧
      ({ progBase := 0xFFFFFFFC, prog := [0, 0], dataMap := [] } : Launch).wf 2 = true := by decide

/-- 10_state R21: 4 ≤ `NREGS` ≤ 256. -/
theorem test_params_wf :
    { Config.reference with nregs := 3 }.wf = false ∧ { Config.reference with nregs := 257 }.wf = false ∧
      { Config.reference with nregs := 4 }.wf = true ∧ Config.reference.wf = true := by decide

/-- `IALIGN` 0, 3 and 8; `OFFLEN` 0, 12 and 40; and good ones. -/
theorem test_params_wf_widths :
    { Config.reference with ialign := 0 }.wf = false ∧ { Config.reference with ialign := 3 }.wf = false ∧
      { Config.reference with ialign := 8 }.wf = false ∧ { Config.reference with ialign := 1 }.wf = true ∧
      { Config.reference with offLen := 0 }.wf = false ∧ { Config.reference with offLen := 12 }.wf = false ∧
      { Config.reference with offLen := 40 }.wf = false ∧ shortOffset.wf = true ∧ anyAlignment.wf = true := by decide

/-- A layout: opcode outside the header; opcode and specifier on one byte; a table that is too short; a form shorter
than its fields; lengths that are no multiple of `IALIGN`; and a good one. -/
theorem test_params_wf_layout :
    { Config.reference with layout := { Config.layout with opcode := 4 } }.wf = false ∧
      { Config.reference with layout := { Config.layout with spec := 0 } }.wf = false ∧
      { Config.reference with layout := { Config.layout with forms := Config.layout.forms.take 49 } }.wf = false ∧
      { Config.reference with layout := { Config.layout with forms := List.replicate 50 Config.formatI } }.wf = false ∧
      { Config.reference with ialign := 4 }.wf = false ∧ otherLayout.wf = true := by decide

/-- A step of a machine whose launch breaks a condition is refused. -/
theorem test_step_refuses_launch :
    step (before [0x00] [] false []) = .refused .illFormedLaunch ∧
      step (withNregs 3 (before [0x00, 0x00, 0x00, 0x00] [] false [])) = .refused .illFormedLaunch := ⟨rfl, rfl⟩

/-! ### Decode: every constructor, on bytes written out from its encoding -/

/-- The bytes decode to the instruction, and the instruction encodes to the bytes. -/
def pairsWith (pairs : List (List Byte × Instr)) : Bool :=
  pairs.all fun x => 
    (match decode Config.reference x.1 with | .ok i => i == x.2 | .error _ => false) &&
      encode Config.reference x.2 == x.1

/-- 41_alu R135 to R165 and 40_nop R120, each form's own example. -/
theorem test_decode_alu :
    pairsWith [
      ([0x00, 0x00, 0x00, 0x00], .nop),
      ([0x01, 0x00, 0x01, 0x00, 0x34, 0x12], .addImm 1 0x1234),
      ([0x01, 0x01, 0x01, 0x02], .addReg 1 2),
      ([0x01, 0x02, 0x01, 0x00, 0x78, 0x56, 0x34, 0x12], .addMem 1 0x12345678),
      ([0x02, 0x00, 0x01, 0x00, 0x34, 0x12], .subImm 1 0x1234),
      ([0x02, 0x01, 0x01, 0x02], .subReg 1 2),
      ([0x02, 0x02, 0x01, 0x00, 0x78, 0x56, 0x34, 0x12], .subMem 1 0x12345678),
      ([0x03, 0x00, 0x01, 0x00, 0x34, 0x12], .mulImm 1 0x1234),
      ([0x03, 0x01, 0x01, 0x02], .mulReg 1 2),
      ([0x03, 0x02, 0x01, 0x00, 0x78, 0x56, 0x34, 0x12], .mulMem 1 0x12345678),
      ([0x04, 0x00, 0x01, 0x00, 0x34, 0x12], .andImm 1 0x1234),
      ([0x04, 0x01, 0x01, 0x02], .andReg 1 2),
      ([0x04, 0x02, 0x01, 0x00, 0x78, 0x56, 0x34, 0x12], .andMem 1 0x12345678),
      ([0x05, 0x00, 0x01, 0x00, 0x34, 0x12], .orImm 1 0x1234),
      ([0x05, 0x01, 0x01, 0x02], .orReg 1 2),
      ([0x05, 0x02, 0x01, 0x00, 0x78, 0x56, 0x34, 0x12], .orMem 1 0x12345678),
      ([0x06, 0x00, 0x01, 0x00, 0x34, 0x12], .xorImm 1 0x1234),
      ([0x06, 0x01, 0x01, 0x02], .xorReg 1 2),
      ([0x06, 0x02, 0x01, 0x00, 0x78, 0x56, 0x34, 0x12], .xorMem 1 0x12345678),
      ([0x07, 0x00, 0x01, 0x00, 0x34, 0x12], .lshImm 1 0x1234),
      ([0x07, 0x01, 0x01, 0x02], .lshReg 1 2),
      ([0x07, 0x02, 0x01, 0x00, 0x78, 0x56, 0x34, 0x12], .lshMem 1 0x12345678),
      ([0x08, 0x00, 0x01, 0x00, 0x34, 0x12], .rshImm 1 0x1234),
      ([0x08, 0x01, 0x01, 0x02], .rshReg 1 2),
      ([0x08, 0x02, 0x01, 0x00, 0x78, 0x56, 0x34, 0x12], .rshMem 1 0x12345678)] = true := by decide

/-- The mov lines of 95_test_vectors section 1. -/
theorem test_decode_mov :
    pairsWith [
      ([0x09, 0x00, 0x01, 0x00, 0x34, 0x12], .movImm 1 0x1234),
      ([0x09, 0x01, 0x01, 0x02, 0xEF, 0xBE, 0xAD, 0xDE], .movImm32 1 2 0xDEADBEEF),
      ([0x09, 0x02, 0x01, 0x02], .movReg 1 2),
      ([0x09, 0x03, 0x01, 0x00, 0x00, 0x20, 0x00, 0x00], .loadLowAbs 1 0x2000),
      ([0x09, 0x04, 0x01, 0x00, 0x01, 0x20, 0x00, 0x00], .loadHighAbs 1 0x2001),
      ([0x09, 0x05, 0x01, 0x00, 0x00, 0x30, 0x00, 0x00], .loadWordAbs 1 0x3000),
      ([0x09, 0x06, 0x01, 0x00, 0x02, 0x00, 0x00, 0x40, 0x00, 0x00], .loadPairAbs 1 2 0x4000),
      ([0x09, 0x07, 0x01, 0x00, 0x00, 0x50, 0x00, 0x00], .storeLowAbs 1 0x5000),
      ([0x09, 0x08, 0x01, 0x00, 0x01, 0x50, 0x00, 0x00], .storeHighAbs 1 0x5001),
      ([0x09, 0x09, 0x01, 0x00, 0x00, 0x60, 0x00, 0x00], .storeWordAbs 1 0x6000),
      ([0x09, 0x0A, 0x01, 0x00, 0x02, 0x00, 0x00, 0x70, 0x00, 0x00], .storePairAbs 1 2 0x7000),
      ([0x09, 0x0B, 0x01, 0x03, 0x10, 0x00, 0x00, 0x00], .loadLowRel 1 3 0x10),
      ([0x09, 0x0C, 0x01, 0x03, 0x10, 0x00, 0x00, 0x00], .loadHighRel 1 3 0x10),
      ([0x09, 0x0D, 0x01, 0x03, 0x20, 0x00, 0x00, 0x00], .loadWordRel 1 3 0x20),
      ([0x09, 0x0E, 0x01, 0x03, 0x02, 0x00, 0x30, 0x00, 0x00, 0x00], .loadPairRel 1 3 2 0x30),
      ([0x09, 0x0F, 0x01, 0x03, 0x40, 0x00, 0x00, 0x00], .storeLowRel 1 3 0x40),
      ([0x09, 0x10, 0x01, 0x03, 0x40, 0x00, 0x00, 0x00], .storeHighRel 1 3 0x40),
      ([0x09, 0x11, 0x01, 0x03, 0x50, 0x00, 0x00, 0x00], .storeWordRel 1 3 0x50),
      ([0x09, 0x12, 0x01, 0x03, 0x02, 0x00, 0x60, 0x00, 0x00, 0x00], .storePairRel 1 3 2 0x60)] = true := by decide

/-- The branch lines of 95_test_vectors section 1. -/
theorem test_decode_branch :
    pairsWith [
      ([0x0A, 0x00, 0x00, 0x00, 0x20, 0x10, 0x00, 0x00], .b 0x1020),
      ([0x0B, 0x00, 0x01, 0x02, 0x20, 0x10, 0x00, 0x00], .be 1 2 0x1020),
      ([0x0C, 0x00, 0x01, 0x02, 0x20, 0x10, 0x00, 0x00], .bne 1 2 0x1020),
      ([0x0D, 0x00, 0x01, 0x02, 0x20, 0x10, 0x00, 0x00], .blt 1 2 0x1020),
      ([0x0E, 0x00, 0x01, 0x02, 0x20, 0x10, 0x00, 0x00], .bgt 1 2 0x1020),
      ([0x0F, 0x00, 0x00, 0x00, 0x20, 0x10, 0x00, 0x00], .bro 0x1020)] = true := by decide

/-- What decode refuses, by name (30_encoding R90, R96 to R98; 90_conflicts C3). -/
theorem test_decode_refuses :
    decode Config.reference [0x10, 0x00, 0x00, 0x00] = .error (.undefinedForm 0x10 0x00) ∧
      decode Config.reference [0x03, 0x03, 0x01, 0x02] = .error (.undefinedForm 0x03 0x03) ∧
      decode Config.reference [0x09, 0x13, 0x01, 0x00] = .error (.undefinedForm 0x09 0x13) ∧
      decode Config.reference [0x0B, 0x01, 0x01, 0x02] = .error (.undefinedForm 0x0B 0x01) ∧
      decode Config.reference [0x09, 0x06, 0x01, 0x00, 0x02, 0x01, 0, 0, 0, 0] = .error (.unusedNotZero 0x09 0x06) ∧
      decode Config.reference [0x01, 0x00, 0x01, 0x02] = .error (.shortBody 0x01 0x00) ∧
      decode Config.reference [0x00, 0x00] = .error .shortHeader := by decide

/-- `BYTE_ORDER` big (20_memory R53, 30_encoding R86): the operand fields with their most significant byte first. -/
theorem test_decode_big :
    decode bigReference [0x01, 0x00, 0x01, 0x00, 0x12, 0x34] = .ok (.addImm 1 0x1234) ∧
      decode bigReference [0x09, 0x0E, 0x01, 0x03, 0x02, 0x00, 0x00, 0x00, 0x00, 0x30] =
        .ok (.loadPairRel 1 3 2 0x30) := by
  decide

/-- `BYTE_ORDER` big in a step: a fetched field, a 32-bit store and a 16-bit load (20_memory R53, D23). -/
theorem test_step_big :
    runs 1 (bigEndian (before [0x09, 0x0A, 0x01, 0x00, 0x02, 0x00, 0x00, 0x00, 0x70, 0x00] [(1, 0xDEAD), (2, 0xBEEF)]
      false [])) (after 0x100A [] none [(0x7000, [0xDE, 0xAD, 0xBE, 0xEF])]) ∧
      runs 1 (bigEndian (before [0x09, 0x05, 0x01, 0x00, 0x00, 0x00, 0x30, 0x00] [] false [(0x3000, [0x12, 0x34])]))
        (after 0x1008 [(1, 0x1234)] none []) := by decide

/-- Another `ENC_LAYOUT` and `LEN`: fields at their places, other bytes zero; and what decode refuses there. -/
theorem test_decode_other_layout :
    encode otherLayout (.loadPairRel 1 3 2 0x12345678) = [3, 1, 0x0E, 9, 2, 0, 0, 0, 0x78, 0x56, 0x34, 0x12] ∧
      decode otherLayout [3, 1, 0x0E, 9, 2, 0, 0, 0, 0x78, 0x56, 0x34, 0x12] = .ok (.loadPairRel 1 3 2 0x12345678) ∧
      encode otherLayout (.addImm 1 0x1234) = [0, 1, 0, 1, 0, 0, 0, 0, 0x34, 0x12, 0, 0] ∧
      decode otherLayout [0, 1, 0, 1, 0, 0, 0, 0, 0x34, 0x12, 1, 0] = .error (.unusedNotZero 1 0) ∧
      decode otherLayout [0, 1, 0, 1, 0, 0, 0, 0] = .error (.shortBody 1 0) := by decide

/-- The same in a step, of an instruction that does not branch and of one that does not branch away. -/
theorem test_step_other_layout :
    runs 1 (under otherLayout (before [0, 1, 0, 1, 0, 0, 0, 0, 0x34, 0x12, 0, 0] [(1, 1)] false []))
        (after 0x100C [(1, 0x1235)] none []) ∧
      runs 1 (under otherLayout (before [1, 1, 0, 0x0C, 0, 0, 0, 0, 0x20, 0x10, 0, 0] [] false []))
        (after 0x100C [] none []) := by decide

/-- `OFFLEN` 16: the Offset has two bytes, the two behind them are unused, and the sum is one of 32 bits. -/
theorem test_offset_16 :
    encode shortOffset (.loadLowRel 1 3 0xFFFE) = [9, 0x0B, 1, 3, 0xFE, 0xFF, 0, 0] ∧
      decode shortOffset [9, 0x0B, 1, 3, 0xFE, 0xFF, 1, 0] = .error (.unusedNotZero 9 0x0B) ∧
      runs 1 (under shortOffset (withData 0x10000 0x10000
        (before [9, 0x0B, 1, 3, 0xFE, 0xFF, 0, 0] [(3, 0x0010)] false [(0x1000E, [0x7F])])))
        (after 0x1008 [(1, 0x007F)] none []) := by decide

/-- `MISALIGNED_POLICY` perform: V-ALUF-1 and V-MOVF-4 complete; a pair that runs past 0xFFFFFFFF does not. -/
theorem test_misaligned_perform :
    runs 1 (under anyAlignment (before [0x01, 0x02, 0x01, 0x00, 0x01, 0x20, 0x00, 0x00] [(1, 1)] true
        [(0x2001, [0x34, 0x12])])) (after 0x1008 [(1, 0x1235)] (some false) []) ∧
      runs 1 (under anyAlignment (before [0x09, 0x0A, 0x01, 0x00, 0x02, 0x00, 0x02, 0x70, 0x00, 0x00]
        [(1, 0xDEAD), (2, 0xBEEF)] false [])) (after 0x100A [] none [(0x7002, [0xEF, 0xBE, 0xAD, 0xDE])]) ∧
      (let s := under anyAlignment
        (withData 0 (2 ^ 33) (before [0x09, 0x05, 0x01, 0x00, 0xFF, 0xFF, 0xFF, 0xFF] [] false []));
      runs 1 s (faults s (.accessFault 0xFFFFFFFF 2))) := by decide

/-- `IALIGN` 1: an odd branch target is fetched; `IALIGN` 4: one that is 2 mod 4 is not. -/
theorem test_ialign :
    runs 2 (under { Config.reference with ialign := 1 }
        (before [0x0A, 0, 0, 0, 0x09, 0x10, 0, 0, 0, 0, 0, 0, 0] [] false [])) (after 0x100D [] none []) ∧
      runs 2 (under otherLayout (before [0, 0, 0, 0x0A, 0, 0, 0, 0, 0x02, 0x10, 0, 0] [] false []))
        (fun t => t.status == .faulted (.fetchMisaligned 0x1002)) := by decide

/-- Words numbered as spec/opcode_table.json numbers them (30_encoding R95): the header is the first word, its opcode
the most significant byte; the bits above are 0. A header alone, a whole instruction, a word that is refused. -/
theorem test_table_words :
    decodeTableWord 32 0x01000100 = some (.addImm 1 0) ∧
      decodeTableWord 48 0x123401000100 = some (.addImm 1 0x1234) ∧
      decodeTableWord 80 0x00000030010209120103 = none ∧
      decodeTableWord 80 0x000000300002090E0103 = some (.loadPairRel 1 3 2 0x30) ∧
      decodeTableWord 64 0x00001020 = none ∧ decodeTableWord 64 0x000010200B000102 = some (.be 1 2 0x1020) := by decide

/-- The same words run as the first instruction after reset. -/
theorem test_table_words_run :
    runs 1 (State.reset.withFetchWord 48 0x123401000100) (after 0x1006 [(1, 0x1234)] (some false) []) ∧
      runs 1 (State.reset.withFetchWord 64 0x000010200B000102) (after 0x1020 [] none []) := by decide

/-! ### One step: nop -/

/-- V-NOP-1: `nop`, nothing changes but pc (+4). -/
theorem test_V_NOP_1 :
    runs 1 (before [0x00, 0x00, 0x00, 0x00] [(1, 0x1234)] true [])
      (after 0x00001004 [(1, 0x1234)] (some true) []) := by decide

/-! ### One step: alu -/

/-- V-ADD-4: `add 1, #0x0001`, wraps to 0; carry out sets OV. -/
theorem test_V_ADD_4 :
    runs 1 (before [0x01, 0x00, 0x01, 0x00, 0x01, 0x00] [(1, 0xFFFF)] false [])
      (after 0x00001006 [(1, 0x0000)] (some true) []) := by decide

/-- V-ADD-5: `add 1, #0x0001`, no unsigned carry: OV cleared (not a two's-complement overflow flag). -/
theorem test_V_ADD_5 :
    runs 1 (before [0x01, 0x00, 0x01, 0x00, 0x01, 0x00] [(1, 0x7FFF)] true [])
      (after 0x00001006 [(1, 0x8000)] (some false) []) := by decide

/-- V-ADD-2: `add 1, 2`, form 01, 4 bytes; x[2] unchanged. -/
theorem test_V_ADD_2 :
    runs 1 (before [0x01, 0x01, 0x01, 0x02] [(1, 0x1234), (2, 0x1111)] false [])
      (after 0x00001004 [(1, 0x2345), (2, 0x1111)] (some false) []) := by decide

/-- V-ADD-7: `add 1, 1`, rd = rn: both operands are the old value. -/
theorem test_V_ADD_7 :
    runs 1 (before [0x01, 0x01, 0x01, 0x01] [(1, 0x8001)] false [])
      (after 0x00001004 [(1, 0x0002)] (some true) []) := by decide

/-- V-ADD-3: `add 1, [0x2000]`, form 02, 8 bytes; memory not changed. -/
theorem test_V_ADD_3 :
    runs 1 (before [0x01, 0x02, 0x01, 0x00, 0x00, 0x20, 0x00, 0x00] [(1, 0x1000)] false [(0x2000, [0x34, 0x12])])
      (after 0x00001008 [(1, 0x2234)] (some false) []) := by decide

/-- V-SUB-4: `sub 1, #0x0001`, borrow: wraps to 0xFFFF, OV set. -/
theorem test_V_SUB_4 :
    runs 1 (before [0x02, 0x00, 0x01, 0x00, 0x01, 0x00] [(1, 0x0000)] false [])
      (after 0x00001006 [(1, 0xFFFF)] (some true) []) := by decide

/-- V-SUB-7: `sub 1, 2`, 1 − 65535 = 2 mod 65536; borrow. -/
theorem test_V_SUB_7 :
    runs 1 (before [0x02, 0x01, 0x01, 0x02] [(1, 0x0001), (2, 0xFFFF)] false [])
      (after 0x00001004 [(1, 0x0002), (2, 0xFFFF)] (some true) []) := by decide

/-- V-SUB-5: `sub 1, 1`, a − a = 0, no borrow. -/
theorem test_V_SUB_5 :
    runs 1 (before [0x02, 0x01, 0x01, 0x01] [(1, 0x1234)] true [])
      (after 0x00001004 [(1, 0x0000)] (some false) []) := by decide

/-- V-SUB-3: `sub 1, [0x2000]`. -/
theorem test_V_SUB_3 :
    runs 1 (before [0x02, 0x02, 0x01, 0x00, 0x00, 0x20, 0x00, 0x00] [(1, 0x2234)] false [(0x2000, [0x34, 0x12])])
      (after 0x00001008 [(1, 0x1000)] (some false) []) := by decide

/-- V-ALUF-4: `sub 1, [0x7FFE]`, last aligned pair of DATA_MAP: no fault. -/
theorem test_V_ALUF_4 :
    runs 1 (before [0x02, 0x02, 0x01, 0x00, 0xFE, 0x7F, 0x00, 0x00] [(1, 0x0005)] false [(0x7FFE, [0x02, 0x00])])
      (after 0x00001008 [(1, 0x0003)] (some false) []) := by decide

/-- V-MUL-6: `mul 1, #0x0101`, 0xFFFF fits: OV cleared. -/
theorem test_V_MUL_6 :
    runs 1 (before [0x03, 0x00, 0x01, 0x00, 0x01, 0x01] [(1, 0x00FF)] true [])
      (after 0x00001006 [(1, 0xFFFF)] (some false) []) := by decide

/-- V-MUL-4: `mul 1, 2`, 0xFFFE0001 truncated to 0x0001. -/
theorem test_V_MUL_4 :
    runs 1 (before [0x03, 0x01, 0x01, 0x02] [(1, 0xFFFF), (2, 0xFFFF)] false [])
      (after 0x00001004 [(1, 0x0001), (2, 0xFFFF)] (some true) []) := by decide

/-- V-MUL-5: `mul 1, 1`, rd = rn squares; 0x010201 truncated to 0x0201. -/
theorem test_V_MUL_5 :
    runs 1 (before [0x03, 0x01, 0x01, 0x01] [(1, 0x0101)] false [])
      (after 0x00001004 [(1, 0x0201)] (some true) []) := by decide

/-- V-MUL-3: `mul 1, [0x2000]`, product 0x12340 truncated. -/
theorem test_V_MUL_3 :
    runs 1 (before [0x03, 0x02, 0x01, 0x00, 0x00, 0x20, 0x00, 0x00] [(1, 0x1234)] false [(0x2000, [0x10, 0x00])])
      (after 0x00001008 [(1, 0x2340)] (some true) []) := by decide

/-- V-AND-1: `and 1, #0x0F0F`, OV not touched. -/
theorem test_V_AND_1 :
    runs 1 (before [0x04, 0x00, 0x01, 0x00, 0x0F, 0x0F] [(1, 0x1234)] true [])
      (after 0x00001006 [(1, 0x0204)] (some true) []) := by decide

/-- V-AND-2: `and 1, 2`. -/
theorem test_V_AND_2 :
    runs 1 (before [0x04, 0x01, 0x01, 0x02] [(1, 0xFF00), (2, 0x0FF0)] false [])
      (after 0x00001004 [(1, 0x0F00), (2, 0x0FF0)] (some false) []) := by decide

/-- V-AND-3: `and 1, [0x2000]`. -/
theorem test_V_AND_3 :
    runs 1 (before [0x04, 0x02, 0x01, 0x00, 0x00, 0x20, 0x00, 0x00] [(1, 0xFFFF)] false [(0x2000, [0x34, 0x12])])
      (after 0x00001008 [(1, 0x1234)] none []) := by decide

/-- V-OR-1: `or 1, #0x0F0F`, OV not touched. -/
theorem test_V_OR_1 :
    runs 1 (before [0x05, 0x00, 0x01, 0x00, 0x0F, 0x0F] [(1, 0x1234)] true [])
      (after 0x00001006 [(1, 0x1F3F)] (some true) []) := by decide

/-- V-OR-2: `or 1, 2`. -/
theorem test_V_OR_2 :
    runs 1 (before [0x05, 0x01, 0x01, 0x02] [(1, 0xFF00), (2, 0x0FF0)] false [])
      (after 0x00001004 [(1, 0xFFF0), (2, 0x0FF0)] none []) := by decide

/-- V-OR-3: `or 1, [0x2000]`. -/
theorem test_V_OR_3 :
    runs 1 (before [0x05, 0x02, 0x01, 0x00, 0x00, 0x20, 0x00, 0x00] [(1, 0x8000)] false [(0x2000, [0x34, 0x12])])
      (after 0x00001008 [(1, 0x9234)] none []) := by decide

/-- V-XOR-1: `xor 1, #0x0F0F`, OV not touched. -/
theorem test_V_XOR_1 :
    runs 1 (before [0x06, 0x00, 0x01, 0x00, 0x0F, 0x0F] [(1, 0x1234)] true [])
      (after 0x00001006 [(1, 0x1D3B)] (some true) []) := by decide

/-- V-XOR-2: `xor 1, 2`. -/
theorem test_V_XOR_2 :
    runs 1 (before [0x06, 0x01, 0x01, 0x02] [(1, 0xFF00), (2, 0x0FF0)] false [])
      (after 0x00001004 [(1, 0xF0F0), (2, 0x0FF0)] none []) := by decide

/-- V-XOR-3: `xor 1, [0x2000]`, a XOR a = 0. -/
theorem test_V_XOR_3 :
    runs 1 (before [0x06, 0x02, 0x01, 0x00, 0x00, 0x20, 0x00, 0x00] [(1, 0x1234)] false [(0x2000, [0x34, 0x12])])
      (after 0x00001008 [(1, 0x0000)] none []) := by decide

/-- V-LSH-5: `lsh 1, #0x000F`, largest amount below 16. -/
theorem test_V_LSH_5 :
    runs 1 (before [0x07, 0x00, 0x01, 0x00, 0x0F, 0x00] [(1, 0x0001)] false [])
      (after 0x00001006 [(1, 0x8000)] none []) := by decide

/-- V-LSH-6: `lsh 1, #0x0010`, amount 16 gives 0 (a 4-bit-masking machine would give 0xFFFF). -/
theorem test_V_LSH_6 :
    runs 1 (before [0x07, 0x00, 0x01, 0x00, 0x10, 0x00] [(1, 0xFFFF)] false [])
      (after 0x00001006 [(1, 0x0000)] none []) := by decide

/-- V-LSH-2: `lsh 1, 2`, bit 15 shifted out; OV stays 0. -/
theorem test_V_LSH_2 :
    runs 1 (before [0x07, 0x01, 0x01, 0x02] [(1, 0x8001), (2, 0x0001)] false [])
      (after 0x00001004 [(1, 0x0002), (2, 0x0001)] (some false) []) := by decide

/-- V-LSH-8: `lsh 1, 1`, rd = rn: 3 shifted by 3. -/
theorem test_V_LSH_8 :
    runs 1 (before [0x07, 0x01, 0x01, 0x01] [(1, 0x0003)] false [])
      (after 0x00001004 [(1, 0x0018)] none []) := by decide

/-- V-LSH-3: `lsh 1, [0x2000]`. -/
theorem test_V_LSH_3 :
    runs 1 (before [0x07, 0x02, 0x01, 0x00, 0x00, 0x20, 0x00, 0x00] [(1, 0x00FF)] false [(0x2000, [0x08, 0x00])])
      (after 0x00001008 [(1, 0xFF00)] none []) := by decide

/-- V-RSH-4: `rsh 1, #0x0001`, logical (arithmetic would give 0xC000). -/
theorem test_V_RSH_4 :
    runs 1 (before [0x08, 0x00, 0x01, 0x00, 0x01, 0x00] [(1, 0x8001)] false [])
      (after 0x00001006 [(1, 0x4000)] none []) := by decide

/-- V-RSH-6: `rsh 1, #0x0010`, amount 16 gives 0. -/
theorem test_V_RSH_6 :
    runs 1 (before [0x08, 0x00, 0x01, 0x00, 0x10, 0x00] [(1, 0xFFFF)] false [])
      (after 0x00001006 [(1, 0x0000)] none []) := by decide

/-- V-RSH-2: `rsh 1, 2`, logical: zeros enter at bit 15 (arithmetic would give 0xFFFF). -/
theorem test_V_RSH_2 :
    runs 1 (before [0x08, 0x01, 0x01, 0x02] [(1, 0x8000), (2, 0x000F)] false [])
      (after 0x00001004 [(1, 0x0001), (2, 0x000F)] none []) := by decide

/-- V-RSH-7: `rsh 1, 1`, rd = rn: 4 shifted right by 4. -/
theorem test_V_RSH_7 :
    runs 1 (before [0x08, 0x01, 0x01, 0x01] [(1, 0x0004)] false [])
      (after 0x00001004 [(1, 0x0000)] none []) := by decide

/-- V-RSH-3: `rsh 1, [0x2000]`. -/
theorem test_V_RSH_3 :
    runs 1 (before [0x08, 0x02, 0x01, 0x00, 0x00, 0x20, 0x00, 0x00] [(1, 0xFF00)] false [(0x2000, [0x08, 0x00])])
      (after 0x00001008 [(1, 0x00FF)] none []) := by decide

/-! ### One step: mov -/

/-- V-MOV-1: `mov 1, #0x1234`, 0x00; OV not touched by any mov. -/
theorem test_V_MOV_1 :
    runs 1 (before [0x09, 0x00, 0x01, 0x00, 0x34, 0x12] [(1, 0xFFFF)] true [])
      (after 0x00001006 [(1, 0x1234)] (some true) []) := by decide

/-- V-MOV-2: `mov 1, 2, #0xDEADBEEF`, 0x01; rd upper, rn lower. -/
theorem test_V_MOV_2 :
    runs 1 (before [0x09, 0x01, 0x01, 0x02, 0xEF, 0xBE, 0xAD, 0xDE] [] false [])
      (after 0x00001008 [(1, 0xDEAD), (2, 0xBEEF)] none []) := by decide

/-- V-MOV-3: `mov 1, 2`, 0x02; reversed: copies x[1] INTO x[2]. -/
theorem test_V_MOV_3 :
    runs 1 (before [0x09, 0x02, 0x01, 0x02] [(1, 0xABCD), (2, 0x0000)] false [])
      (after 0x00001004 [(1, 0xABCD), (2, 0xABCD)] none []) := by decide

/-- V-MOV-4: `mov 1.L, [0x2000]`, 0x03; high half kept. -/
theorem test_V_MOV_4 :
    runs 1 (before [0x09, 0x03, 0x01, 0x00, 0x00, 0x20, 0x00, 0x00] [(1, 0xAB00)] false [(0x2000, [0x7F])])
      (after 0x00001008 [(1, 0xAB7F)] none []) := by decide

/-- V-MOV-5: `mov 1.H, [0x2001]`, 0x04; low half kept; odd address is fine for a byte. -/
theorem test_V_MOV_5 :
    runs 1 (before [0x09, 0x04, 0x01, 0x00, 0x01, 0x20, 0x00, 0x00] [(1, 0xAB7F)] false [(0x2001, [0x12])])
      (after 0x00001008 [(1, 0x127F)] none []) := by decide

/-- V-MOV-6: `mov 1, [0x3000]`, 0x05. -/
theorem test_V_MOV_6 :
    runs 1 (before [0x09, 0x05, 0x01, 0x00, 0x00, 0x30, 0x00, 0x00] [] false [(0x3000, [0x34, 0x12])])
      (after 0x00001008 [(1, 0x1234)] none []) := by decide

/-- V-MOV-7: `mov 1, 2, [0x4000]`, 0x06; 10 bytes; rd upper, rn1 lower. -/
theorem test_V_MOV_7 :
    runs 1 (before [0x09, 0x06, 0x01, 0x00, 0x02, 0x00, 0x00, 0x40, 0x00, 0x00] [] false [(0x4000,
        [0xEF, 0xBE, 0xAD, 0xDE])])
      (after 0x0000100A [(1, 0xDEAD), (2, 0xBEEF)] none []) := by decide

/-- V-MOV-8: `mov [0x5000], 1.L`, 0x07. -/
theorem test_V_MOV_8 :
    runs 1 (before [0x09, 0x07, 0x01, 0x00, 0x00, 0x50, 0x00, 0x00] [(1, 0x1234)] false [])
      (after 0x00001008 [(1, 0x1234)] none [(0x5000, [0x34])]) := by decide

/-- V-MOV-9: `mov [0x5001], 1.H`, 0x08. -/
theorem test_V_MOV_9 :
    runs 1 (before [0x09, 0x08, 0x01, 0x00, 0x01, 0x50, 0x00, 0x00] [(1, 0x1234)] false [])
      (after 0x00001008 [(1, 0x1234)] none [(0x5001, [0x12])]) := by decide

/-- V-MOV-10: `mov [0x6000], 1`, 0x09. -/
theorem test_V_MOV_10 :
    runs 1 (before [0x09, 0x09, 0x01, 0x00, 0x00, 0x60, 0x00, 0x00] [(1, 0x1234)] false [])
      (after 0x00001008 [(1, 0x1234)] none [(0x6000, [0x34, 0x12])]) := by decide

/-- V-MOV-11: `mov [0x7000], 1, 2`, 0x0A; 10 bytes. -/
theorem test_V_MOV_11 :
    runs 1 (before [0x09, 0x0A, 0x01, 0x00, 0x02, 0x00, 0x00, 0x70, 0x00, 0x00] [(1, 0xDEAD), (2, 0xBEEF)] false [])
      (after 0x0000100A [(1, 0xDEAD), (2, 0xBEEF)] none [(0x7000, [0xEF, 0xBE, 0xAD, 0xDE])]) := by decide

/-- V-MOV-12: `mov 1.L, [3 + 0x10]`, 0x0B; EA = 0x2010. -/
theorem test_V_MOV_12 :
    runs 1 (before [0x09, 0x0B, 0x01, 0x03, 0x10, 0x00, 0x00, 0x00] [(1, 0xAB00), (3, 0x2000)] false [(0x2010,
        [0x7F])])
      (after 0x00001008 [(1, 0xAB7F), (3, 0x2000)] none []) := by decide

/-- V-MOV-13: `mov 1.H, [3 + 0x10]`, 0x0C. -/
theorem test_V_MOV_13 :
    runs 1 (before [0x09, 0x0C, 0x01, 0x03, 0x10, 0x00, 0x00, 0x00] [(1, 0x00CD), (3, 0x2000)] false [(0x2010,
        [0x7F])])
      (after 0x00001008 [(1, 0x7FCD), (3, 0x2000)] none []) := by decide

/-- V-MOV-14: `mov 1, [3 + 0x20]`, 0x0D; EA = 0x3020. -/
theorem test_V_MOV_14 :
    runs 1 (before [0x09, 0x0D, 0x01, 0x03, 0x20, 0x00, 0x00, 0x00] [(3, 0x3000)] false [(0x3020, [0x34, 0x12])])
      (after 0x00001008 [(1, 0x1234), (3, 0x3000)] none []) := by decide

/-- V-MOV-15: `mov 1, 2, [3 + 0x30]`, 0x0E; 10 bytes. -/
theorem test_V_MOV_15 :
    runs 1 (before [0x09, 0x0E, 0x01, 0x03, 0x02, 0x00, 0x30, 0x00, 0x00, 0x00] [(3, 0x4000)] false [(0x4030,
        [0xEF, 0xBE, 0xAD, 0xDE])])
      (after 0x0000100A [(1, 0xDEAD), (2, 0xBEEF), (3, 0x4000)] none []) := by decide

/-- V-MOV-16: `mov [3 + 0x40], 1.L`, 0x0F; EA = 0x5040. -/
theorem test_V_MOV_16 :
    runs 1 (before [0x09, 0x0F, 0x01, 0x03, 0x40, 0x00, 0x00, 0x00] [(1, 0x1234), (3, 0x5000)] false [])
      (after 0x00001008 [(1, 0x1234), (3, 0x5000)] none [(0x5040, [0x34])]) := by decide

/-- V-MOV-17: `mov [3 + 0x40], 1.H`, 0x10. -/
theorem test_V_MOV_17 :
    runs 1 (before [0x09, 0x10, 0x01, 0x03, 0x40, 0x00, 0x00, 0x00] [(1, 0x1234), (3, 0x5000)] false [])
      (after 0x00001008 [(1, 0x1234), (3, 0x5000)] none [(0x5040, [0x12])]) := by decide

/-- V-MOV-18: `mov [3 + 0x50], 1`, 0x11; EA = 0x6050. -/
theorem test_V_MOV_18 :
    runs 1 (before [0x09, 0x11, 0x01, 0x03, 0x50, 0x00, 0x00, 0x00] [(1, 0x1234), (3, 0x6000)] false [])
      (after 0x00001008 [(1, 0x1234), (3, 0x6000)] none [(0x6050, [0x34, 0x12])]) := by decide

/-- V-MOV-19: `mov [3 + 0x60], 1, 2`, 0x12; 10 bytes. -/
theorem test_V_MOV_19 :
    runs 1 (before [0x09, 0x12, 0x01, 0x03, 0x02, 0x00, 0x60, 0x00, 0x00, 0x00]
        [(1, 0xDEAD), (2, 0xBEEF), (3, 0x7000)] false [])
      (after 0x0000100A [(1, 0xDEAD), (2, 0xBEEF), (3, 0x7000)] none [(0x7060, [0xEF, 0xBE, 0xAD, 0xDE])]) := by decide

/-- V-MOV-20: `mov 1, #0x0012`, "8-bit" immediate: same form, all 16 bits written (D18). -/
theorem test_V_MOV_20 :
    runs 1 (before [0x09, 0x00, 0x01, 0x00, 0x12, 0x00] [(1, 0xFFFF)] false [])
      (after 0x00001006 [(1, 0x0012)] none []) := by decide

/-- V-MOV-21: `mov 1, 1, #0xDEADBEEF`, 0x01 with rd = rn: ends with the lower half. -/
theorem test_V_MOV_21 :
    runs 1 (before [0x09, 0x01, 0x01, 0x01, 0xEF, 0xBE, 0xAD, 0xDE] [] false [])
      (after 0x00001008 [(1, 0xBEEF)] none []) := by decide

/-- V-MOV-22: `mov 1, 1`, 0x02 with rd = rn: only pc changes. -/
theorem test_V_MOV_22 :
    runs 1 (before [0x09, 0x02, 0x01, 0x01] [(1, 0x1234)] false [])
      (after 0x00001004 [(1, 0x1234)] none []) := by decide

/-- V-MOV-23: `mov 1, 1, [0x4000]`, 0x06 with rd = rn1: ends with the lower half. -/
theorem test_V_MOV_23 :
    runs 1 (before [0x09, 0x06, 0x01, 0x00, 0x01, 0x00, 0x00, 0x40, 0x00, 0x00] [] false [(0x4000,
        [0xEF, 0xBE, 0xAD, 0xDE])])
      (after 0x0000100A [(1, 0xBEEF)] none []) := by decide

/-- V-MOV-24: `mov [0x7000], 1, 1`, 0x0A with rd = rn1: stores x[1] ++ x[1]. -/
theorem test_V_MOV_24 :
    runs 1 (before [0x09, 0x0A, 0x01, 0x00, 0x01, 0x00, 0x00, 0x70, 0x00, 0x00] [(1, 0xCAFE)] false [])
      (after 0x0000100A [(1, 0xCAFE)] none [(0x7000, [0xFE, 0xCA, 0xFE, 0xCA])]) := by decide

/-- V-MOV-26: `mov 3, 1, [3 + 0x30]`, 0x0E with rd = rn: base read first. -/
theorem test_V_MOV_26 :
    runs 1 (before [0x09, 0x0E, 0x03, 0x03, 0x01, 0x00, 0x30, 0x00, 0x00, 0x00] [(3, 0x4000)] false [(0x4030,
        [0xEF, 0xBE, 0xAD, 0xDE])])
      (after 0x0000100A [(1, 0xBEEF), (3, 0xDEAD)] none []) := by decide

/-- V-MOV-27: `mov 1, [3 + 0xFFFFFFF0]`, EA wraps modulo 2^32 to 0x00000000. -/
theorem test_V_MOV_27 :
    runs 1 (withData 0x0000 0x100 (before [0x09, 0x0D, 0x01, 0x03, 0xF0, 0xFF, 0xFF, 0xFF] [(3, 0x0010)] false
        [(0x0000, [0x78, 0x56])]))
      (after 0x00001008 [(1, 0x5678), (3, 0x0010)] none []) := by decide

/-- V-MOV-29: `mov [3 + 0x40], 3.L`, 0x0F with rd = rn: stores the base's own low byte. -/
theorem test_V_MOV_29 :
    runs 1 (before [0x09, 0x0F, 0x03, 0x03, 0x40, 0x00, 0x00, 0x00] [(3, 0x5000)] false [])
      (after 0x00001008 [(3, 0x5000)] none [(0x5040, [0x00])]) := by decide

/-- V-MOV-30: `mov 1.L, [0x2001]`, byte not sign-extended into the high half. -/
theorem test_V_MOV_30 :
    runs 1 (before [0x09, 0x03, 0x01, 0x00, 0x01, 0x20, 0x00, 0x00] [(1, 0x0000)] false [(0x2001, [0xFF])])
      (after 0x00001008 [(1, 0x00FF)] none []) := by decide

/-! ### One step: branch -/

/-- V-BR-1: `b 0x00001020`, unconditional; nothing else changes. -/
theorem test_V_BR_1 :
    runs 1 (before [0x0A, 0x00, 0x00, 0x00, 0x20, 0x10, 0x00, 0x00] [(1, 0x1234)] true [])
      (after 0x00001020 [(1, 0x1234)] (some true) []) := by decide

/-- V-BR-22: `b 0x00001021`, odd target: the branch itself does not fault. -/
theorem test_V_BR_22 :
    runs 1 (before [0x0A, 0x00, 0x00, 0x00, 0x21, 0x10, 0x00, 0x00] [] false [])
      (after 0x00001021 [] none []) := by decide

/-- V-BR-2: `be 1, 2, 0x00001020`, equal: taken. -/
theorem test_V_BR_2 :
    runs 1 (before [0x0B, 0x00, 0x01, 0x02, 0x20, 0x10, 0x00, 0x00] [(1, 0x0005), (2, 0x0005)] false [])
      (after 0x00001020 [(1, 0x0005), (2, 0x0005)] none []) := by decide

/-- V-BR-3: `be 1, 2, 0x00001020`, not equal: falls through to pc + 8. -/
theorem test_V_BR_3 :
    runs 1 (before [0x0B, 0x00, 0x01, 0x02, 0x20, 0x10, 0x00, 0x00] [(1, 0x0005), (2, 0x0006)] false [])
      (after 0x00001008 [(1, 0x0005), (2, 0x0006)] none []) := by decide

/-- V-BR-4: `bne 1, 2, 0x00001020`, taken. -/
theorem test_V_BR_4 :
    runs 1 (before [0x0C, 0x00, 0x01, 0x02, 0x20, 0x10, 0x00, 0x00] [(1, 0x0005), (2, 0x0006)] false [])
      (after 0x00001020 [(1, 0x0005), (2, 0x0006)] none []) := by decide

/-- V-BR-5: `bne 1, 2, 0x00001020`, not taken. -/
theorem test_V_BR_5 :
    runs 1 (before [0x0C, 0x00, 0x01, 0x02, 0x20, 0x10, 0x00, 0x00] [(1, 0x0005), (2, 0x0005)] false [])
      (after 0x00001008 [(1, 0x0005), (2, 0x0005)] none []) := by decide

/-- V-BR-8: `blt 1, 2, 0x00001020`, unsigned 1 < 65535: taken (signed: 1 > −1, not taken). -/
theorem test_V_BR_8 :
    runs 1 (before [0x0D, 0x00, 0x01, 0x02, 0x20, 0x10, 0x00, 0x00] [(1, 0x0001), (2, 0xFFFF)] false [])
      (after 0x00001020 [(1, 0x0001), (2, 0xFFFF)] none []) := by decide

/-- V-BR-9: `blt 1, 2, 0x00001020`, unsigned 32768 > 32767: not taken (signed: taken). -/
theorem test_V_BR_9 :
    runs 1 (before [0x0D, 0x00, 0x01, 0x02, 0x20, 0x10, 0x00, 0x00] [(1, 0x8000), (2, 0x7FFF)] false [])
      (after 0x00001008 [(1, 0x8000), (2, 0x7FFF)] none []) := by decide

/-- V-BR-13: `bgt 1, 2, 0x00001020`, unsigned: taken (signed: not taken). -/
theorem test_V_BR_13 :
    runs 1 (before [0x0E, 0x00, 0x01, 0x02, 0x20, 0x10, 0x00, 0x00] [(1, 0xFFFF), (2, 0x0001)] false [])
      (after 0x00001020 [(1, 0xFFFF), (2, 0x0001)] none []) := by decide

/-- V-BR-12: `bgt 1, 2, 0x00001020`, equal: not taken. -/
theorem test_V_BR_12 :
    runs 1 (before [0x0E, 0x00, 0x01, 0x02, 0x20, 0x10, 0x00, 0x00] [(1, 0x0004), (2, 0x0004)] false [])
      (after 0x00001008 [(1, 0x0004), (2, 0x0004)] none []) := by decide

/-- V-BR-17: `bro 0x00001020`, OV set: taken; OV not cleared. -/
theorem test_V_BR_17 :
    runs 1 (before [0x0F, 0x00, 0x00, 0x00, 0x20, 0x10, 0x00, 0x00] [] true [])
      (after 0x00001020 [] (some true) []) := by decide

/-- V-BR-18: `bro 0x00001020`, OV clear: not taken. -/
theorem test_V_BR_18 :
    runs 1 (before [0x0F, 0x00, 0x00, 0x00, 0x20, 0x10, 0x00, 0x00] [] false [])
      (after 0x00001008 [] (some false) []) := by decide

/-! ### Faults and their order -/

/-- V-ALUF-1, 2, 3: misaligned, in the text, outside `DATA_MAP`. -/
theorem test_faults_of_alu :
    let s1 := before [0x01, 0x02, 0x01, 0x00, 0x01, 0x20, 0x00, 0x00] [(1, 1)] true []
    let s2 := before [0x03, 0x02, 0x01, 0x00, 0x00, 0x10, 0x00, 0x00] [(1, 1)] false []
    let s3 := before [0x06, 0x02, 0x01, 0x00, 0x00, 0x90, 0x00, 0x00] [(1, 1)] false []
    runs 1 s1 (faults s1 (.misalignedAccess 0x2001 2)) ∧ runs 1 s2 (faults s2 (.textAccess 0x1000 2)) ∧
      runs 1 s3 (faults s3 (.accessFault 0x9000 2)) := by decide

/-- V-MOVF-2, 4, 6, 7, 9, 10. -/
theorem test_faults_of_mov :
    let s2 := before [0x09, 0x06, 0x01, 0x00, 0x02, 0x00, 0x02, 0x40, 0x00, 0x00] [(1, 0x1111), (2, 0x2222)] false []
    let s4 := before [0x09, 0x0A, 0x01, 0x00, 0x02, 0x00, 0x02, 0x70, 0x00, 0x00] [(1, 0xDEAD), (2, 0xBEEF)] false []
    let s6 := before [0x09, 0x03, 0x01, 0x00, 0x07, 0x10, 0x00, 0x00] [] false []
    let s7 := before [0x09, 0x03, 0x01, 0x00, 0x08, 0x10, 0x00, 0x00] [] false []
    let s9 := withData 0x2000 0x5FFE (before [0x09, 0x06, 0x01, 0x00, 0x02, 0x00, 0xFC, 0x7F, 0x00, 0x00] [] false [])
    let s10 := before [0x09, 0x0D, 0x01, 0x03, 0x20, 0x00, 0x00, 0x00] [(3, 0x0FE0)] false []
    runs 1 s2 (faults s2 (.misalignedAccess 0x4002 4)) ∧ runs 1 s4 (faults s4 (.misalignedAccess 0x7002 4)) ∧
      runs 1 s6 (faults s6 (.textAccess 0x1007 1)) ∧ runs 1 s7 (faults s7 (.accessFault 0x1008 1)) ∧
      runs 1 s9 (faults s9 (.accessFault 0x7FFC 4)) ∧ runs 1 s10 (faults s10 (.textAccess 0x1000 2)) := by decide

/-- V-DEC-15, 17, 23, 24: illegal registers, in the order rd, rn, rn1, before any data fault. -/
theorem test_illegal_registers :
    let s15 := withNregs 16 (before [0x01, 0x00, 0x10, 0x00, 0x05, 0x00] [] false [])
    let s17 := withNregs 16
      (before [0x09, 0x0E, 0x01, 0x03, 0x20, 0x00, 0x30, 0x00, 0x00, 0x00] [(3, 0x4000)] false [])
    let s23 := withNregs 16 (before [0x09, 0x05, 0x10, 0x00, 0x01, 0x30, 0x00, 0x00] [] false [])
    let s24 := withNregs 16 (before [0x0B, 0x00, 0x10, 0x11, 0x20, 0x10, 0x00, 0x00] [] false [])
    runs 1 s15 (faults s15 (.illegalRegister .rd 0x10)) ∧ runs 1 s17 (faults s17 (.illegalRegister .rn1 0x20)) ∧
      runs 1 s23 (faults s23 (.illegalRegister .rd 0x10)) ∧ runs 1 s24 (faults s24 (.illegalRegister .rd 0x10)) := by
  decide

/-- V-DEC-3, 10, 12, 22: illegal instructions, an unused field before a register. -/
theorem test_illegal_instructions :
    let s3 := before [0x03, 0x03, 0x01, 0x02] [(1, 2), (2, 3)] false []
    let s10 := before [0x09, 0x06, 0x01, 0x00, 0x02, 0x01, 0x00, 0x40, 0x00, 0x00] [] false []
    let s12 := before [0x0A, 0x00, 0x01, 0x00, 0x20, 0x10, 0x00, 0x00] [] false []
    let s22 := withNregs 16 (before [0x01, 0x00, 0x10, 0x02, 0x05, 0x00] [] false [])
    runs 1 s3 (faults s3 (.illegalInstruction 0x1000 3 3)) ∧ runs 1 s10 (faults s10 (.illegalInstruction 0x1000 9 6)) ∧
      runs 1 s12 (faults s12 (.illegalInstruction 0x1000 10 0)) ∧
      runs 1 s22 (faults s22 (.illegalInstruction 0x1000 1 0)) := by decide

/-- V-DEC-18 to 21: fetch faults, and their place between the two illegal instructions. -/
theorem test_fetch_faults :
    let s18 := before [0x01, 0x00, 0x01, 0x00] [] false []
    let s19 := before [0x00, 0x00] [] false []
    let s20 := before [0x01, 0x05, 0x01, 0x00] [] false []
    let s21 := before [0x01, 0x00, 0x01, 0x02] [] false []
    runs 1 s18 (faults s18 (.fetchFault 0x1004 2)) ∧ runs 1 s19 (faults s19 (.fetchFault 0x1000 4)) ∧
      runs 1 s20 (faults s20 (.illegalInstruction 0x1000 1 5)) ∧ runs 1 s21 (faults s21 (.fetchFault 0x1004 2)) := by
  decide

/-- V-DEC-25, 26, 27: misaligned before text before map. -/
theorem test_data_fault_order :
    let s25 := before [0x09, 0x05, 0x01, 0x00, 0x01, 0x10, 0x00, 0x00] [] false []
    let s26 := before [0x09, 0x05, 0x01, 0x00, 0x06, 0x10, 0x00, 0x00] [] false []
    let s27 := before [0x09, 0x09, 0x01, 0x00, 0xFE, 0x0F, 0x00, 0x00] [] false []
    runs 1 s25 (faults s25 (.misalignedAccess 0x1001 2)) ∧ runs 1 s26 (faults s26 (.textAccess 0x1006 2)) ∧
      runs 1 s27 (faults s27 (.accessFault 0x0FFE 2)) := by decide

/-- V-BR-21, 23, 24, 25: two steps of a branch to `PROG_END`, to an odd address, below the text, to 0xFFFFFFFE. -/
theorem test_branch_targets :
    runs 2 (before [0x0A, 0x00, 0x00, 0x00, 0x08, 0x10, 0x00, 0x00] [] false [])
        (fun t => t.status == .ended && t.pc == 0x1008) ∧
      runs 2 (before [0x0A, 0x00, 0x00, 0x00, 0x21, 0x10, 0x00, 0x00] [] false [])
        (fun t => t.status == .faulted (.fetchMisaligned 0x1021) && t.pc == 0x1021) ∧
      runs 2 (before [0x0A, 0x00, 0x00, 0x00, 0x00, 0x08, 0x00, 0x00] [] false [])
        (fun t => t.status == .faulted (.fetchFault 0x0800 4)) ∧
      runs 2 (before [0x0A, 0x00, 0x00, 0x00, 0xFE, 0xFF, 0xFF, 0xFF] [] false [])
        (fun t => t.status == .faulted (.fetchFault 0xFFFFFFFE 4)) := by decide

/-- The codes of 60_exceptions R251. -/
theorem test_fault_codes :
    [Fault.fetchMisaligned 0, .fetchFault 0 0, .illegalInstruction 0 0 0, .illegalRegister .rd 0,
      .misalignedAccess 0 0, .textAccess 0 0, .accessFault 0 0].map faultCode = [1, 2, 3, 4, 5, 6, 7] := by decide

/-! ### The assembler -/

/-- Lines of 30_encoding R101 and R102, and that a half-register immediate does not assemble (U18). -/
theorem test_assemble_lines :
    assembleLine "mov [3 + 0x40], 1.H" = some (.storeHighRel 1 3 0x40) ∧ assembleLine "nop" = some .nop ∧
      assembleLine "bro 0x00001020" = some (.bro 0x1020) ∧ assembleLine "mov 1.L, #0x12" = none := by decide

/-- Labels (30_encoding R103): the loop of P6d, with the bytes of its listing. -/
theorem test_assemble_labels :
    assemble Config.reference 0x1000 "mov 1, #0x0000\nloop: add 1, #0x0001\nb loop" =
      some [0x09, 0x00, 0x01, 0x00, 0x00, 0x00, 0x01, 0x00, 0x01, 0x00, 0x01, 0x00, 0x0A, 0x00, 0x00, 0x00, 0x06,
        0x10, 0x00, 0x00] := by decide

/-- An instruction as text. -/
theorem test_render :
    render (.loadPairRel 1 3 2 0x30) = "mov 1, 2, [3 + 0x30]" ∧ render (.movImm 1 0x1234) = "mov 1, #0x1234" := by
  decide

/-! ### States and operands that meet the hypotheses of the obligations -/

/-- `add 1, #0x0005` at 0x1000, then the end of the text. -/
def addText : State := before [0x01, 0x00, 0x01, 0x00, 0x05, 0x00] [(1, 3)] false []

/-- `nop` at 0x1000 with `DATA_MAP` everything, so that its last bytes lie at 0xFFFFFFFF. -/
def wide : State := withData 0 (2 ^ 32) (before [0x00, 0x00, 0x00, 0x00] [(1, 0x1234), (3, 0x2000)] true [])

/-- One instruction of each form of nop, the arithmetic and the branches. -/
def samplesA : List Instr :=
  [.nop, .addImm 1 2, .addReg 1 1, .addMem 1 0x2000, .subImm 1 2, .subReg 1 2, .subMem 255 0x2000, .mulImm 1 2,
    .mulReg 1 2, .mulMem 1 0xFFFFFFFE, .andImm 1 2, .andReg 1 2, .andMem 1 0, .orImm 1 2, .orReg 1 2, .orMem 1 0x2000,
    .xorImm 1 2, .xorReg 1 1, .xorMem 1 0x2000, .lshImm 1 16, .lshReg 1 2, .lshMem 1 0x2000, .rshImm 1 15,
    .rshReg 1 2, .rshMem 1 0x2000, .b 0, .be 1 1 0, .bne 1 2 0, .blt 1 2 0, .bgt 1 2 0, .bro 0]

/-- One instruction of each form of mov, its data address aligned and in `wide`'s `DATA_MAP`. -/
def samplesB : List Instr :=
  [.movImm 255 2, .movImm32 1 1 2, .movReg 1 1, .loadLowAbs 1 0x2001, .loadHighAbs 1 0xFFFFFFFF,
    .loadWordAbs 1 0x2000, .loadPairAbs 1 1 0xFFFFFFFC, .storeLowAbs 1 0x2001, .storeHighAbs 1 0,
    .storeWordAbs 1 0xFFFFFFFE, .storePairAbs 1 1 0x2000, .loadLowRel 1 3 0, .loadHighRel 3 3 1,
    .loadWordRel 3 3 0xFFFFE000, .loadPairRel 3 3 1 4, .storeLowRel 1 3 0, .storeHighRel 3 3 1,
    .storeWordRel 1 3 0xFFFFDFFE, .storePairRel 3 3 3 4]

theorem test_meets_UndefinedFormFaults :
    let s := before [0x03, 0x03, 0x01, 0x02] [] false []
    ready s ∧ atText s ∧ headerAt s 3 3 [3, 3, 1, 2] [] ∧ undefinedPair 3 3 :=
  ⟨by decide, by decide, ⟨rfl, rfl, rfl, rfl⟩, by decide⟩

/-- The edges of each range of 30_encoding R96 and R97, and that no listed form is among them. -/
theorem test_undefined_pairs :
    undefinedPair 0x10 0 ∧ undefinedPair 0xFF 0xFF ∧ undefinedPair 0 1 ∧ undefinedPair 1 3 ∧ undefinedPair 8 0xFF ∧
      undefinedPair 9 0x13 ∧ undefinedPair 0x0A 1 ∧ undefinedPair 0x0F 0xFF ∧ ¬ undefinedPair 0 0 ∧
      ¬ undefinedPair 8 2 ∧ ¬ undefinedPair 9 0x12 ∧ ¬ undefinedPair 0x0F 0 :=
  ⟨by decide, by decide, by decide, by decide, by decide, by decide, by decide, by decide, by decide, by decide,
    by decide, by decide⟩

/-- A complete form I with rn not zero, and a complete form X with only its pad byte not zero; the byte of the first
that is in no field, for the clause over every layout. -/
theorem test_meets_UnusedFieldNotZeroFaults :
    (let s := before [0x01, 0x00, 0x01, 0x02, 0x05, 0x00] [] false [];
      referenceEncoding s.params ∧ ready s ∧ atText s ∧ textAt s = 1 :: 0 :: 1 :: 2 :: [5, 0] ∧
        formOf 1 0 = some (.alu .add .imm) ∧ s.params.len (.alu .add .imm) ≤ [5, 0].length + 4 ∧
        (∃ b ∈ unusedBytes 1 0 1 2 0, b ≠ 0) ∧ s.params.inField (.alu .add .imm) 3 = false ∧
        (textAt s).getD 3 0 ≠ 0) ∧
      (let s := before [0x09, 0x12, 0x01, 0x03, 0x02, 0x01, 0x60, 0x00, 0x00, 0x00] [] false [];
      ready s ∧ atText s ∧ textAt s = 9 :: 0x12 :: 1 :: 3 :: [2, 1, 0x60, 0, 0, 0] ∧
        formOf 9 0x12 = some (.store .pair .relative) ∧ ∃ b ∈ unusedBytes 9 0x12 1 3 1, b ≠ 0) ∧
      encode Config.reference .nop = 0 :: 0 :: 0 :: 0 :: [] := by decide

theorem test_meets_UnusedFieldNotZeroFaults_header :
    headerAt (before [0x01, 0x00, 0x01, 0x02, 0x05, 0x00] [] false []) 1 0 [1, 0, 1, 2] [5, 0] :=
  ⟨rfl, rfl, rfl, rfl⟩

/-- A complete add under another layout, with a byte that is in no field not zero: the clause over every layout. -/
theorem test_meets_UnusedFieldNotZeroFaults_layout :
    let s := under otherLayout (before [0, 1, 0, 1, 5, 0, 0, 0, 0x34, 0x12, 0, 0] [] false [])
    ready s ∧ atText s ∧ headerAt s 1 0 [0, 1, 0, 1] [5, 0, 0, 0, 0x34, 0x12, 0, 0] ∧
      formOf 1 0 = some (.alu .add .imm) ∧ s.params.len (.alu .add .imm) = 12 ∧
      s.params.inField (.alu .add .imm) 4 = false ∧ (textAt s).getD 4 0 ≠ 0 :=
  ⟨by decide, by decide, ⟨rfl, rfl, rfl, rfl⟩, by decide, by decide, by decide, by decide⟩

/-- The reference parameters and a layout of another kind, with an Offset at the end of its range. -/
theorem test_meets_DecodeInvertsEncode :
    Config.reference.wf = true ∧ referenceEncoding Config.reference ∧ referenceEncoding bigReference ∧
      otherLayout.wf = true ∧ (Instr.loadPairRel 1 3 2 0xFFFFFFFF).fits otherLayout = true ∧ shortOffset.wf = true ∧
      (Instr.loadLowRel 1 3 0xFFFF).fits shortOffset = true := by decide

/-- Bytes that decode, under the reference layout and another. -/
theorem test_meets_EncodeInvertsDecode :
    decode Config.reference [0, 0, 0, 0, 0xFF] = .ok .nop ∧ otherLayout.wf = true ∧
      decode otherLayout [0, 1, 0, 1, 0, 0, 0, 0, 0x34, 0x12, 0, 0] = .ok (.addImm 1 0x1234) := by decide

theorem test_meets_StepExecutesDecodedInstruction :
    ready addText ∧ atText addText ∧ decode addText.params (textAt addText) = .ok (.addImm 1 5) := by decide

/-- At reset, at the highest `pc` that the statement takes, and under another layout. -/
theorem test_meets_LaunchedWordRunsFirst :
    (let s := { State.reset with pc := 0xFFFFFFF4 };
      s.pc.toNat % s.params.ialign = 0 ∧ s.pc.toNat + s.params.longest < 2 ^ 32 ∧ s.params.wf = true) ∧
      State.reset.pc.toNat % State.reset.params.ialign = 0 ∧
      decode State.reset.params (tableBytes State.reset.params.longest 32 0x01000100) = .ok (.addImm 1 0) ∧
      decodeTableWord 32 0x01000100 = some (.addImm 1 0) ∧
      decode otherLayout (tableBytes otherLayout.longest 32 0x00010001) = .ok (.addImm 1 0) := by decide

theorem test_meets_StepEndsAtProgEnd :
    let s := { addText with pc := 0x1006 }
    ready s ∧ s.pc.toNat = s.launch.progEnd := by decide

theorem test_meets_TerminatedMachineTakesNoStep :
    (faultedWith addText (.fetchMisaligned 1)).status = .faulted (.fetchMisaligned 1) ∧
      { addText with status := .ended }.status = .ended := by decide

/-- Odd; just below the text; one byte past its end; ending exactly at its end. -/
theorem test_meets_FetchRule :
    let l := addText.launch
    (0x1001 : Addr).toNat % 2 ≠ 0 ∧ ((0x0FFE : Addr).toNat % 2 = 0 ∧ (0x0FFE : Addr).toNat < l.progBase.toNat) ∧
      ((0x1004 : Addr).toNat % 2 = 0 ∧ (0x1004 : Addr).toNat + 3 > l.progEnd) ∧
      ((0x1004 : Addr).toNat % 2 = 0 ∧ l.progBase.toNat ≤ (0x1004 : Addr).toNat ∧
        (0x1004 : Addr).toNat + 2 ≤ l.progEnd) := by decide

/-- An odd `pc`; an even one just below the text, and one with two bytes of header left; a rest one word short. -/
theorem test_meets_FetchFaultsOfStep :
    (let s := { addText with pc := 0x1005 };
      ready s ∧ s.pc.toNat ≠ s.launch.progEnd ∧ s.pc.toNat % s.params.ialign ≠ 0) ∧
      (let s := { addText with pc := 0x0FFE };
      ready s ∧ s.pc.toNat ≠ s.launch.progEnd ∧ s.pc.toNat % s.params.ialign = 0 ∧
        s.pc.toNat < s.launch.progBase.toNat) ∧
      (let s := { addText with pc := 0x1004 };
      ready s ∧ s.pc.toNat ≠ s.launch.progEnd ∧ s.pc.toNat % s.params.ialign = 0 ∧
        s.launch.progEnd < s.pc.toNat + 4) ∧
      (let s := before [0x01, 0x02, 0x01, 0x00, 0x00, 0x20] [] false [];
      ready s ∧ atText s ∧ formOf 1 2 = some (.alu .add .mem) ∧
        [0, 0x20].length + 4 < s.params.len (.alu .add .mem)) := by decide

theorem test_meets_FetchFaultsOfStep_rest :
    headerAt (before [0x01, 0x02, 0x01, 0x00, 0x00, 0x20] [] false []) 1 2 [1, 2, 1, 0] [0, 0x20] :=
  ⟨rfl, rfl, rfl, rfl⟩

/-- A step to Faulted, a step to Ended, a step that goes on. -/
theorem test_meets_StepFaultsChangeOnlyStatus :
    (∃ t, step { addText with pc := 0x1005 } = .next t ∧ t.status = .faulted (.fetchMisaligned 0x1005)) ∧
      (∃ t, step { addText with pc := 0x1006 } = .next t ∧ t.status = .ended) ∧
      ∃ t, step addText = .next t ∧ t.status = .running := ⟨⟨_, rfl, rfl⟩, ⟨_, rfl, rfl⟩, ⟨_, rfl, rfl⟩⟩

theorem test_meets_FaultedRunNeverEnds :
    (faultedWith addText (.fetchMisaligned 1)).notFaulted = false ∧ { addText with status := .ended }.final = true := by
  decide

theorem test_meets_StepKeepsLaunchAndParams : ∃ t, step addText = .next t := ⟨_, rfl⟩

/-- The last field of three, the first and only one, and none illegal, on a machine of 16 registers. -/
theorem test_meets_IllegalRegisterFaults :
    let s := withNregs 16 addText
    (usedFields (.loadPairRel 1 3 16 0) = [(.rd, 1), (.rn, 3)] ++ (.rn1, 16) :: [] ∧
        (∀ x ∈ [(RegField.rd, (1 : RegNum)), (.rn, 3)], x.2.toNat < s.params.nregs) ∧
        s.params.nregs ≤ (16 : RegNum).toNat) ∧
      (usedFields (.addImm 255 0) = [] ++ (.rd, 255) :: [] ∧ s.params.nregs ≤ (255 : RegNum).toNat) ∧
      (∀ x ∈ usedFields (.addReg 15 0), x.2.toNat < s.params.nregs) ∧ s.status = .running := by decide

/-- Misaligned by one and by two; a byte in the text, the text's last; just below and just past `DATA_MAP`. -/
theorem test_meets_DataAccessFaults :
    let s := before [0x00, 0x00, 0x00, 0x00] [] false []
    (legal s (Instr.addMem 1 0x2001).usedRegs ∧ dataAccess (.addMem 1 0x2001) s = some (0x2001, 2) ∧
        (0x2001 : Addr).toNat % 2 ≠ 0) ∧
      (dataAccess (.loadPairAbs 1 2 0x2002) s = some (0x2002, 4) ∧ (0x2002 : Addr).toNat % 4 ≠ 0) ∧
      (dataAccess (.storeLowAbs 1 0x1003) s = some (0x1003, 1) ∧ (0x1003 : Addr).toNat % 1 = 0 ∧
        ∃ k < 1, inText s.launch ((0x1003 : Addr).toNat + k) = true) ∧
      (dataAccess (.storeLowAbs 1 0x1004) s = some (0x1004, 1) ∧
        (∀ k < 1, inText s.launch ((0x1004 : Addr).toNat + k) = false) ∧
        ∃ k < 1, inDataMap s.launch ((0x1004 : Addr).toNat + k) = false) ∧
      (dataAccess (.addMem 1 0x1FFE) s = some (0x1FFE, 2) ∧
        (∀ k < 2, inText s.launch ((0x1FFE : Addr).toNat + k) = false) ∧
        ∃ k < 2, inDataMap s.launch ((0x1FFE : Addr).toNat + k) = false) ∧
      (dataAccess (.loadPairAbs 1 2 0x8000) s = some (0x8000, 4) ∧
        (∀ k < 4, inText s.launch ((0x8000 : Addr).toNat + k) = false) ∧
        ∃ k < 4, inDataMap s.launch ((0x8000 : Addr).toNat + k) = false) := by decide

/-- The same under the policy perform, at addresses that are not aligned: into the text, below `DATA_MAP`, and past
0xFFFFFFFF. -/
theorem test_meets_DataAccessFaults_perform :
    let s := under anyAlignment (before [0x00, 0x00, 0x00, 0x00] [] false [])
    let t := under anyAlignment wide
    (dataAccess (.addMem 1 0x1003) s = some (0x1003, 2) ∧ aligned s 0x1003 2 ∧
        ∃ k < 2, inText s.launch ((0x1003 : Addr).toNat + k) = true) ∧
      (dataAccess (.addMem 1 0x1FFF) s = some (0x1FFF, 2) ∧ aligned s 0x1FFF 2 ∧
        (∀ k < 2, inText s.launch ((0x1FFF : Addr).toNat + k) = false) ∧
        ∃ k < 2, inDataMap s.launch ((0x1FFF : Addr).toNat + k) = false) ∧
      (dataAccess (.storeWordAbs 1 0xFFFFFFFF) t = some (0xFFFFFFFF, 2) ∧ aligned t 0xFFFFFFFF 2 ∧
        (∀ k < 2, inText t.launch ((0xFFFFFFFF : Addr).toNat + k) = false) ∧
        ∃ k < 2, inDataMap t.launch ((0xFFFFFFFF : Addr).toNat + k) = false) := by decide

/-- Accesses that are not aligned and proceed under the policy perform, up to the last address, for every statement
that asks for an `accessible` address; and one that does not. -/
theorem test_meets_accessible_perform :
    let s := under anyAlignment wide
    accessible s 0x2001 2 ∧ accessible s 0x2001 4 ∧ accessible s 0xFFFFFFFD 2 ∧ accessible s 0xFFFFFFFB 4 ∧
      accessFaultOf s 0xFFFFFFFF 2 = some (.accessFault 0xFFFFFFFF 2) ∧
      accessFaultOf s 0x1003 2 = some (.textAccess 0x1003 2) := by decide

/-- All 50 forms on one state: the hypotheses of EveryInstructionCompletes hold for each. -/
theorem test_meets_EveryInstructionCompletes :
    (∀ i ∈ samplesA, legal wide i.usedRegs ∧ ∀ p ∈ dataAccess i wide, accessible wide p.1 p.2) ∧
      ∀ i ∈ samplesB, legal wide i.usedRegs ∧ ∀ p ∈ dataAccess i wide, accessible wide p.1 p.2 := by decide

/-- The highest and the lowest register, rd = rn among them. -/
theorem test_meets_register_forms :
    legal wide [255] ∧ legal wide [0] ∧ legal wide [1, 1] ∧ legal wide [1, 2] ∧ legal wide [255, 0] ∧
      legal wide [3, 3, 3] ∧ legal (withNregs 4 wide) [3, 0, 1] ∧ wide.params.shiftRule = .reference := by decide

/-- AluMemoryForms and AluOperationTable at the first and the last pair of `DATA_MAP`. -/
theorem test_meets_AluMemoryForms :
    legal wide [1] ∧ accessible wide 0xFFFFFFFE 2 ∧ accessible addText 0x2000 2 ∧
      accessible addText 0x7FFE 2 ∧
      (0 : Word) = wordOf addText.params.byteOrder (addText.mem.read 0x2000) (addText.mem.read (0x2000 + 1)) ∧
      memReadWord addText 0x7FFE = .ok 0 := by decide

/-- ShiftLaws on both sides of 16, and of bit 15. -/
theorem test_meets_ShiftLaws :
    (15 : Word).toNat ≤ 15 ∧ 16 ≤ (16 : Word).toNat ∧ 16 ≤ (0xFFFF : Word).toNat ∧ (0x7FFF : Word).toNat < 32768 ∧
      ¬ (0x8000 : Word).toNat < 32768 := by decide

/-- The loads and the stores, each size at both ends of `DATA_MAP`. -/
theorem test_meets_absolute_forms :
    legal addText [1, 2] ∧ accessible addText 0x2000 1 ∧ accessible addText 0x7FFF 1 ∧ accessible addText 0x2000 2 ∧
      accessible addText 0x7FFE 2 ∧ accessible addText 0x2000 4 ∧ accessible addText 0x7FFC 4 := by decide

/-- The register-relative forms, the base register a destination too, and an address that wraps. -/
theorem test_meets_relative_forms :
    let s := before [0x00, 0x00, 0x00, 0x00] [(3, 0x4000)] false []
    (0x4030 : Addr) = effectiveAddress (.relative 3 0x30) s ∧ legal s [1, 3, 2] ∧ legal s [3, 3, 3] ∧
      accessible s 0x4030 1 ∧ accessible s 0x4030 2 ∧ accessible s 0x4030 4 ∧
      (0x3FF0 : Addr) = effectiveAddress (.relative 3 0xFFFFFFF0) s ∧ accessible s 0x3FF0 4 := by decide

/-- A mov that completes and one that faults. -/
theorem test_meets_MovIgnoresOverflowFlag :
    isMov (.movImm 1 5) = true ∧ (∃ t, exec (.movImm 1 5) wide = .next t) ∧ isMov (.loadWordAbs 1 1) = true ∧
      ∃ t, exec (.loadWordAbs 1 1) wide = .next t := ⟨rfl, ⟨_, rfl⟩, rfl, ⟨_, rfl⟩⟩

/-- The faults of a form with rd and rn: rd not there, rn not there, an odd `pc`, a header outside the text on either
side. The registers are met by test_meets_register_forms. -/
theorem test_meets_MovRegisterReversed :
    (let s := withNregs 4 addText;
      s.params.nregs ≤ (4 : RegNum).toNat ∧ (3 : RegNum).toNat < s.params.nregs) ∧
      (let s := { addText with pc := 0x1001 };
      ready s ∧ s.pc.toNat ≠ s.launch.progEnd ∧ s.pc.toNat % s.params.ialign ≠ 0) ∧
      (let s := { addText with pc := 0x0FFE };
      ready s ∧ s.pc.toNat ≠ s.launch.progEnd ∧ s.pc.toNat % s.params.ialign = 0 ∧
        s.pc.toNat < s.launch.progBase.toNat) ∧
      (let s := { addText with pc := 0x1004 };
      ready s ∧ s.pc.toNat ≠ s.launch.progEnd ∧ s.pc.toNat % s.params.ialign = 0 ∧
        s.launch.progEnd < s.pc.toNat + 4) := by decide

/-- A specifier that is not zero, and a label two bytes short; the rest is met by test_meets_MovRegisterReversed. -/
theorem test_meets_EqualityBranches :
    legal wide [1, 1] ∧ legal wide [1, 2] ∧
      (let s := before [0x0C, 0x01, 0x01, 0x02] [] false [];
      ready s ∧ atText s ∧ textAt s = 0x0C :: 1 :: 1 :: 2 :: [] ∧ (1 : Byte) ≠ 0) ∧
      (let s := before [0x0B, 0x00, 0x01, 0x02, 0x20, 0x10] [] false [];
      ready s ∧ atText s ∧ textAt s = 0x0B :: 0 :: 1 :: 2 :: [0x20, 0x10] ∧ [0x20, 0x10].length < 4) := by decide

/-- Another specifier; a label two bytes short; a complete b whose rn is not zero. The fetch faults of the header are
met by test_meets_MovRegisterReversed. -/
theorem test_meets_UnconditionalBranch :
    (let s := before [0x0A, 0x01, 0x00, 0x00] [] false [];
      ready s ∧ atText s ∧ textAt s = 0x0A :: 1 :: 0 :: 0 :: [] ∧ (1 : Byte) ≠ 0) ∧
      (let s := before [0x0A, 0x00, 0x00, 0x00, 0x20, 0x10] [] false [];
      ready s ∧ atText s ∧ textAt s = 0x0A :: 0 :: 0 :: 0 :: [0x20, 0x10] ∧ [0x20, 0x10].length < 4) ∧
      (let s := before [0x0A, 0x00, 0x00, 0x01, 0x20, 0x10, 0x00, 0x00] [] false [];
      ready s ∧ atText s ∧ textAt s = 0x0A :: 0 :: 0 :: 1 :: [0x20, 0x10, 0, 0] ∧ 4 ≤ [0x20, 0x10, 0, 0].length ∧
        (1 : Byte) ≠ 0) := by decide

/-- Both readings of blt and bgt. -/
theorem test_meets_OrderBranches :
    legal wide [1, 2] ∧ wide.params.cmpSigned = false ∧
      { wide with params := { wide.params with cmpSigned := true } }.params.cmpSigned = true := by decide

theorem test_meets_ExactlyOneCompareBranchTaken : legal wide [1, 1] ∧ (0x1020 : Addr) ≠ behind (.be 1 1 0x1020) wide ∧
      (0x1020 : Addr) ≠ behind (.blt 1 1 0x1020) wide ∧ (0x1020 : Addr) ≠ behind (.bgt 1 1 0x1020) wide := by decide

/-- b, be of a register with itself, bne, blt, bgt and bro to their own address. -/
theorem test_meets_SelfBranchNeverEnds :
    let at_ (i : Instr) := before (encode Config.reference i) [(1, 1), (2, 2)] true []
    ∀ i ∈ [Instr.b 0x1000, .be 1 1 0x1000, .bne 1 2 0x1000, .blt 1 2 0x1000, .bgt 2 1 0x1000, .bro 0x1000],
      ready (at_ i) ∧ atText (at_ i) ∧ textAt (at_ i) = encode (at_ i).params i ++ [] ∧
        targetOf i = some (at_ i).pc := by decide

theorem test_meets_SelfBranchNeverEnds_taken :
    let s := before [] [(1, 1), (2, 2)] true []
    branchTaken (.b 0x1000) s ∧ branchTaken (.be 1 1 0x1000) s ∧ branchTaken (.bne 1 2 0x1000) s ∧
      branchTaken (.blt 1 2 0x1000) s ∧ branchTaken (.bgt 2 1 0x1000) s ∧ branchTaken (.bro 0x1000) s :=
  ⟨trivial, by decide, by decide, by decide, by decide, rfl⟩

/-- A store that stores, with its access; an instruction that stores nothing. -/
theorem test_meets_OnlyStoresChangeMemory :
    (∃ t, exec (.storeWordAbs 1 0x2000) wide = .next t ∧ t.status = .running) ∧
      stores (.storeWordAbs 1 0x2000) = true ∧ dataAccess (.storeWordAbs 1 0x2000) wide = some (0x2000, 2) ∧
      (∃ t, exec (.addMem 1 0x2000) wide = .next t ∧ t.status = .running) ∧ stores (.addMem 1 0x2000) = false :=
  ⟨⟨_, rfl, rfl⟩, rfl, by decide, ⟨_, rfl, rfl⟩, rfl⟩

theorem test_meets_OnlyDestinationsChange :
    (∃ t, exec (.movReg 1 2) wide = .next t ∧ t.status = .running) ∧ 1 ∉ destinations (.movReg 1 2) :=
  ⟨⟨_, rfl, rfl⟩, by decide⟩

theorem test_meets_UnusedRegistersDoNotMatter :
    (∃ t, exec (.addReg 1 2) wide = .next t ∧ t.status = .running) ∧ 3 ∉ (Instr.addReg 1 2).usedRegs :=
  ⟨⟨_, rfl, rfl⟩, by decide⟩

theorem test_meets_OverflowFlagWrittenAndReadBy :
    (∃ t, exec (.xorReg 1 2) wide = .next t ∧ t.status = .running) ∧ wide.params.ovfUpdate = .refOvf ∧
      isAddSubMul (.xorReg 1 2) = false ∧ ∀ label, Instr.xorReg 1 2 ≠ .bro label :=
  ⟨⟨_, rfl, rfl⟩, rfl, rfl, by intro label h; cases h⟩

/-- A step through the last instruction of the text, to `PROG_END`: no branch, and a branch whose condition is false. -/
theorem test_meets_SequentialPcDoesNotWrap :
    ready addText ∧ atText addText ∧ decode addText.params (textAt addText) = .ok (.addImm 1 5) ∧
      targetOf (.addImm 1 5) = none ∧
      ∃ t, exec (.addImm 1 5) addText = .next t ∧ t.status = .running ∧ t.pc.toNat = addText.launch.progEnd :=
  ⟨by decide, by decide, by decide, rfl, _, rfl, rfl, rfl⟩

theorem test_meets_SequentialPcDoesNotWrap_branch :
    let s := before [0x0C, 0x00, 0x01, 0x01, 0x00, 0x10, 0x00, 0x00] [] false []
    ready s ∧ atText s ∧ decode s.params (textAt s) = .ok (.bne 1 1 0x1000) ∧
      ¬ branchTaken (.bne 1 1 0x1000) s ∧
      ∃ t, exec (.bne 1 1 0x1000) s = .next t ∧ t.status = .running ∧ t.pc.toNat = s.launch.progEnd :=
  ⟨by decide, by decide, by decide, by decide, _, rfl, rfl, rfl⟩

theorem test_meets_OnlyBranchesRedirectPc :
    wide.status = .running ∧ ∃ t, exec (.b 0x2000) wide = .next t ∧ t.status = .running := ⟨rfl, _, rfl, rfl⟩

theorem test_meets_MissingRegistersNeverChange :
    (∃ t, step (withNregs 16 addText) = .next t ∧ t.status = .running) ∧
      (withNregs 16 addText).params.nregs ≤ (16 : RegNum).toNat := ⟨⟨_, rfl, rfl⟩, by decide⟩

theorem test_meets_HalfWrites : (2 : RegNum) ≠ 1 := by decide

/-- Each check of MemRead and MemWrite failing, and accesses that pass at the top of the address space. -/
theorem test_meets_MemReadRule :
    accessFaultOf addText 0x8000 1 = some (.accessFault 0x8000 1) ∧
    accessFaultOf addText 0x2001 2 = some (.misalignedAccess 0x2001 2) ∧
      accessFaultOf addText 0x1004 4 = some (.textAccess 0x1004 4) ∧ accessible wide 0xFFFFFFFF 1 ∧
      accessible wide 0xFFFFFFFE 2 ∧ accessible wide 0xFFFFFFFC 4 := by decide

theorem test_meets_MemWriteRule :
    accessFaultOf addText 0x2001 (wordBytes .little 0).length = some (.misalignedAccess 0x2001 2) ∧
      accessible addText 0x2000 4 ∧ accessible addText 0x2000 2 ∧ accessible addText 0x2000 1 := by
  decide

/-- A 4-byte write at the top of the address space, a 2-byte write at an address that is 2 mod 4; both byte orders. -/
theorem test_meets_MixedWidthReads :
    (∃ t, memWrite wide 0xFFFFFFFC (dwordBytes wide.params.byteOrder 0xDEADBEEF) = .ok t) ∧
      (∃ u, memWrite wide 0xFFFFFFFE (wordBytes wide.params.byteOrder 0x1234) = .ok u) ∧
      wide.params.byteOrder = .little ∧ (bigEndian wide).params.byteOrder = .big ∧
      ∃ t, memWrite (bigEndian wide) 0xFFFFFFFC (dwordBytes (bigEndian wide).params.byteOrder 0xDEADBEEF) = .ok t :=
  ⟨⟨_, rfl⟩, ⟨_, rfl⟩, rfl, rfl, ⟨_, rfl⟩⟩

/-- Each size at the top of the address space; between store and load a store beside it and an add; a load through
another addressing mode that reaches the same address. -/
theorem test_meets_LoadReturnsLatestStore :
    legal wide [1, 2, 3, 4] ∧ accessible wide 0xFFFFFFFF 1 ∧ accessible wide 0xFFFFFFFE 2 ∧
      accessible wide 0xFFFFFFFC 4 ∧ (3 : RegNum) ≠ 4 ∧
      effectiveAddress (.relative 3 0xFFFFDFFE) wide = effectiveAddress (.absolute 0xFFFFFFFE) wide := by decide

theorem test_meets_LoadReturnsLatestStore_between :
    ∃ t u, exec (.storeWordAbs 1 0xFFFFFFFE) wide = .next t ∧
      leadsBeside [.storeWordAbs 3 0xFFFFFFFC, .addImm 1 1] 0xFFFFFFFE 2 t u ∧
      legal u [4, 3] ∧ effectiveAddress (.relative 3 0xFFFFDFFE) u = 0xFFFFFFFE :=
  ⟨_, _, rfl, ⟨fun _ ea k h => by cases h; exact .inl (by decide), _, rfl, fun h => (by cases h), _, rfl, rfl⟩,
    by decide, by decide⟩

/-- Both byte orders, at the top of the address space. -/
theorem test_meets_ByteLoadsMakeWordLoad :
    legal wide [1] ∧ accessible wide 0xFFFFFFFE 2 ∧ wide.params.byteOrder = .little ∧
      legal (bigEndian wide) [1] ∧ accessible (bigEndian wide) 0xFFFFFFFE 2 ∧
      (bigEndian wide).params.byteOrder = .big := by decide

theorem test_meets_CanonicalMemoriesAreEqual : Memory.wf [(0x2000, 1), (0x2001, 2)] = true := by decide

/-- A state with data meets the invariant and takes a step that stores. -/
theorem test_meets_StepKeepsInvariant :
    let s := before [0x09, 0x09, 0x01, 0x00, 0x00, 0x20, 0x00, 0x00] [(1, 0x1234)] false [(0x7FFF, [0x55])]
    s.inv = true ∧ ∃ t, step s = .next t ∧ t.mem = [(0x2000, 0x34), (0x2001, 0x12), (0x7FFF, 0x55)] :=
  ⟨by decide, _, rfl, by decide⟩

end Sys2Proof.Tests
end

section
/-! SUPPORT. Decoding looks at the bytes of its form only, and fetching at the text from `pc` on gives exactly those
(30_encoding R90, 20_memory R56). -/

namespace Sys2Proof

/-- The fields that a form uses lie in its length. -/
theorem Params.place_within {p : Params} (h : p.wf = true) {f : Form} {x : Place} (hx : x ∈ p.places f) :
    x.start + x.width ≤ p.len f := by
  obtain ⟨-, -, -, -, -, -, hplaces⟩ := p.wf_iff.1 h
  exact (hplaces f).2 x hx

/-- A byte before `n` is read from the first `n` bytes. -/
theorem getD_take (bytes : List Byte) {n k : Nat} (h : k < n) : (bytes.take n).getD k 0 = bytes.getD k 0 := by
  rw [List.getD_eq_getElem?_getD, List.getD_eq_getElem?_getD, List.getElem?_take_of_lt h]

/-- A field that ends at `n` or before is read from the first `n` bytes. -/
theorem take_drop_take (bytes : List Byte) {n a w : Nat} (h : a + w ≤ n) :
    ((bytes.take n).drop a).take w = (bytes.drop a).take w := by
  rw [List.drop_take, List.take_take, Nat.min_eq_left (by omega)]

/-- The fields of a form are read from its own bytes (30_encoding R84 to R87). -/
theorem readFields_take {p : Params} (h : p.wf = true) (f : Form) (bytes : List Byte) :
    readFields p f (bytes.take (p.len f)) = readFields p f bytes := by
  have byteField (used : Bool) (name : FieldName) (k : Nat) (hk : used = true → ⟨name, k, 1⟩ ∈ p.places f) :
      (if used then (bytes.take (p.len f)).getD k 0 else 0) = if used then bytes.getD k 0 else 0 := by
    split
    · next hu => exact getD_take bytes (p.place_within h (hk hu))
    · rfl
  have operandField :
      ((bytes.take (p.len f)).drop (p.layout.of f).operand).take (p.operandBytes f) =
        (bytes.drop (p.layout.of f).operand).take (p.operandBytes f) := by
    by_cases hu : f.uses.operand = .none
    · simp [Params.operandBytes, hu]
    · have hplace : ⟨.operand, (p.layout.of f).operand, p.operandBytes f⟩ ∈ p.places f := by
        simp [Params.places, hu]
      exact take_drop_take bytes (p.place_within h hplace)
  unfold readFields
  rw [byteField f.uses.rd .rd _ (fun hu => by simp [Params.places, hu]),
    byteField f.uses.rn .rn _ (fun hu => by simp [Params.places, hu]),
    byteField f.uses.rn1 .rn1 _ (fun hu => by simp [Params.places, hu]), operandField]

/-- The bytes of a form that hold no field are among its own (30_encoding R98). -/
theorem unusedZero_take (p : Params) (f : Form) (bytes : List Byte) :
    unusedZero p f (bytes.take (p.len f)) = unusedZero p f bytes := by
  rw [Bool.eq_iff_iff]
  simp only [unusedZero, List.all_eq_true, List.mem_range]
  exact forall₂_congr fun k hk => by rw [getD_take bytes hk]

/-- The bytes behind an instruction do not matter to its decoding (30_encoding R90). -/
theorem decode_take {p : Params} (h : p.wf = true) {bytes : List Byte} {f : Form}
    (hf : formOf (bytes.getD p.layout.opcode 0) (bytes.getD p.layout.spec 0) = some f)
    (hlen : p.len f ≤ bytes.length) : decode p (bytes.take (p.len f)) = decode p bytes := by
  obtain ⟨-, -, -, ⟨hopcode, hspec⟩, -⟩ := p.wf_iff.1 h
  have hheader := (p.len_wf h f).1
  have hshort : ¬ bytes.length < 4 := by omega
  simp only [decode, List.length_take_of_le hlen, getD_take bytes (show p.layout.opcode < p.len f by omega),
    getD_take bytes (show p.layout.spec < p.len f by omega), hf, unusedZero_take, readFields_take h,
    Nat.not_lt.2 hheader, Nat.not_lt.2 hlen, hshort, lt_irrefl, if_false]

end Sys2Proof

namespace Sys2Proof.Machine

open Sys2Proof.Claims

/-- The bytes that stand in the text from `pc` on end at `PROG_END` or before. -/
theorem add_le_progEnd {s : State} (ht : atText s) {n : Nat} (hn : 0 < n) (hlen : n ≤ (textAt s).length) :
    s.pc.toNat + n ≤ s.launch.progEnd := by
  rw [textAt, List.length_drop] at hlen
  have := ht.2
  unfold Launch.progEnd
  omega

/-- The header is fetched where four bytes of text are left (20_memory R56, 30_encoding R90). -/
theorem fetch_header {s : State} (ht : atText s) (hlen : 4 ≤ (textAt s).length) :
    fetch s.params.ialign s.launch s.pc 4 = .ok ((textAt s).take 4) :=
  fetch_ok_iff.2 ⟨ht.1, ht.2, add_le_progEnd ht (by omega) hlen, rfl⟩

/-- The rest of an instruction is fetched where all of its bytes are in the text: `pc + 4` does not wrap, since
`PROG_END` is below 2^32, and is aligned, since `IALIGN` divides 4 (20_memory R56, 30_encoding R90). -/
theorem fetchRest_textAt {s : State} (hr : ready s) (ht : atText s) {f : Form}
    (hlen : s.params.len f ≤ (textAt s).length) :
    fetchRest s.params s.launch s.pc f = .ok (((textAt s).take (s.params.len f)).drop 4) := by
  obtain ⟨-, hl, hp⟩ := hr
  obtain ⟨hpc, hbase⟩ := ht
  unfold fetchRest
  split
  · next hlong =>
    obtain ⟨-, hialign, -⟩ := s.params.wf_iff.1 hp
    have hend := add_le_progEnd ⟨hpc, hbase⟩ (by omega) hlen
    have hsize : s.launch.progEnd < 2 ^ 32 := by
      simp only [Launch.wf, Bool.and_eq_true, decide_eq_true_eq] at hl
      exact hl.2
    have hnext : (s.pc + 4).toNat = s.pc.toNat + 4 := by bv_omega
    refine fetch_ok_iff.2 ⟨?_, by omega, by omega, ?_⟩
    · rw [hnext, Nat.add_mod, hpc, hialign]; simp
    · rw [hnext, textAt, List.drop_take, List.drop_drop, Nat.sub_add_comm hbase]
  · next hshort => rw [List.drop_eq_nil_of_le (by rw [List.length_take]; omega)]

/-- Where the text from `pc` on decodes, fetching and decoding give the same instruction (30_encoding R90). -/
theorem fetchDecode_textAt {s : State} {i : Instr} (hr : ready s) (ht : atText s)
    (hi : decode s.params (textAt s) = .ok i) : fetchDecode s.params s.launch s.pc = .ok i := by
  have hp : s.params.wf = true := hr.2.2
  obtain ⟨hfour, f, hf, hlen, -⟩ := decode_ok hi
  obtain ⟨-, -, -, ⟨hopcode, hspec⟩, -⟩ := s.params.wf_iff.1 hp
  have hbytes : (textAt s).take 4 ++ ((textAt s).take (s.params.len f)).drop 4 = (textAt s).take (s.params.len f) := by
    have hheader : (textAt s).take 4 = ((textAt s).take (s.params.len f)).take 4 := by
      rw [List.take_take, Nat.min_eq_left (s.params.len_wf hp f).1]
    rw [hheader, List.take_append_drop]
  simp only [fetchDecode, fetch_header ht hfour, getD_take _ hopcode, getD_take _ hspec, hf,
    fetchRest_textAt hr ht hlen, hbytes, decode_take hp hf hlen, hi]

/-- Settles O6: the text at `pc` is what the step fetches, and it is not `PROG_END` since a header is there. -/
theorem stepExecutesDecodedInstruction : Obligations.StepExecutesDecodedInstruction := by
  intro s i hr ht hi
  obtain ⟨hrunning, hlaunch, hparams⟩ := hr
  have hheader : s.pc.toNat + 4 ≤ s.launch.progEnd := add_le_progEnd ht (by omega) (decode_ok hi).1
  exact step_exec hrunning hlaunch hparams (by omega) (fetchDecode_textAt ⟨hrunning, hlaunch, hparams⟩ ht hi)

/-! ### A machine that has stopped -/

theorem step_of_faulted {s : State} {f : Fault} (h : s.status = .faulted f) : step s = .fault f := by
  unfold step; rw [h]

theorem step_of_ended {s : State} (h : s.status = .ended) : step s = .refused .ended := by
  unfold step; rw [h]

/-- Settles O9: the status alone decides, before the launch is looked at. -/
theorem terminatedMachineTakesNoStep : Obligations.TerminatedMachineTakesNoStep :=
  fun _ => ⟨fun _ => step_of_faulted, step_of_ended⟩

end Sys2Proof.Machine
end

section
/-! SUPPORT. Every instruction checks its registers, then its data access, and then takes one next state: nothing it
computes can fault (60_exceptions R251, R256). -/

namespace Sys2Proof.Machine

open Sys2Proof.Claims

/-- The registers an instruction checks are those its form uses (10_state R22). -/
theorem usedFields_registers (i : Instr) : (usedFields i).map Prod.snd = i.usedRegs := by cases i <;> rfl

/-- An instruction finds no illegal register exactly when every register its form uses exists (10_state R22). -/
theorem illegalRegister_usedFields_iff {i : Instr} {s : State} :
    illegalRegister s.params.nregs (usedFields i) = none ↔ legal s i.usedRegs := by
  rw [illegalRegister_none_iff, legal, ← usedFields_registers, List.forall_mem_map]

/-! ### The check of a data access -/

/-- The effect `t` behind the check of the data access, if there is one (20_memory R54, R55). -/
def guarded (s : State) (access : Option (Addr × Nat)) (t : State) : Except Fault State :=
  match access with
  | none => .ok t
  | some (a, n) =>
    match checkAccess s.params.misaligned s.launch a n with
    | some f => .error f
    | none => .ok t

/-- An effect whose access is allowed takes place. -/
theorem guarded_ok {s : State} {access : Option (Addr × Nat)}
    (h : ∀ ea n, access = some (ea, n) → accessible s ea n) (t : State) : guarded s access t = .ok t := by
  match access with
  | none => rfl
  | some (ea, n) => simp only [guarded, (checkAccess_none_iff ..).2 (h ea n rfl)]

theorem memReadByte_map (s : State) (a : Addr) (g : Byte → State) :
    (memReadByte s a).map g = guarded s (some (a, 1)) (g (s.mem.read a.toNat)) := by
  simp only [memReadByte, guarded]; cases checkAccess s.params.misaligned s.launch a 1 <;> rfl

theorem memReadWord_map (s : State) (a : Addr) (g : Word → State) :
    (memReadWord s a).map g = guarded s (some (a, 2)) (g (s.mem.readWord s.params.byteOrder a.toNat)) := by
  simp only [memReadWord, guarded]; cases checkAccess s.params.misaligned s.launch a 2 <;> rfl

theorem memReadDWord_map (s : State) (a : Addr) (g : DWord → State) :
    (memReadDWord s a).map g = guarded s (some (a, 4)) (g (s.mem.readDWord s.params.byteOrder a.toNat)) := by
  simp only [memReadDWord, guarded]; cases checkAccess s.params.misaligned s.launch a 4 <;> rfl

theorem memWrite_map (s : State) (a : Addr) {bytes : List Byte} {n : Nat} (hn : bytes.length = n)
    (g : State → State) :
    (memWrite s a bytes).map g = guarded s (some (a, n)) (g { s with mem := s.mem.writeBytes a.toNat bytes }) := by
  subst hn
  simp only [memWrite, guarded]; cases checkAccess s.params.misaligned s.launch a bytes.length <;> rfl

/-! ### Every instruction -/

/-- What no completed instruction changes: the status, the parameters and the launch. -/
structure KeepsSetting (s t : State) : Prop where
  status : t.status = s.status
  params : t.params = s.params
  launch : t.launch = s.launch

/-- The instruction checks the registers its form uses, then its data access, and then takes one next state
(60_exceptions R256). -/
def ChecksThenCompletes (i : Instr) (s : State) : Prop :=
  ∃ t, exec i s = perform s (usedFields i) (guarded s (dataAccess i s) t) ∧ KeepsSetting s t

/-- The shape follows from what the instruction performs, once that is the check of its access and an effect. -/
theorem ChecksThenCompletes.of_effect {i : Instr} {s t : State} {effect : Except Fault State}
    (hexec : exec i s = perform s (usedFields i) effect) (heffect : effect = guarded s (dataAccess i s) t)
    (hkeeps : KeepsSetting s t) : ChecksThenCompletes i s :=
  ⟨t, heffect ▸ hexec, hkeeps⟩

theorem writePair_keepsSetting (s : State) (rd second : RegNum) (v : DWord) (f : Form) :
    KeepsSetting s (advance (writePair s rd second v) f) :=
  ⟨writePair_status .., writePair_params .., writePair_launch ..⟩

/-- Every instruction has this shape, by the kind of its access: none, a read of each size, a write of each size
(10_state R25, 20_memory R59). -/
theorem exec_checksThenCompletes (i : Instr) (s : State) : ChecksThenCompletes i s := by
  match i with
  | .nop | .b _ | .bro _ => exact ⟨_, rfl, rfl, rfl, rfl⟩
  | .be .. | .bne .. | .blt .. | .bgt .. | .movImm .. | .movReg .. => exact ⟨_, rfl, rfl, rfl, rfl⟩
  | .addImm .. | .subImm .. | .mulImm .. | .andImm .. | .orImm .. | .xorImm .. | .lshImm .. | .rshImm .. =>
    exact ⟨_, rfl, rfl, rfl, rfl⟩
  | .addReg .. | .subReg .. | .mulReg .. | .andReg .. | .orReg .. | .xorReg .. | .lshReg .. | .rshReg .. =>
    exact ⟨_, rfl, rfl, rfl, rfl⟩
  | .addMem .. | .subMem .. | .mulMem .. | .andMem .. | .orMem .. | .xorMem .. | .lshMem .. | .rshMem .. =>
    exact .of_effect rfl (memReadWord_map ..) ⟨rfl, rfl, rfl⟩
  | .movImm32 .. => exact ⟨_, rfl, writePair_keepsSetting ..⟩
  | .loadLowAbs .. | .loadHighAbs .. | .loadLowRel .. | .loadHighRel .. =>
    exact .of_effect rfl (memReadByte_map ..) ⟨rfl, rfl, rfl⟩
  | .loadWordAbs .. | .loadWordRel .. => exact .of_effect rfl (memReadWord_map ..) ⟨rfl, rfl, rfl⟩
  | .loadPairAbs .. | .loadPairRel .. => exact .of_effect rfl (memReadDWord_map ..) (writePair_keepsSetting ..)
  | .storeLowAbs .. | .storeHighAbs .. | .storeLowRel .. | .storeHighRel .. =>
    exact .of_effect rfl (memWrite_map _ _ rfl _) ⟨rfl, rfl, rfl⟩
  | .storeWordAbs .. | .storeWordRel .. =>
    exact .of_effect rfl (memWrite_map _ _ (wordBytes_length ..) _) ⟨rfl, rfl, rfl⟩
  | .storePairAbs .. | .storePairRel .. =>
    exact .of_effect rfl (memWrite_map _ _ (dwordBytes_length ..) _) ⟨rfl, rfl, rfl⟩

/-- Settles O17: with both checks passed, the next state that every instruction has behind them is taken. -/
theorem everyInstructionCompletes : Obligations.EveryInstructionCompletes := by
  intro i s hregs haccess
  obtain ⟨t, hexec, hkeeps⟩ := exec_checksThenCompletes i s
  have hnext : exec i s = .next t :=
    hexec.trans (perform_ok (illegalRegister_usedFields_iff.2 hregs) (guarded_ok haccess t))
  exact ⟨t, hnext, hkeeps.status⟩

end Sys2Proof.Machine
end

section
/-! SUPPORT. What every instruction does once its checks pass, by form: registers, `OV` and memory first, then `pc`
(10_state R22, R25, R27, R28; 20_memory R59). -/

namespace Sys2Proof.Machine

open Sys2Proof.Claims

/-! ### An instruction by its form and fields -/

/-- Form and fields of an instruction give it back (30_encoding R89). -/
theorem instr_form_fields (i : Instr) : i.form.instr i.fields = i := by
  cases i <;> simp [Instr.form, Instr.fields, Form.instr]

/-- Every instruction is one of a form with values for its fields. -/
theorem exists_instr (i : Instr) : ∃ f v, i = Form.instr f v := ⟨i.form, i.fields, (instr_form_fields i).symm⟩

@[simp] theorem form_instr (f : Form) (v : Fields) : (f.instr v).form = f := by
  match f with
  | .alu op kind => cases op <;> cases kind <;> rfl
  | .load part kind | .store part kind => cases part <;> cases kind <;> rfl
  | .nop | .movImm | .movImm32 | .movReg | .b | .be | .bne | .blt | .bgt | .bro => rfl

theorem behind_instr (f : Form) (v : Fields) (s : State) : behind (f.instr v) s = nextPc s f := by
  simp [behind, nextPc, Instr.length]

/-- The registers of an instruction are those of the fields its form uses (10_state R25). -/
theorem mem_usedRegs_instr {f : Form} {v : Fields} {r : RegNum} :
    r ∈ (f.instr v).usedRegs ↔
      (f.uses.rd = true ∧ r = v.rd) ∨ (f.uses.rn = true ∧ r = v.rn) ∨ (f.uses.rn1 = true ∧ r = v.rn1) := by
  match f with
  | .alu op kind => cases op <;> cases kind <;> simp [Form.instr, Instr.usedRegs, Form.uses]
  | .load part kind | .store part kind => cases part <;> cases kind <;> simp [Form.instr, Instr.usedRegs, Form.uses]
  | .nop | .movImm | .movImm32 | .movReg => simp [Form.instr, Instr.usedRegs, Form.uses]
  | .b | .be | .bne | .blt | .bgt | .bro => simp [Form.instr, Instr.usedRegs, Form.uses]

/-- A form writes only registers that it uses (10_state R25). -/
theorem mem_usedRegs_of_mem_destinations {i : Instr} {r : RegNum} (h : r ∈ destinations i) : r ∈ i.usedRegs := by
  cases i <;> simp [destinations, Instr.usedRegs] at h ⊢ <;> tauto

/-! ### The state after the checks -/

/-- The addressing mode of a load or a store (42_mov R180). -/
def modeOf (v : Fields) : AddressKind → AddressMode
  | .absolute => .absolute v.operand
  | .relative => .relative v.rn v.operand

/-- The second operand of an arithmetic form (41_alu R131). -/
def operandValue (v : Fields) (s : State) : AluKind → Word
  | .imm => v.operand.setWidth 16
  | .reg => readReg s v.rn
  | .mem => s.mem.readWord s.params.byteOrder v.operand.toNat

/-- The registers after a load from `ea` (42_mov R186 to R189). -/
def loaded (v : Fields) (s : State) (ea : Addr) : MovePart → State
  | .low => writeLow s v.rd (s.mem.read ea.toNat)
  | .high => writeHigh s v.rd (s.mem.read ea.toNat)
  | .word => writeReg s v.rd (s.mem.readWord s.params.byteOrder ea.toNat)
  | .pair => writePair s v.rd v.rn1 (s.mem.readDWord s.params.byteOrder ea.toNat)

/-- The bytes a store writes (42_mov R190 to R193). -/
def storedBytes (v : Fields) (s : State) : MovePart → List Byte
  | .low => [lowByte (readReg s v.rd)]
  | .high => [highByte (readReg s v.rd)]
  | .word => wordBytes s.params.byteOrder (readReg s v.rd)
  | .pair => dwordBytes s.params.byteOrder (joinHalves (readReg s v.rd) (readReg s v.rn1))

/-- What a form does to registers, `OV` and memory; the `pc` of this state is not looked at. -/
def dataEffect (f : Form) (v : Fields) (s : State) : State :=
  match f with
  | .alu op kind => aluCommit op v.rd f s (operandValue v s kind)
  | .movImm => writeReg s v.rd (v.operand.setWidth 16)
  | .movImm32 => writePair s v.rd v.rn v.operand
  | .movReg => writeReg s v.rn (readReg s v.rd)
  | .load part kind => loaded v s (effectiveAddress (modeOf v kind) s) part
  | .store part kind =>
    { s with mem := s.mem.writeBytes (effectiveAddress (modeOf v kind) s).toNat (storedBytes v s part) }
  | .nop | .b | .be | .bne | .blt | .bgt | .bro => s

/-- The form is a branch whose condition holds (43_branch R221, R222, R227). -/
def taken (f : Form) (v : Fields) (s : State) : Bool :=
  match f with
  | .b => true
  | .be => readReg s v.rd == readReg s v.rn
  | .bne => readReg s v.rd != readReg s v.rn
  | .blt => lessThan s.params.cmpSigned (readReg s v.rd) (readReg s v.rn)
  | .bgt => lessThan s.params.cmpSigned (readReg s v.rn) (readReg s v.rd)
  | .bro => s.ov
  | _ => false

/-- The state after an instruction whose checks pass. -/
def completed (f : Form) (v : Fields) (s : State) : State :=
  { dataEffect f v s with pc := if taken f v s then v.operand else nextPc s f }

/-- A store accesses the bytes it writes (20_memory R59). -/
theorem dataAccess_store (part : MovePart) (kind : AddressKind) (v : Fields) (s : State) :
    dataAccess ((Form.store part kind).instr v) s =
      some (effectiveAddress (modeOf v kind) s, (storedBytes v s part).length) := by
  cases part <;> cases kind <;> simp only [storedBytes, wordBytes_length, dwordBytes_length] <;> rfl

/-- A store performs its checked write (42_mov R190 to R193). -/
theorem exec_store (part : MovePart) (kind : AddressKind) (v : Fields) (s : State) :
    exec ((Form.store part kind).instr v) s =
      perform s (usedFields ((Form.store part kind).instr v))
        ((memWrite s (effectiveAddress (modeOf v kind) s) (storedBytes v s part)).map
          fun t => advance t (.store part kind)) := by
  cases part <;> cases kind <;> rfl

theorem advance_writePair (s : State) (rd second : RegNum) (d : DWord) (f : Form) :
    advance (writePair s rd second d) f = { writePair s rd second d with pc := nextPc s f } := by
  simp [advance, nextPc]

/-- Every instruction checks its registers, then its data access, and then completes (60_exceptions R256). -/
theorem exec_instr (f : Form) (v : Fields) (s : State) :
    exec (f.instr v) s =
      perform s (usedFields (f.instr v)) (guarded s (dataAccess (f.instr v) s) (completed f v s)) := by
  match f with
  | .nop | .movImm | .movReg | .b | .be | .bne | .blt | .bgt | .bro => rfl
  | .movImm32 => exact congrArg (fun t => perform s _ (.ok t)) (advance_writePair ..)
  | .alu op .imm | .alu op .reg => cases op <;> rfl
  | .alu op .mem => cases op <;> exact congrArg (perform s _) (memReadWord_map ..)
  | .load .low kind | .load .high kind => cases kind <;> exact congrArg (perform s _) (memReadByte_map ..)
  | .load .word kind => cases kind <;> exact congrArg (perform s _) (memReadWord_map ..)
  | .load .pair kind =>
    cases kind <;>
      exact congrArg (perform s _) ((memReadDWord_map ..).trans (congrArg (guarded s _) (advance_writePair ..)))
  | .store part kind => rw [exec_store, memWrite_map _ _ rfl, dataAccess_store]; rfl

/-- A checked effect that takes place had its access allowed. -/
theorem guarded_eq_ok {s t u : State} {access : Option (Addr × Nat)} (h : guarded s access t = .ok u) :
    u = t ∧ ∀ ea n, access = some (ea, n) → accessible s ea n := by
  match access with
  | none => cases h; exact ⟨rfl, nofun⟩
  | some (a, n) =>
    simp only [guarded] at h
    split at h
    · cases h
    · next hnone =>
      cases h
      refine ⟨rfl, fun ea k hk => ?_⟩
      cases hk
      exact (checkAccess_none_iff ..).1 hnone

/-- A checked effect that faults has a fault of its access. -/
theorem guarded_eq_error {s t : State} {access : Option (Addr × Nat)} {f : Fault} (h : guarded s access t = .error f) :
    ∃ ea n, access = some (ea, n) ∧ accessFaultOf s ea n = some f := by
  match access with
  | none => cases h
  | some (a, n) =>
    simp only [guarded] at h
    split at h
    · next g hg => cases h; exact ⟨a, n, rfl, hg⟩
    · cases h

/-- Everything an instruction can do: fault, or pass its checks and complete (60_exceptions R250, R256). -/
theorem exec_instr_next {f : Form} {v : Fields} {s t : State} (h : exec (f.instr v) s = .next t) :
    (∃ g, t = faultState g s) ∨
      legal s (f.instr v).usedRegs ∧ (∀ ea n, dataAccess (f.instr v) s = some (ea, n) → accessible s ea n) ∧
        t = completed f v s := by
  rw [exec_instr] at h
  rcases perform_next h with ⟨g, rfl, -⟩ | ⟨hregs, heffect⟩
  · exact .inl ⟨g, rfl⟩
  · obtain ⟨rfl, haccess⟩ := guarded_eq_ok heffect
    exact .inr ⟨illegalRegister_usedFields_iff.1 hregs, haccess, rfl⟩

/-! ### What the effect writes -/

theorem loaded_keepsSetting (v : Fields) (s : State) (ea : Addr) (part : MovePart) :
    KeepsSetting s (loaded v s ea part) := by
  cases part with
  | low | high | word => exact ⟨rfl, rfl, rfl⟩
  | pair => exact ⟨writePair_status .., writePair_params .., writePair_launch ..⟩

/-- No completed instruction changes the status, the parameters or the launch (10_state section 1). -/
theorem completed_keepsSetting (f : Form) (v : Fields) (s : State) : KeepsSetting s (completed f v s) := by
  match f with
  | .nop | .b | .be | .bne | .blt | .bgt | .bro => exact ⟨rfl, rfl, rfl⟩
  | .alu _ _ | .movImm | .movReg | .store _ _ => exact ⟨rfl, rfl, rfl⟩
  | .movImm32 => exact ⟨writePair_status .., writePair_params .., writePair_launch ..⟩
  | .load part kind =>
    obtain ⟨hstatus, hparams, hlaunch⟩ := loaded_keepsSetting v s (effectiveAddress (modeOf v kind) s) part
    exact ⟨hstatus, hparams, hlaunch⟩

theorem loaded_mem (v : Fields) (s : State) (ea : Addr) (part : MovePart) : (loaded v s ea part).mem = s.mem := by
  cases part with
  | low | high | word => rfl
  | pair => exact writePair_mem ..

theorem loaded_ov (v : Fields) (s : State) (ea : Addr) (part : MovePart) : (loaded v s ea part).ov = s.ov := by
  cases part with
  | low | high | word => rfl
  | pair => exact writePair_ov ..

/-- Memory is as it was, or has the bytes of the instruction's data access written (20_memory R55, R59). -/
theorem completed_mem (f : Form) (v : Fields) (s : State) :
    (completed f v s).mem = s.mem ∨
      ∃ ea bytes, dataAccess (f.instr v) s = some (ea, bytes.length) ∧
        (completed f v s).mem = s.mem.writeBytes ea.toNat bytes := by
  match f with
  | .nop | .b | .be | .bne | .blt | .bgt | .bro | .alu _ _ | .movImm | .movReg => exact .inl rfl
  | .movImm32 => exact .inl (writePair_mem ..)
  | .load part kind => exact .inl (loaded_mem ..)
  | .store part kind => exact .inr ⟨_, _, dataAccess_store .., rfl⟩

/-- Under REF-OVF only add, sub and mul write `OV` (10_state R28, 41_alu R134). -/
theorem completed_ov {f : Form} {v : Fields} {s : State} (hrule : s.params.ovfUpdate = .refOvf)
    (hi : isAddSubMul (f.instr v) = false) : (completed f v s).ov = s.ov := by
  match f with
  | .nop | .b | .be | .bne | .blt | .bgt | .bro | .movImm | .movReg | .store _ _ => rfl
  | .movImm32 => exact writePair_ov ..
  | .load part kind => exact loaded_ov ..
  | .alu op kind =>
    show ovfUpdate s.params.ovfUpdate op _ _ s.ov = s.ov
    rw [hrule]
    cases op with
    | add | sub | mul => cases kind <;> cases hi
    | and | or | xor | lsh | rsh => rfl

theorem readReg_writeReg_of_ne (s : State) {r q : RegNum} (h : r ≠ q) (a : Word) :
    readReg (writeReg s r a) q = readReg s q := by
  rw [readReg_writeReg, if_neg h]

theorem readReg_writePair_of_ne (s : State) {rd second q : RegNum} (hrd : rd ≠ q) (hsecond : second ≠ q)
    (d : DWord) : readReg (writePair s rd second d) q = readReg s q := by
  rw [writePair_eq]
  split
  · exact readReg_writeReg_of_ne s hrd _
  · rw [readReg_writeReg_of_ne _ hsecond, readReg_writeReg_of_ne s hrd]

/-- A load keeps the registers it does not load (42_mov R186 to R189). -/
theorem readReg_loaded {v : Fields} {part : MovePart} {q : RegNum} (hrd : v.rd ≠ q)
    (hrn1 : part = .pair → v.rn1 ≠ q) (s : State) (ea : Addr) : readReg (loaded v s ea part) q = readReg s q := by
  cases part with
  | low | high | word => exact readReg_writeReg_of_ne s hrd _
  | pair => exact readReg_writePair_of_ne s hrd (hrn1 rfl) _

theorem destinations_alu (op : AluOp) (kind : AluKind) (v : Fields) :
    destinations ((Form.alu op kind).instr v) = [v.rd] := by
  cases op <;> cases kind <;> rfl

theorem destinations_load (part : MovePart) (kind : AddressKind) (v : Fields) :
    destinations ((Form.load part kind).instr v) = if part = .pair then [v.rd, v.rn1] else [v.rd] := by
  cases part <;> cases kind <;> rfl

/-- A register that is no destination keeps its value (10_state R25). -/
theorem readReg_completed {f : Form} {v : Fields} {r : RegNum} (hr : r ∉ destinations (f.instr v)) (s : State) :
    readReg (completed f v s) r = readReg s r := by
  match f with
  | .nop | .b | .be | .bne | .blt | .bgt | .bro | .store _ _ => rfl
  | .alu op kind =>
    have hrd : v.rd ≠ r := by simpa [destinations_alu, eq_comm] using hr
    exact readReg_writeReg_of_ne s hrd _
  | .movImm =>
    have hrd : v.rd ≠ r := by simpa [Form.instr, destinations, eq_comm] using hr
    exact readReg_writeReg_of_ne s hrd _
  | .movReg =>
    have hrn : v.rn ≠ r := by simpa [Form.instr, destinations, eq_comm] using hr
    exact readReg_writeReg_of_ne s hrn _
  | .movImm32 =>
    obtain ⟨hrd, hrn⟩ : v.rd ≠ r ∧ v.rn ≠ r := by simpa [Form.instr, destinations, eq_comm] using hr
    exact readReg_writePair_of_ne s hrd hrn _
  | .load part kind =>
    rw [destinations_load] at hr
    have hrd : v.rd ≠ r := by rintro rfl; split at hr <;> simp at hr
    have hrn1 (hpart : part = .pair) : v.rn1 ≠ r := by rintro rfl; simp [hpart] at hr
    exact readReg_loaded hrd hrn1 s _

/-- A taken branch goes to its target, and its condition holds (43_branch R220, R221). -/
theorem taken_branch {f : Form} {v : Fields} {s : State} (h : taken f v s = true) :
    targetOf (f.instr v) = some v.operand ∧ (legal s (f.instr v).usedRegs → branchTaken (f.instr v) s) := by
  match f with
  | .b => exact ⟨rfl, fun _ => trivial⟩
  | .be => exact ⟨rfl, fun hregs => ⟨hregs, by simpa [taken] using h⟩⟩
  | .bne => exact ⟨rfl, fun hregs => ⟨hregs, by simpa [taken] using h⟩⟩
  | .blt | .bgt => exact ⟨rfl, fun hregs => ⟨hregs, h⟩⟩
  | .bro => exact ⟨rfl, fun _ => h⟩
  | .nop | .alu _ _ | .movImm | .movImm32 | .movReg | .load _ _ | .store _ _ => cases h

theorem completed_pc (f : Form) (v : Fields) (s : State) :
    (completed f v s).pc = if taken f v s then v.operand else behind (f.instr v) s := by
  rw [behind_instr]; rfl

/-! ### What an instruction depends on -/

/-- What an instruction does to a state and to one with the same parameters and launch is related, if the data access
is the same and both a fault and the completion keep the relation. -/
theorem exec_instr_related {f : Form} {v : Fields} {s t : State} (h : exec (f.instr v) s = .next t) (s' : State)
    {R : State → State → Prop} (hparams : s'.params = s.params) (hlaunch : s'.launch = s.launch)
    (haccess : dataAccess (f.instr v) s' = dataAccess (f.instr v) s)
    (hfault : ∀ g, R (faultState g s) (faultState g s')) (hdone : R (completed f v s) (completed f v s')) :
    ∃ t', exec (f.instr v) s' = .next t' ∧ R t t' := by
  have hguard : guarded s' (dataAccess (f.instr v) s') (completed f v s') =
      (guarded s (dataAccess (f.instr v) s) (completed f v s)).map fun _ => completed f v s' := by
    rw [haccess]
    simp only [guarded, hparams, hlaunch]
    split
    · rfl
    · split <;> rfl
  rw [exec_instr] at h ⊢
  rw [hguard]
  rcases perform_next h with ⟨g, rfl, hregs | ⟨hregs, heffect⟩⟩ | ⟨hregs, heffect⟩
  · exact ⟨_, perform_illegal (hparams ▸ hregs), hfault g⟩
  · exact ⟨_, perform_fault (hparams ▸ hregs) (by rw [heffect]; rfl), hfault g⟩
  · obtain ⟨rfl, -⟩ := guarded_eq_ok heffect
    exact ⟨_, perform_ok (hparams ▸ hregs) (by rw [heffect]; rfl), hdone⟩

/-- The data access is a function of the registers the form uses (42_mov R182). -/
theorem dataAccess_congr {f : Form} {v : Fields} {s s' : State} (hparams : s'.params = s.params)
    (hregs : ∀ r ∈ (f.instr v).usedRegs, readReg s' r = readReg s r) :
    dataAccess (f.instr v) s' = dataAccess (f.instr v) s := by
  have relative (n : Nat) (hrn : f.uses.rn = true) :
      some (effectiveAddress (.relative v.rn v.operand) s', n) =
        some (effectiveAddress (.relative v.rn v.operand) s, n) := by
    simp only [effectiveAddress, hparams, hregs v.rn (mem_usedRegs_instr.2 (.inr (.inl ⟨hrn, rfl⟩)))]
  match f with
  | .load part .relative | .store part .relative => cases part <;> exact relative _ rfl
  | .load part .absolute | .store part .absolute => cases part <;> rfl
  | .alu op kind => cases op <;> cases kind <;> rfl
  | .nop | .movImm | .movImm32 | .movReg | .b | .be | .bne | .blt | .bgt | .bro => rfl

end Sys2Proof.Machine
end

section
/-! SUPPORT. Registers, `OV`, `pc` and memory over one instruction and one step (10_state). -/

namespace Sys2Proof.Machine

open Sys2Proof.Claims

/-! ### Memory (10_state section 7) -/

/-- Below every listed address memory reads as unlisted. -/
theorem Memory.read_of_lt {m : Memory} {a : Nat} (h : ∀ c ∈ m, a < c.1) : m.read a = Config.unlistedByte := by
  induction m with
  | nil => rfl
  | cons c rest ih =>
    have hc : a < c.1 := h c (by simp)
    rw [Memory.read, if_neg (by omega)]
    exact ih fun d hd => h d (by simp [hd])

theorem Memory.read_cons_self (k : Nat) (b : Byte) (rest : Memory) : Memory.read ((k, b) :: rest) k = b := if_pos rfl

theorem Memory.read_cons_of_ne {k a : Nat} (h : k ≠ a) (b : Byte) (rest : Memory) :
    Memory.read ((k, b) :: rest) a = Memory.read rest a := if_neg h

/-- Of canonical memories that read the same neither lists an address below the other's first: a listed byte does not
read as unlisted. -/
theorem Memory.head_le_of_read_eq {k k' : Nat} {b b' : Byte} {rest rest' : Memory}
    (hwf : Memory.wf ((k, b) :: rest) = true) (hwf' : Memory.wf ((k', b') :: rest') = true)
    (hread : ∀ a, Memory.read ((k, b) :: rest) a = Memory.read ((k', b') :: rest') a) : k' ≤ k := by
  obtain ⟨hb, -, -⟩ := (Memory.wf_cons ..).1 hwf
  obtain ⟨-, hlt', -⟩ := (Memory.wf_cons ..).1 hwf'
  by_contra hk
  have hbelow : ∀ c ∈ (k', b') :: rest', k < c.1 :=
    List.forall_mem_cons.2 ⟨by simpa using hk, fun c hc => by have := hlt' c hc; omega⟩
  exact hb (by rw [← Memory.read_cons_self k b rest, hread k, Memory.read_of_lt hbelow])

/-- A canonical memory that lists an address does not read as the empty one. -/
theorem Memory.exists_read_ne {k : Nat} {b : Byte} {rest : Memory} (hwf : Memory.wf ((k, b) :: rest) = true) :
    Memory.read ((k, b) :: rest) k ≠ Memory.read [] k := by
  rw [Memory.read_cons_self]
  exact ((Memory.wf_cons ..).1 hwf).1

/-- Settles O55, by induction on both lists: they list the same address first, with the same byte. -/
theorem canonicalMemoriesAreEqual : Obligations.CanonicalMemoriesAreEqual := by
  intro m
  induction m with
  | nil =>
    intro m' _ hwf' hread
    match m' with
    | [] => rfl
    | (k', _) :: _ => exact absurd (hread k').symm (Memory.exists_read_ne hwf')
  | cons c rest ih =>
    obtain ⟨k, b⟩ := c
    intro m' hwf hwf' hread
    match m' with
    | [] => exact absurd (hread k) (Memory.exists_read_ne hwf)
    | (k', b') :: rest' =>
      obtain rfl : k = k' := Nat.le_antisymm (Memory.head_le_of_read_eq hwf' hwf fun a => (hread a).symm)
        (Memory.head_le_of_read_eq hwf hwf' hread)
      obtain rfl : b = b' := by simpa [Memory.read_cons_self] using hread k
      obtain ⟨-, hlt, hrest⟩ := (Memory.wf_cons ..).1 hwf
      obtain ⟨-, hlt', hrest'⟩ := (Memory.wf_cons ..).1 hwf'
      have hreadRest (a : Nat) : Memory.read rest a = Memory.read rest' a := by
        by_cases ha : k = a
        · subst ha
          rw [Memory.read_of_lt hlt, Memory.read_of_lt hlt']
        · rw [← Memory.read_cons_of_ne ha b rest, hread a, Memory.read_cons_of_ne ha]
      rw [ih rest' hrest hrest' hreadRest]

/-! ### The invariant -/

theorem State.inv_iff (s : State) :
    s.inv = true ↔ Memory.wf s.mem = true ∧ (∀ c ∈ s.mem, inDataMap s.launch c.1 = true) ∧
      s.launch.wf s.params.ialign = true ∧ s.params.wf = true := by
  simp [State.inv, State.memInMap, and_assoc]

/-- Bytes written where an access is allowed lie in `DATA_MAP` (20_memory R54, R55). -/
theorem writeBytes_inDataMap {s : State} {ea : Addr} {bytes : List Byte} (haccess : accessible s ea bytes.length)
    (hmem : ∀ c ∈ s.mem, inDataMap s.launch c.1 = true) :
    ∀ c ∈ s.mem.writeBytes ea.toNat bytes, inDataMap s.launch c.1 = true := by
  intro c hc
  rcases Memory.mem_writeBytes hc with hold | ⟨hlow, hhigh⟩
  · exact hmem c hold
  · have hbyte := haccess.2 (c.1 - ea.toNat) (by omega)
    rwa [Nat.add_sub_cancel' hlow] at hbyte

/-- An instruction keeps the invariant: a fault writes only the status, and a store only what its access allows. -/
theorem exec_keeps_inv {i : Instr} {s t : State} (hinv : s.inv = true) (h : exec i s = .next t) : t.inv = true := by
  obtain ⟨f, v, rfl⟩ := exists_instr i
  obtain ⟨hwf, hmap, hlaunch, hparams⟩ := (State.inv_iff s).1 hinv
  rcases exec_instr_next h with ⟨g, rfl⟩ | ⟨-, haccess, rfl⟩
  · exact hinv
  · have hkeeps := completed_keepsSetting f v s
    rw [State.inv_iff, hkeeps.params, hkeeps.launch]
    rcases completed_mem f v s with hmem | ⟨ea, bytes, hea, hmem⟩
    · rw [hmem]
      exact ⟨hwf, hmap, hlaunch, hparams⟩
    · rw [hmem]
      exact ⟨Memory.wf_writeBytes hwf .., writeBytes_inDataMap (haccess _ _ hea) hmap, hlaunch, hparams⟩

/-- Settles O56: only an executed instruction can write more than the status, which the invariant does not look at. -/
theorem stepKeepsInvariant : Obligations.StepKeepsInvariant := by
  intro s t hinv h
  obtain ⟨-, -, -, ⟨-, rfl⟩ | ⟨-, ⟨f, -, rfl⟩ | ⟨i, -, hexec⟩⟩⟩ := step_next h
  · exact hinv
  · exact hinv
  · exact exec_keeps_inv hinv hexec

/-- Settles O57: no memory is listed at reset, the text is empty, and the parameters are the reference values. -/
theorem resetMeetsInvariant : Obligations.ResetMeetsInvariant :=
  (State.inv_iff _).2 ⟨State.reset_mem_wf, nofun, by decide, by decide⟩

/-- Settles O58: each value is the one `State.reset` is written with. -/
theorem resetValues : Obligations.ResetValues :=
  ⟨rfl, rfl, fun r => Vector.getElem_replicate r.isLt, rfl, fun _ => rfl⟩

/-! ### The end of a run -/

/-- A machine that takes no step stays in the states it is in after none. -/
theorem stateAfter_of_faulted {s t : State} {f : Fault} (hs : s.status = .faulted f) {n : Nat}
    (h : stateAfter n s = some t) : t = s := by
  cases n with
  | zero => cases h; rfl
  | succ k => rw [stateAfter, step_of_faulted hs] at h; cases h

/-- Settles O13: a faulted machine takes no step, and an ended one is at its end after none. -/
theorem faultedRunNeverEnds : Obligations.FaultedRunNeverEnds := by
  intro s
  constructor
  · rintro hs ⟨n, t, hrun, hfinal⟩
    match hstatus : s.status with
    | .faulted f =>
      obtain rfl := stateAfter_of_faulted hstatus hrun
      simp [State.final, hstatus] at hfinal
    | .running | .ended => simp [State.notFaulted, hstatus] at hs
  · exact fun hfinal => ⟨0, s, rfl, hfinal⟩

/-! ### Registers -/

/-- Settles O49, from what a register reads as after each write of a half. -/
theorem halfWrites : Obligations.HalfWrites := by
  intro s r q b
  refine ⟨?_, ?_, ?_, ?_, fun hq => ⟨?_, ?_⟩⟩
  · simp [readReg_writeLow]
  · simp [readReg_writeLow]
  · simp [readReg_writeHigh]
  · simp [readReg_writeHigh]
  · rw [readReg_writeLow, if_neg hq.symm]
  · rw [readReg_writeHigh, if_neg hq.symm]

/-- The faults of a data access are of its own three kinds (20_memory R54). -/
theorem accessFaultOf_ne_illegalRegister {s : State} {ea : Addr} {n : Nat} {field : RegField} {r : RegNum} :
    accessFaultOf s ea n ≠ some (.illegalRegister field r) := by
  unfold accessFaultOf checkAccess
  split_ifs <;> nofun

/-- Settles O15: the registers are checked first and in order, and a data access has faults of its own. -/
theorem illegalRegisterFaults : Obligations.IllegalRegisterFaults := by
  intro i s
  obtain ⟨f, v, rfl⟩ := exists_instr i
  rw [exec_instr]
  constructor
  · intro before after field r hused hbefore hr
    exact perform_illegal (hused ▸ illegalRegister_first _ before field r after hbefore hr)
  · intro hregs hrunning t field r h
    rcases perform_next h with ⟨g, rfl, hillegal | ⟨-, heffect⟩⟩ | ⟨-, heffect⟩
    · rw [(illegalRegister_none_iff ..).2 hregs] at hillegal
      cases hillegal
    · obtain ⟨ea, n, -, hfault⟩ := guarded_eq_error heffect
      intro hstatus
      cases hstatus
      exact accessFaultOf_ne_illegalRegister hfault
    · obtain ⟨rfl, -⟩ := guarded_eq_ok heffect
      rw [(completed_keepsSetting f v s).status, hrunning]
      nofun

/-- Settles O43: a fault writes no register, and a completed instruction its destinations only. -/
theorem onlyDestinationsChange : Obligations.OnlyDestinationsChange := by
  intro i s t r h hr
  obtain ⟨f, v, rfl⟩ := exists_instr i
  rcases exec_instr_next h with ⟨g, rfl⟩ | ⟨-, -, rfl⟩
  · rfl
  · exact readReg_completed hr s

/-- A register that does not exist keeps its value over an instruction: one that completes uses none (10_state R22). -/
theorem exec_keeps_missing {i : Instr} {s t : State} {r : RegNum} (h : exec i s = .next t)
    (hr : s.params.nregs ≤ r.toNat) : readReg t r = readReg s r := by
  obtain ⟨f, v, rfl⟩ := exists_instr i
  rcases exec_instr_next h with ⟨g, rfl⟩ | ⟨hregs, -, rfl⟩
  · rfl
  · refine readReg_completed (fun hdest => ?_) s
    have := hregs r (mem_usedRegs_of_mem_destinations hdest)
    omega

/-- Settles O48: only an executed instruction can write more than the status. -/
theorem missingRegistersNeverChange : Obligations.MissingRegistersNeverChange := by
  intro s t r h hr
  obtain ⟨-, -, -, ⟨-, rfl⟩ | ⟨-, ⟨f, -, rfl⟩ | ⟨i, -, hexec⟩⟩⟩ := step_next h
  · rfl
  · rfl
  · exact exec_keeps_missing hexec hr

/-! ### Registers that a form does not use -/

theorem writeReg_comm (s : State) {r q : RegNum} (h : r ≠ q) (a b : Word) :
    writeReg (writeReg s r a) q b = writeReg (writeReg s q b) r a := by
  have hne : r.toNat ≠ q.toNat := fun he => h (BitVec.eq_of_toNat_eq he)
  simp only [writeReg, Vector.set_comm _ _ hne]

theorem writePair_writeReg (s : State) {r rd second : RegNum} (hrd : r ≠ rd) (hsecond : r ≠ second) (w : Word)
    (d : DWord) : writePair (writeReg s r w) rd second d = writeReg (writePair s rd second d) r w := by
  rw [writePair_eq, writePair_eq]
  split
  · exact writeReg_comm s hrd ..
  · rw [writeReg_comm s hrd, writeReg_comm _ hsecond]

/-- `r` is none of the registers that the form uses. -/
structure Unused (f : Form) (v : Fields) (r : RegNum) : Prop where
  rd : f.uses.rd = true → r ≠ v.rd
  rn : f.uses.rn = true → r ≠ v.rn
  rn1 : f.uses.rn1 = true → r ≠ v.rn1

theorem Unused.of_not_mem {f : Form} {v : Fields} {r : RegNum} (h : r ∉ (f.instr v).usedRegs) : Unused f v r where
  rd hu he := h (mem_usedRegs_instr.2 (.inl ⟨hu, he⟩))
  rn hu he := h (mem_usedRegs_instr.2 (.inr (.inl ⟨hu, he⟩)))
  rn1 hu he := h (mem_usedRegs_instr.2 (.inr (.inr ⟨hu, he⟩)))

theorem effectiveAddress_writeReg (v : Fields) (s : State) {r : RegNum} (w : Word) {kind : AddressKind}
    (h : kind = .relative → r ≠ v.rn) :
    effectiveAddress (modeOf v kind) (writeReg s r w) = effectiveAddress (modeOf v kind) s := by
  cases kind with
  | absolute => rfl
  | relative => simp only [modeOf, effectiveAddress, readReg_writeReg_of_ne s (h rfl), writeReg_params]

theorem operandValue_writeReg {op : AluOp} {kind : AluKind} {v : Fields} {r : RegNum} (hu : Unused (.alu op kind) v r)
    (s : State) (w : Word) : operandValue v (writeReg s r w) kind = operandValue v s kind := by
  cases kind with
  | imm | mem => rfl
  | reg => exact readReg_writeReg_of_ne s (hu.rn rfl) w

/-- A load into other registers (42_mov R186 to R189). -/
theorem loaded_writeReg {part : MovePart} {kind : AddressKind} {v : Fields} {r : RegNum}
    (hu : Unused (.load part kind) v r) (s : State) (w : Word) (ea : Addr) :
    loaded v (writeReg s r w) ea part = writeReg (loaded v s ea part) r w := by
  have hrd : r ≠ v.rd := hu.rd (by cases kind <;> rfl)
  cases part with
  | low => simp only [loaded, writeLow, readReg_writeReg_of_ne s hrd, writeReg_comm s hrd, writeReg_mem]
  | high => simp only [loaded, writeHigh, readReg_writeReg_of_ne s hrd, writeReg_comm s hrd, writeReg_mem]
  | word => exact writeReg_comm s hrd ..
  | pair => exact writePair_writeReg s hrd (hu.rn1 (by cases kind <;> rfl)) ..

/-- A store of other registers (42_mov R190 to R193). -/
theorem storedBytes_writeReg {part : MovePart} {kind : AddressKind} {v : Fields} {r : RegNum}
    (hu : Unused (.store part kind) v r) (s : State) (w : Word) :
    storedBytes v (writeReg s r w) part = storedBytes v s part := by
  have hrd : r ≠ v.rd := hu.rd (by cases kind <;> rfl)
  cases part with
  | low | high | word => simp only [storedBytes, readReg_writeReg_of_ne s hrd, writeReg_params]
  | pair =>
    have hrn1 : r ≠ v.rn1 := hu.rn1 (by cases kind <;> rfl)
    simp only [storedBytes, readReg_writeReg_of_ne s hrd, readReg_writeReg_of_ne s hrn1, writeReg_params]

theorem aluCommit_writeReg (op : AluOp) {r rd : RegNum} (h : r ≠ rd) (f : Form) (s : State) (w b : Word) :
    aluCommit op rd f (writeReg s r w) b = writeReg (aluCommit op rd f s b) r w := by
  simp only [aluCommit, readReg_writeReg_of_ne s h, writeReg_comm s h, writeReg_params]
  rfl

/-- Writing a register that a form does not use and its effect commute (10_state R25). -/
theorem dataEffect_writeReg {f : Form} {v : Fields} {r : RegNum} (hu : Unused f v r) (s : State) (w : Word) :
    dataEffect f v (writeReg s r w) = writeReg (dataEffect f v s) r w := by
  match f with
  | .nop | .b | .be | .bne | .blt | .bgt | .bro => rfl
  | .alu op kind =>
    simp only [dataEffect, operandValue_writeReg hu]
    exact aluCommit_writeReg op (hu.rd (by cases kind <;> rfl)) ..
  | .movImm => exact writeReg_comm s (hu.rd rfl) ..
  | .movImm32 => exact writePair_writeReg s (hu.rd rfl) (hu.rn rfl) ..
  | .movReg =>
    simp only [dataEffect, readReg_writeReg_of_ne s (hu.rd rfl)]
    exact writeReg_comm s (hu.rn rfl) ..
  | .load part kind =>
    have hrn (hkind : kind = .relative) : r ≠ v.rn := by subst hkind; exact hu.rn rfl
    simp only [dataEffect, effectiveAddress_writeReg v s w hrn, loaded_writeReg hu]
  | .store part kind =>
    have hrn (hkind : kind = .relative) : r ≠ v.rn := by subst hkind; exact hu.rn rfl
    simp only [dataEffect, effectiveAddress_writeReg v s w hrn, storedBytes_writeReg hu]
    rfl

/-- A branch compares only registers it uses (43_branch R221). -/
theorem taken_writeReg {f : Form} {v : Fields} {r : RegNum} (hu : Unused f v r) (s : State) (w : Word) :
    taken f v (writeReg s r w) = taken f v s := by
  match f with
  | .be | .bne | .blt | .bgt =>
    simp only [taken, readReg_writeReg_of_ne s (hu.rd rfl), readReg_writeReg_of_ne s (hu.rn rfl), writeReg_params]
  | .nop | .b | .bro | .alu _ _ | .movImm | .movImm32 | .movReg | .load _ _ | .store _ _ => rfl

theorem completed_writeReg {f : Form} {v : Fields} {r : RegNum} (hu : Unused f v r) (s : State) (w : Word) :
    completed f v (writeReg s r w) = writeReg (completed f v s) r w := by
  simp only [completed, dataEffect_writeReg hu, taken_writeReg hu]
  rfl

/-- Settles O44: checks, data access and completion are those of the unchanged state. -/
theorem unusedRegistersDoNotMatter : Obligations.UnusedRegistersDoNotMatter := by
  intro i s t r w hr h
  obtain ⟨f, v, rfl⟩ := exists_instr i
  have haccess : dataAccess (f.instr v) (writeReg s r w) = dataAccess (f.instr v) s :=
    dataAccess_congr rfl fun q hq => readReg_writeReg_of_ne s (fun he : r = q => hr (he ▸ hq)) w
  obtain ⟨_, hnext, rfl⟩ :=
    exec_instr_related h (writeReg s r w) (R := fun t t' => t' = writeReg t r w) rfl rfl haccess (fun _ => rfl)
      (completed_writeReg (.of_not_mem hr) s w)
  exact hnext

/-! ### The overflow flag -/

/-- The states differ in `OV` at most. -/
def SameButOv (s t : State) : Prop := ∃ c, t = { s with ov := c }

/-- The pair write neither reads nor writes `OV` (42_mov R203). -/
theorem writePair_setOv (s : State) (rd second : RegNum) (d : DWord) (b : Bool) :
    writePair { s with ov := b } rd second d = { writePair s rd second d with ov := b } := by
  rw [writePair_eq, writePair_eq]
  split <;> rfl

/-- No effect but the new `OV` itself depends on `OV` (10_state R28). -/
theorem dataEffect_setOv (f : Form) (v : Fields) (s : State) (b : Bool) :
    SameButOv (dataEffect f v s) (dataEffect f v { s with ov := b }) := by
  match f with
  | .nop | .b | .be | .bne | .blt | .bgt | .bro | .movImm | .movReg | .store _ _ => exact ⟨b, rfl⟩
  | .alu op kind => cases kind <;> exact ⟨_, rfl⟩
  | .movImm32 => exact ⟨b, writePair_setOv ..⟩
  | .load part kind =>
    cases part with
    | low | high | word => cases kind <;> exact ⟨b, rfl⟩
    | pair => cases kind <;> exact ⟨b, writePair_setOv ..⟩

/-- Only bro tests `OV` (43_branch R227). -/
theorem taken_setOv {f : Form} (hf : f ≠ .bro) (v : Fields) (s : State) (b : Bool) :
    taken f v { s with ov := b } = taken f v s := by
  match f with
  | .bro => exact absurd rfl hf
  | .nop | .b | .be | .bne | .blt | .bgt => rfl
  | .alu _ _ | .movImm | .movImm32 | .movReg | .load _ _ | .store _ _ => rfl

theorem completed_setOv {f : Form} (hf : f ≠ .bro) (v : Fields) (s : State) (b : Bool) :
    SameButOv (completed f v s) (completed f v { s with ov := b }) := by
  obtain ⟨c, hc⟩ := dataEffect_setOv f v s b
  exact ⟨c, by simp only [completed, hc, taken_setOv hf]; rfl⟩

/-- Settles O45: the first half is what a completed instruction writes to `OV`, the second what of it depends on
`OV`. -/
theorem overflowFlagWrittenAndReadBy : Obligations.OverflowFlagWrittenAndReadBy := by
  intro i s t h
  obtain ⟨f, v, rfl⟩ := exists_instr i
  constructor
  · intro hrule hi
    rcases exec_instr_next h with ⟨g, rfl⟩ | ⟨-, -, rfl⟩
    · rfl
    · exact completed_ov hrule hi
  · intro hbro b
    have hf : f ≠ .bro := by rintro rfl; exact hbro _ rfl
    obtain ⟨_, hnext, c, rfl⟩ := exec_instr_related h { s with ov := b } (R := SameButOv) rfl rfl
      (dataAccess_congr rfl fun _ _ => rfl) (fun _ => ⟨b, rfl⟩) (completed_setOv hf v s b)
    exact ⟨c, hnext⟩

/-! ### The program counter -/

/-- An instruction that goes on running has completed, its registers being there. -/
theorem exec_instr_running {f : Form} {v : Fields} {s t : State} (h : exec (f.instr v) s = .next t)
    (ht : t.status = .running) : legal s (f.instr v).usedRegs ∧ t = completed f v s := by
  rcases exec_instr_next h with ⟨g, rfl⟩ | ⟨hregs, -, rfl⟩
  · cases ht
  · exact ⟨hregs, rfl⟩

/-- Settles O46: `pc` is the target exactly when a branch is taken. -/
theorem onlyBranchesRedirectPc : Obligations.OnlyBranchesRedirectPc := by
  intro i s t h _ ht
  obtain ⟨f, v, rfl⟩ := exists_instr i
  obtain ⟨-, rfl⟩ := exec_instr_running h ht
  rw [completed_pc]
  split
  · next htaken => exact .inr (taken_branch htaken).1
  · exact .inl rfl

/-- Without a branch taken, `pc` moves on by the length (10_state R27). -/
theorem exec_pc_of_not_taken {i : Instr} {s t : State} (h : exec i s = .next t) (ht : t.status = .running)
    (hi : targetOf i = none ∨ ¬ branchTaken i s) : t.pc = behind i s := by
  obtain ⟨f, v, rfl⟩ := exists_instr i
  obtain ⟨hregs, rfl⟩ := exec_instr_running h ht
  rw [completed_pc, if_neg]
  intro htaken
  obtain ⟨htarget, hcondition⟩ := taken_branch htaken
  rcases hi with hnone | hfalse
  · rw [hnone] at htarget
    cases htarget
  · exact hfalse (hcondition hregs)

/-- All the bytes of an instruction that decodes are there (30_encoding R90). -/
theorem length_le_of_decode {p : Params} {bytes : List Byte} {i : Instr} (h : decode p bytes = .ok i) :
    i.length p ≤ bytes.length := by
  obtain ⟨-, f, -, hlen, -, rfl⟩ := decode_ok h
  rwa [Instr.length, form_instr]

/-- Settles O47: the bytes of the instruction end at `PROG_END` or before, which is below 2^32. -/
theorem sequentialPcDoesNotWrap : Obligations.SequentialPcDoesNotWrap := by
  intro s t i hr htext hdecode hi h ht
  obtain ⟨-, hlaunch, hparams⟩ := hr
  obtain ⟨hfour, hmod⟩ := s.params.len_wf hparams i.form
  have hend : s.pc.toNat + i.length s.params ≤ s.launch.progEnd :=
    add_le_progEnd htext (show 0 < s.params.len i.form by omega) (length_le_of_decode hdecode)
  have hsize : s.launch.progEnd < 2 ^ 32 := by
    simp only [Launch.wf, Bool.and_eq_true, decide_eq_true_eq] at hlaunch
    exact hlaunch.2
  have hpc : t.pc.toNat = s.pc.toNat + i.length s.params := by
    rw [exec_pc_of_not_taken h ht hi, behind, BitVec.toNat_add, BitVec.toNat_ofNat, Nat.add_mod_mod,
      Nat.mod_eq_of_lt (by omega)]
  refine ⟨hpc, hpc ▸ hend, ?_⟩
  rw [hpc, Nat.add_mod, htext.1, Instr.length, hmod]
  simp

end Sys2Proof.Machine
end

section
/-! SUPPORT. Fetching and its faults, at an address and at a step (20_memory R56, R58; 30_encoding R90). -/

namespace Sys2Proof.Machine

open Sys2Proof.Claims

/-! ### Fetch -/

theorem fetch_misaligned {ialign : Nat} {l : Launch} {a : Addr} (n : Nat) (h : a.toNat % ialign ≠ 0) :
    fetch ialign l a n = .error (.fetchMisaligned a) := if_pos h

/-- An aligned fetch that is not all in the text faults (20_memory R56). -/
theorem fetch_outside {ialign : Nat} {l : Launch} {a : Addr} {n : Nat} (h : a.toNat % ialign = 0)
    (hout : a.toNat < l.progBase.toNat ∨ a.toNat + n > l.progEnd) :
    fetch ialign l a n = .error (.fetchFault a n) := by
  rw [fetch, if_neg (not_not_intro h), if_pos hout]

/-- Settles O10, a case for each branch of `fetch`: the bytes are a piece of the text of length `n`. -/
theorem fetchRule : Obligations.FetchRule := by
  intro ialign l a n
  refine ⟨fetch_misaligned n, fetch_outside, fun halign hbase hend => ?_⟩
  refine ⟨_, fetch_ok_iff.2 ⟨halign, hbase, hend, rfl⟩, ?_, fun k hk => ?_⟩
  · rw [Launch.progEnd] at hend
    exact List.length_take_of_le (by rw [List.length_drop]; omega)
  · rw [List.getElem?_take_of_lt hk, List.getElem?_drop]

/-! ### The fetch faults of a step -/

/-- A fault of fetching or decoding is raised, and writes the status only (60_exceptions R250). -/
theorem step_of_fetchDecode_error {s : State} {f : Fault} (hr : ready s) (hpc : s.pc.toNat ≠ s.launch.progEnd)
    (h : fetchDecode s.params s.launch s.pc = .error f) : step s = .next (faultedWith s f) := by
  obtain ⟨hrunning, hlaunch, hparams⟩ := hr
  simp only [step, hrunning, hlaunch, hparams, Bool.and_self, if_true, if_neg hpc, h]
  rfl

/-- The header is fetched first: its fault is the step's (30_encoding R90). -/
theorem fetchDecode_of_header_error {p : Params} {l : Launch} {pc : Addr} {f : Fault}
    (h : fetch p.ialign l pc 4 = .error f) : fetchDecode p l pc = .error f := by
  simp only [fetchDecode, h]

theorem headerFetchFaults_holds (s : State) : headerFetchFaults s :=
  fun hr hpc =>
    ⟨fun hodd => step_of_fetchDecode_error hr hpc (fetchDecode_of_header_error (fetch_misaligned 4 hodd)),
      fun halign hout => step_of_fetchDecode_error hr hpc (fetchDecode_of_header_error (fetch_outside halign hout))⟩

/-- `pc + 4` is aligned, since `IALIGN` divides 4, and does not wrap where a header is in the text, since `PROG_END` is
below 2^32 (20_memory R56, log 19). -/
theorem pc_add_four {s : State} (hr : ready s) (hpc : s.pc.toNat % s.params.ialign = 0)
    (hend : s.pc.toNat + 4 ≤ s.launch.progEnd) :
    (s.pc + 4).toNat = s.pc.toNat + 4 ∧ (s.pc + 4).toNat % s.params.ialign = 0 := by
  obtain ⟨-, hlaunch, hparams⟩ := hr
  obtain ⟨-, hialign, -⟩ := s.params.wf_iff.1 hparams
  simp only [Launch.wf, Bool.and_eq_true, decide_eq_true_eq] at hlaunch
  obtain ⟨-, hsize⟩ := hlaunch
  have hnext : (s.pc + 4).toNat = s.pc.toNat + 4 := by bv_omega
  refine ⟨hnext, ?_⟩
  rw [hnext, Nat.add_mod, hpc, hialign]
  simp

/-- What is behind the header of an instruction that the text cuts short is not all in the text. -/
theorem fetchRest_short {s : State} (hr : ready s) (ht : atText s) (hfour : 4 ≤ (textAt s).length) {f : Form}
    (hshort : (textAt s).length < s.params.len f) :
    fetchRest s.params s.launch s.pc f = .error (.fetchFault (s.pc + 4) (s.params.len f - 4)) := by
  obtain ⟨hnext, halign⟩ := pc_add_four hr ht.1 (add_le_progEnd ht (by omega) hfour)
  rw [textAt, List.length_drop] at hshort hfour
  rw [fetchRest, if_pos (by omega)]
  exact fetch_outside halign (.inr (by rw [hnext, Launch.progEnd]; omega))

/-- A defined header whose rest cannot be fetched: the fault is that of the rest (30_encoding R90). -/
theorem fetchDecode_of_rest_error {s : State} {opcode spec : Byte} {header rest : List Byte} {form : Form} {f : Fault}
    (ht : atText s) (hheader : headerAt s opcode spec header rest) (hform : formOf opcode spec = some form)
    (h : fetchRest s.params s.launch s.pc form = .error f) : fetchDecode s.params s.launch s.pc = .error f := by
  obtain ⟨htext, hfour, rfl, rfl⟩ := hheader
  have hfetch : fetch s.params.ialign s.launch s.pc 4 = .ok header := by
    rw [fetch_header ht (by rw [htext, List.length_append]; omega), htext, List.take_left' hfour]
  simp only [fetchDecode, hfetch, hform, h]

/-- Settles O11: the header is fetched before the rest, and each by `fetch`. -/
theorem fetchFaultsOfStep : Obligations.FetchFaultsOfStep := by
  intro s
  refine ⟨headerFetchFaults_holds s, fun opcode spec header rest f hr ht hheader hform hshort => ?_⟩
  have ⟨htext, hfour, _⟩ := hheader
  have hlen : (textAt s).length = rest.length + 4 := by rw [htext, List.length_append, hfour, Nat.add_comm]
  have hend : s.pc.toNat + 4 ≤ s.launch.progEnd := add_le_progEnd ht (by omega) (by omega)
  exact step_of_fetchDecode_error hr (by omega)
    (fetchDecode_of_rest_error ht hheader hform (fetchRest_short hr ht (by omega) (by omega)))

end Sys2Proof.Machine
end

section
/-! SUPPORT. The faults of a data access, and what no instruction writes (20_memory R54, R56, R57, R59, R62, R66,
R67). -/

namespace Sys2Proof.Machine

open Sys2Proof.Claims

/-- With its registers there, an instruction takes the fault of its data access and writes the status only. -/
theorem exec_of_accessFault {i : Instr} {s : State} {ea : Addr} {n : Nat} {g : Fault} (hregs : legal s i.usedRegs)
    (haccess : dataAccess i s = some (ea, n)) (hfault : accessFaultOf s ea n = some g) :
    exec i s = .next (faultedWith s g) := by
  obtain ⟨f, v, rfl⟩ := exists_instr i
  rw [exec_instr]
  exact perform_fault (illegalRegister_usedFields_iff.2 hregs) (by simp only [haccess, guarded, hfault])

/-- Settles O16: the fault is the one the check of the access finds first. -/
theorem dataAccessFaults : Obligations.DataAccessFaults := by
  intro i s ea n hregs haccess
  refine ⟨fun hpolicy hodd => ?_, fun halign ⟨k, hk, htext⟩ => ?_, fun halign hno ⟨k, hk, hmap⟩ => ?_⟩
  · exact exec_of_accessFault hregs haccess (checkAccess_misaligned hpolicy hodd)
  · exact exec_of_accessFault hregs haccess (checkAccess_text halign k hk htext)
  · exact exec_of_accessFault hregs haccess (checkAccess_outside halign hno k hk hmap)

/-! ### What no instruction writes -/

theorem exec_keeps_launch_params {i : Instr} {s t : State} (h : exec i s = .next t) :
    t.launch = s.launch ∧ t.params = s.params := by
  obtain ⟨f, v, rfl⟩ := exists_instr i
  rcases exec_instr_next h with ⟨g, rfl⟩ | ⟨-, -, rfl⟩
  · exact ⟨rfl, rfl⟩
  · exact ⟨(completed_keepsSetting f v s).launch, (completed_keepsSetting f v s).params⟩

/-- Settles O14: only an executed instruction can write more than the status. -/
theorem stepKeepsLaunchAndParams : Obligations.StepKeepsLaunchAndParams := by
  intro s t h
  obtain ⟨-, -, -, ⟨-, rfl⟩ | ⟨-, ⟨f, -, rfl⟩ | ⟨i, -, hexec⟩⟩⟩ := step_next h
  · exact ⟨rfl, rfl⟩
  · exact ⟨rfl, rfl⟩
  · exact exec_keeps_launch_params hexec

theorem completed_mem_of_not_stores {f : Form} {v : Fields} (h : stores (f.instr v) = false) (s : State) :
    (completed f v s).mem = s.mem := by
  match f with
  | .nop | .b | .be | .bne | .blt | .bgt | .bro | .alu _ _ | .movImm | .movReg => rfl
  | .movImm32 => exact writePair_mem ..
  | .load part kind => exact loaded_mem ..
  | .store part kind => cases part <;> cases kind <;> cases h

/-- Everything an instruction can do to memory: nothing, or, if it is a store, write the bytes of its data access
(20_memory R55, R59). -/
theorem exec_mem {i : Instr} {s t : State} (h : exec i s = .next t) :
    t.mem = s.mem ∨ stores i = true ∧ ∃ ea bytes, dataAccess i s = some (ea, bytes.length) ∧
      t.mem = s.mem.writeBytes ea.toNat bytes := by
  obtain ⟨f, v, rfl⟩ := exists_instr i
  rcases exec_instr_next h with ⟨g, rfl⟩ | ⟨-, -, rfl⟩
  · exact .inl rfl
  · cases hstores : stores (f.instr v) with
    | false => exact .inl (completed_mem_of_not_stores hstores s)
    | true => exact (completed_mem f v s).imp_right fun hwritten => ⟨rfl, hwritten⟩

theorem Memory.read_writeBytes_beside (m : Memory) {a x : Nat} {bytes : List Byte}
    (h : x < a ∨ a + bytes.length ≤ x) : (m.writeBytes a bytes).read x = m.read x := by
  rw [Memory.read_writeBytes, if_neg (by omega)]

/-- Settles O42, from what an instruction can do to memory. -/
theorem onlyStoresChangeMemory : Obligations.OnlyStoresChangeMemory := by
  intro i s t h
  rcases exec_mem h with hsame | ⟨hstores, ea, bytes, haccess, hwritten⟩
  · exact ⟨fun _ => hsame, fun _ _ _ _ a _ => by rw [hsame]⟩
  · refine ⟨fun hno => absurd (hstores.symm.trans hno) (by decide), fun _ ea' n haccess' a ha => ?_⟩
    rw [haccess] at haccess'
    cases haccess'
    rw [hwritten, Memory.read_writeBytes_beside _ ha]

end Sys2Proof.Machine
end

section
/-! SUPPORT. The bytes that memory holds at an address: what a write puts there and what reads of each size make of
them (20_memory R53 to R55, R64, R69). -/

namespace Sys2Proof

open Sys2Proof.Claims

/-! ### Values and their bytes -/

/-- The byte at the `k`-th address of a 16-bit value has the significance of its place (20_memory R53). -/
theorem wordBytes_getD (order : ByteOrder) (w : Word) {k : Nat} (hk : k < 2) :
    (wordBytes order w).getD k 0 = w.extractLsb' (8 * significance order 2 k) 8 := by
  match k, hk with
  | 0, _ | 1, _ => cases order <;> rfl

/-- The byte at the `k`-th address of a 32-bit value has the significance of its place (20_memory R53). -/
theorem dwordBytes_getD (order : ByteOrder) (d : DWord) {k : Nat} (hk : k < 4) :
    (dwordBytes order d).getD k 0 = d.extractLsb' (8 * significance order 4 k) 8 := by
  match k, hk with
  | 0, _ | 1, _ | 2, _ | 3, _ => cases order <;> rfl

theorem wordBytes_wordOf (order : ByteOrder) (b0 b1 : Byte) : wordBytes order (wordOf order b0 b1) = [b0, b1] := by
  have halves (hi lo : Byte) : [(leWord lo hi).extractLsb' 0 8, (leWord lo hi).extractLsb' 8 8] = [lo, hi] :=
    congrArg₂ (fun x y => [x, y]) (lowByte_joinBytes hi lo) (highByte_joinBytes hi lo)
  cases order with
  | little => exact halves b1 b0
  | big => exact congrArg List.reverse (halves b0 b1)

theorem dwordBytes_dwordOf (order : ByteOrder) (b0 b1 b2 b3 : Byte) :
    dwordBytes order (dwordOf order b0 b1 b2 b3) = [b0, b1, b2, b3] := by
  cases order with
  | little => exact leastFirst_leDWord b0 b1 b2 b3
  | big => exact congrArg List.reverse (leastFirst_leDWord b3 b2 b1 b0)

end Sys2Proof

namespace Sys2Proof.Machine

open Sys2Proof.Claims

/-! ### The bytes at an address -/

/-- Memory reads as these bytes at `a` and the addresses after it. -/
def Memory.holds (m : Memory) (a : Nat) (bytes : List Byte) : Prop :=
  ∀ k < bytes.length, m.read (a + k) = bytes.getD k 0

/-- Bytes that have been written are there (20_memory R55). -/
theorem Memory.holds_writeBytes (m : Memory) (a : Nat) (bytes : List Byte) : (m.writeBytes a bytes).holds a bytes := by
  intro k hk
  rw [Memory.read_writeBytes, if_pos (by omega), Nat.add_sub_cancel_left]

theorem Memory.holds_singleton_iff {m : Memory} {a : Nat} {b : Byte} : m.holds a [b] ↔ m.read a = b := by
  simp [Memory.holds]

/-- Memory holds the bytes of a 16-bit value exactly where that value is read (20_memory R53, R54). -/
theorem Memory.holds_wordBytes_iff {order : ByteOrder} {m : Memory} {a : Nat} {w : Word} :
    m.holds a (wordBytes order w) ↔ m.readWord order a = w := by
  constructor
  · intro h
    obtain ⟨b0, b1, hbytes, rfl⟩ := wordBytes_eq order w
    rw [hbytes] at h
    rw [Memory.readWord, ← Nat.add_zero a, h 0 (by simp), Nat.add_zero, h 1 (by simp)]
    rfl
  · rintro rfl k hk
    rw [wordBytes_length] at hk
    rw [Memory.readWord, wordBytes_wordOf]
    match k, hk with
    | 0, _ | 1, _ => rfl

/-- Memory holds the bytes of a 32-bit value exactly where that value is read (20_memory R53, R54). -/
theorem Memory.holds_dwordBytes_iff {order : ByteOrder} {m : Memory} {a : Nat} {d : DWord} :
    m.holds a (dwordBytes order d) ↔ m.readDWord order a = d := by
  constructor
  · intro h
    obtain ⟨b0, b1, b2, b3, hbytes, rfl⟩ := dwordBytes_eq order d
    rw [hbytes] at h
    rw [Memory.readDWord, ← Nat.add_zero a, h 0 (by simp), Nat.add_zero, h 1 (by simp), h 2 (by simp),
      h 3 (by simp)]
    rfl
  · rintro rfl k hk
    rw [dwordBytes_length] at hk
    rw [Memory.readDWord, dwordBytes_dwordOf]
    match k, hk with
    | 0, _ | 1, _ | 2, _ | 3, _ => rfl

/-- Each byte of a 16-bit value that memory holds, by its significance (20_memory R53). -/
theorem Memory.holds.read_word {order : ByteOrder} {m : Memory} {a : Nat} {w : Word}
    (h : m.holds a (wordBytes order w)) {k : Nat} (hk : k < 2) :
    m.read (a + k) = w.extractLsb' (8 * significance order 2 k) 8 :=
  (h k (by rwa [wordBytes_length])).trans (wordBytes_getD order w hk)

/-- Each byte of a 32-bit value that memory holds, by its significance (20_memory R53). -/
theorem Memory.holds.read_dword {order : ByteOrder} {m : Memory} {a : Nat} {d : DWord}
    (h : m.holds a (dwordBytes order d)) {k : Nat} (hk : k < 4) :
    m.read (a + k) = d.extractLsb' (8 * significance order 4 k) 8 :=
  (h k (by rwa [dwordBytes_length])).trans (dwordBytes_getD order d hk)

/-! ### Reads -/

theorem memReadByte_error {s : State} {a : Addr} {f : Fault} (h : accessFaultOf s a 1 = some f) :
    memReadByte s a = .error f := by
  simp only [memReadByte, h]

theorem memReadWord_error {s : State} {a : Addr} {f : Fault} (h : accessFaultOf s a 2 = some f) :
    memReadWord s a = .error f := by
  simp only [memReadWord, h]

theorem memReadDWord_error {s : State} {a : Addr} {f : Fault} (h : accessFaultOf s a 4 = some f) :
    memReadDWord s a = .error f := by
  simp only [memReadDWord, h]

/-- An access whose size divides both its address and 2^32 does not run past 0xFFFFFFFF (20_memory R54). -/
theorem add_le_of_aligned {a : Addr} {n : Nat} (hn : n ∣ 2 ^ 32) (h : a.toNat % n = 0) : a.toNat + n ≤ 2 ^ 32 :=
  Nat.le_of_lt_add_of_dvd (Nat.add_lt_add_right a.isLt n)
    ((Nat.dvd_add_left (Nat.dvd_refl n)).2 (Nat.dvd_of_mod_eq_zero h)) hn

/-- An access that passes its checks does not run past 0xFFFFFFFF: its last byte is in `DATA_MAP` (20_memory R50, R54,
log 19). -/
theorem add_le_of_accessible {s : State} {a : Addr} {n : Nat} (hn : 0 < n) (h : accessible s a n) :
    a.toNat + n ≤ 2 ^ 32 := by
  have hlast := inDataMap_lt (h.2 (n - 1) (by omega))
  omega

/-- Settles O50: each read checks its access and then answers the value whose bytes memory holds at the address. -/
theorem memReadRule : Obligations.MemReadRule := by
  intro s a
  refine ⟨fun _ => memReadByte_error, fun _ => memReadWord_error, fun _ => memReadDWord_error, fun n hn => ?_,
    fun h => ?_, fun h => ?_, fun h => ?_⟩
  · have hsizes : ∀ n ∈ [1, 2, 4], 0 < n ∧ n ∣ 2 ^ 32 := by decide
    obtain ⟨hpositive, hdivides⟩ := hsizes n hn
    refine ⟨fun h => ?_, checkAccess_misaligned, fun halign ⟨k, hk, htext⟩ => checkAccess_text halign k hk htext,
      fun halign hno ⟨k, hk, hmap⟩ => checkAccess_outside halign hno k hk hmap⟩
    rcases h with haligned | hpasses
    · exact add_le_of_aligned hdivides haligned
    · exact add_le_of_accessible hpositive ((checkAccess_none_iff ..).1 hpasses)
  · exact memReadByte_ok.2 ⟨(checkAccess_none_iff ..).2 h, rfl⟩
  · exact ⟨_, memReadWord_ok.2 ⟨(checkAccess_none_iff ..).2 h, rfl⟩,
      fun _ hk => ((Memory.holds_wordBytes_iff.2 rfl).read_word hk).symm⟩
  · exact ⟨_, memReadDWord_ok.2 ⟨(checkAccess_none_iff ..).2 h, rfl⟩,
      fun _ hk => ((Memory.holds_dwordBytes_iff.2 rfl).read_dword hk).symm⟩

/-! ### Writes -/

theorem memWrite_error {s : State} {a : Addr} {bytes : List Byte} {f : Fault}
    (h : accessFaultOf s a bytes.length = some f) : memWrite s a bytes = .error f := by
  simp only [memWrite, h]

/-- An access that is allowed writes its bytes, and memory beside them reads as before (20_memory R55). -/
theorem memWrite_of_accessible {s : State} {a : Addr} {bytes : List Byte} {n : Nat} (hn : bytes.length = n)
    (h : accessible s a n) :
    ∃ m : Memory, memWrite s a bytes = .ok { s with mem := m } ∧ m.holds a.toNat bytes ∧
      ∀ x, (x < a.toNat ∨ a.toNat + n ≤ x) → m.read x = s.mem.read x := by
  subst hn
  exact ⟨_, memWrite_ok.2 ⟨(checkAccess_none_iff ..).2 h, rfl⟩, Memory.holds_writeBytes _ _ _,
    fun _ => Memory.read_writeBytes_beside _⟩

/-- Settles O51: the bytes of each size are those of the value in `BYTE_ORDER`. -/
theorem memWriteRule : Obligations.MemWriteRule := by
  intro s a b w d
  refine ⟨fun _ _ => memWrite_error, fun h => ?_, fun h => ?_, fun h => ?_⟩
  · obtain ⟨m, hwrite, hholds, hbeside⟩ := memWrite_of_accessible (bytes := [b]) (n := 1) rfl h
    exact ⟨m, hwrite, Memory.holds_singleton_iff.1 hholds, fun x hx => hbeside x (by omega)⟩
  · obtain ⟨m, hwrite, hholds, hbeside⟩ := memWrite_of_accessible (wordBytes_length s.params.byteOrder w) h
    exact ⟨m, hwrite, fun _ => hholds.read_word, hbeside⟩
  · obtain ⟨m, hwrite, hholds, hbeside⟩ := memWrite_of_accessible (dwordBytes_length s.params.byteOrder d) h
    exact ⟨m, hwrite, fun _ => hholds.read_dword, hbeside⟩

/-! ### Accesses of another width -/

/-- An address inside an access that is allowed does not wrap (20_memory R54). -/
theorem toNat_add_of_accessible {s : State} {a : Addr} {n k : Nat} (h : accessible s a n) (hk : k < n) :
    (a + BitVec.ofNat 32 k).toNat = a.toNat + k := by
  have hbyte := inDataMap_lt (h.2 k hk)
  rw [BitVec.toNat_add, BitVec.toNat_ofNat, Nat.add_mod_mod, Nat.mod_eq_of_lt hbyte]

/-- A narrower access at a multiple of its size inside one that is allowed is allowed too (20_memory R69). -/
theorem accessible_part {s : State} {a : Addr} {n m k : Nat} (h : accessible s a n) (hm : 0 < m) (hsize : m ∣ n)
    (hplace : m ∣ k) (hin : k + m ≤ n) : accessible s (a + BitVec.ofNat 32 k) m := by
  have haddr := toNat_add_of_accessible h (show k < n by omega)
  refine ⟨fun hpolicy => ?_, fun j hj => ?_⟩
  · have ha : m ∣ a.toNat := hsize.trans (Nat.dvd_of_mod_eq_zero (h.1 hpolicy))
    rw [haddr]
    exact Nat.mod_eq_zero_of_dvd (ha.add hplace)
  · rw [haddr, Nat.add_assoc]
    exact h.2 (k + j) (by omega)

/-- What a completed write leaves: the bytes at its address, and the same setting, in which the access is allowed. -/
theorem memWrite_leaves {s t : State} {a : Addr} {bytes : List Byte} {n : Nat} (hn : bytes.length = n)
    (h : memWrite s a bytes = .ok t) :
    t.params = s.params ∧ accessible t a n ∧ t.mem.holds a.toNat bytes := by
  subst hn
  obtain ⟨hpasses, rfl⟩ := memWrite_ok.1 h
  exact ⟨rfl, (checkAccess_none_iff ..).1 hpasses, Memory.holds_writeBytes _ _ _⟩

/-- A byte inside an access that is allowed can be read alone. -/
theorem memReadByte_part {t : State} {a : Addr} {n k : Nat} (h : accessible t a n) (hk : k < n) :
    memReadByte t (a + BitVec.ofNat 32 k) = .ok (t.mem.read (a.toNat + k)) :=
  memReadByte_ok.2 ⟨(checkAccess_none_iff ..).2 (accessible_part h Nat.one_pos (Nat.one_dvd n) (Nat.one_dvd k) hk),
    by rw [toNat_add_of_accessible h hk]⟩

/-- An aligned half of a 32-bit access that is allowed can be read alone. -/
theorem memReadWord_half {t : State} {a : Addr} {k : Nat} (h : accessible t a 4) (hk : k = 0 ∨ k = 2) :
    memReadWord t (a + BitVec.ofNat 32 k) =
      .ok (wordOf t.params.byteOrder (t.mem.read (a.toNat + k)) (t.mem.read (a.toNat + (k + 1)))) :=
  memReadWord_ok.2 ⟨(checkAccess_none_iff ..).2 (accessible_part h (by omega) (by decide) (by omega) (by omega)),
    by rw [toNat_add_of_accessible h (by omega)]; rfl⟩

/-- The halves of a 32-bit value that memory holds, under either `BYTE_ORDER` (20_memory R69). -/
theorem memReadWord_of_holds_dword {t : State} {a : Addr} {d : DWord} (h : accessible t a 4)
    (hholds : t.mem.holds a.toNat (dwordBytes t.params.byteOrder d)) :
    (t.params.byteOrder = .little →
      memReadWord t a = .ok (lowerHalf d) ∧ memReadWord t (a + 2) = .ok (upperHalf d)) ∧
    (t.params.byteOrder = .big →
      memReadWord t a = .ok (upperHalf d) ∧ memReadWord t (a + 2) = .ok (lowerHalf d)) := by
  have hlow := memReadWord_half h (.inl rfl)
  have hhigh := memReadWord_half h (.inr rfl)
  rw [hholds.read_dword (by decide), hholds.read_dword (by decide)] at hlow hhigh
  rw [show a + BitVec.ofNat 32 0 = a from BitVec.add_zero a] at hlow
  constructor <;> intro horder <;> rw [horder] at hlow hhigh
  · exact ⟨hlow.trans (congrArg _ (leWord_lower d)), hhigh.trans (congrArg _ (leWord_upper d))⟩
  · exact ⟨hlow.trans (congrArg _ (leWord_upper d)), hhigh.trans (congrArg _ (leWord_lower d))⟩

/-- Settles O52: a part of an allowed access is allowed, and reads the bytes that the write left there. -/
theorem mixedWidthReads : Obligations.MixedWidthReads := by
  constructor
  · intro s t a d h
    obtain ⟨hparams, haccess, hholds⟩ := memWrite_leaves (dwordBytes_length ..) h
    rw [← hparams] at hholds ⊢
    obtain ⟨hlittle, hbig⟩ := memReadWord_of_holds_dword haccess hholds
    exact ⟨hlittle, hbig, fun k hk => by rw [memReadByte_part haccess hk, hholds.read_dword hk]⟩
  · intro s u a w h k hk
    obtain ⟨-, haccess, hholds⟩ := memWrite_leaves (wordBytes_length ..) h
    rw [memReadByte_part haccess hk, hholds.read_word hk]

end Sys2Proof.Machine
end

section
/-! SUPPORT. A load after a store to the same address, with instructions in between that store beside it
(20_memory R64). -/

namespace Sys2Proof

/-- The number of bytes that a load or a store of mov accesses (42_mov R180). -/
def MovePart.size : MovePart → Nat
  | .low | .high => 1
  | .word => 2
  | .pair => 4

end Sys2Proof

namespace Sys2Proof.Machine

open Sys2Proof.Claims

/-! ### Loads and stores by form and fields -/

/-- The fields of a load or a store in an addressing mode. -/
def moveFields (am : AddressMode) (rd rn1 : RegNum) : Fields :=
  match am with
  | .absolute a => { rd := rd, rn1 := rn1, operand := a }
  | .relative rn off => { rd := rd, rn := rn, rn1 := rn1, operand := off }

/-- The part that a move of a half of a register moves. -/
def halfPart (high : Bool) : MovePart := if high then .high else .low

@[simp] theorem moveFields_rd (am : AddressMode) (rd rn1 : RegNum) : (moveFields am rd rn1).rd = rd := by
  cases am <;> rfl
@[simp] theorem moveFields_rn1 (am : AddressMode) (rd rn1 : RegNum) : (moveFields am rd rn1).rn1 = rn1 := by
  cases am <;> rfl
@[simp] theorem modeOf_moveFields (am : AddressMode) (rd rn1 : RegNum) :
    modeOf (moveFields am rd rn1) (modeKind am) = am := by cases am <;> rfl

theorem loadHalfAt_eq (high : Bool) (am : AddressMode) (rd : RegNum) :
    loadHalfAt high am rd = (Form.load (halfPart high) (modeKind am)).instr (moveFields am rd 0) := by
  cases am <;> cases high <;> rfl

theorem storeHalfAt_eq (high : Bool) (am : AddressMode) (rd : RegNum) :
    storeHalfAt high am rd = (Form.store (halfPart high) (modeKind am)).instr (moveFields am rd 0) := by
  cases am <;> cases high <;> rfl

theorem loadWordAt_eq (am : AddressMode) (rd : RegNum) :
    loadWordAt am rd = (Form.load .word (modeKind am)).instr (moveFields am rd 0) := by cases am <;> rfl

theorem storeWordAt_eq (am : AddressMode) (rd : RegNum) :
    storeWordAt am rd = (Form.store .word (modeKind am)).instr (moveFields am rd 0) := by cases am <;> rfl

theorem loadPairAt_eq (am : AddressMode) (rd rn1 : RegNum) :
    loadPairAt am rd rn1 = (Form.load .pair (modeKind am)).instr (moveFields am rd rn1) := by cases am <;> rfl

theorem storePairAt_eq (am : AddressMode) (rd rn1 : RegNum) :
    storePairAt am rd rn1 = (Form.store .pair (modeKind am)).instr (moveFields am rd rn1) := by cases am <;> rfl

@[simp] theorem size_halfPart (high : Bool) : (halfPart high).size = 1 := by cases high <;> rfl

theorem storedBytes_length (v : Fields) (s : State) (part : MovePart) : (storedBytes v s part).length = part.size := by
  cases part with
  | low | high => rfl
  | word => exact wordBytes_length ..
  | pair => exact dwordBytes_length ..

/-- A load accesses the bytes of its part (20_memory R59). -/
theorem dataAccess_load (part : MovePart) (kind : AddressKind) (v : Fields) (s : State) :
    dataAccess ((Form.load part kind).instr v) s = some (effectiveAddress (modeOf v kind) s, part.size) := by
  cases part <;> cases kind <;> rfl

/-- An instruction whose checks pass completes. -/
theorem exec_instr_completed {f : Form} {v : Fields} {s : State} (hregs : legal s (f.instr v).usedRegs)
    (haccess : ∀ ea n, dataAccess (f.instr v) s = some (ea, n) → accessible s ea n) :
    exec (f.instr v) s = .next (completed f v s) := by
  rw [exec_instr]
  exact perform_ok (illegalRegister_usedFields_iff.2 hregs) (guarded_ok haccess _)

/-! ### Between the store and the load -/

/-- An instruction that stores to none of the bytes leaves them there (20_memory R66). -/
theorem exec_keeps_holds {i : Instr} {s t : State} {a : Addr} {bytes : List Byte} (h : exec i s = .next t)
    (hbeside : stores i = true → ∀ ea k, dataAccess i s = some (ea, k) →
      ea.toNat + k ≤ a.toNat ∨ a.toNat + bytes.length ≤ ea.toNat)
    (hholds : s.mem.holds a.toNat bytes) : t.mem.holds a.toNat bytes := by
  rcases exec_mem h with hsame | ⟨hstores, ea, written, haccess, hmem⟩
  · rwa [hsame]
  · intro k hk
    have := hbeside hstores ea _ haccess
    rw [hmem, Memory.read_writeBytes_beside _ (by omega)]
    exact hholds k hk

/-- Instructions that store to none of the bytes leave them there, by induction on the instructions. -/
theorem leadsBeside_keeps {is : List Instr} {a : Addr} {bytes : List Byte} {s t : State}
    (h : leadsBeside is a bytes.length s t) (hholds : s.mem.holds a.toNat bytes) :
    t.launch = s.launch ∧ t.params = s.params ∧ t.mem.holds a.toNat bytes := by
  induction is generalizing s with
  | nil => cases h; exact ⟨rfl, rfl, hholds⟩
  | cons i rest ih =>
    obtain ⟨hbeside, u, hexec, hrest⟩ := h
    obtain ⟨hlaunch, hparams⟩ := exec_keeps_launch_params hexec
    obtain ⟨hlaunch', hparams', hholds'⟩ := ih hrest (exec_keeps_holds hexec hbeside hholds)
    exact ⟨hlaunch'.trans hlaunch, hparams'.trans hparams, hholds'⟩

/-- A load sees a store of as many bytes, if what it makes of the stored bytes, under the parameters of the store, is
what is to be seen. -/
theorem loadSeesStore_of_holds {s : State} {part part' : MovePart} {am am' : AddressMode} {rd rn1 rq rp : RegNum}
    {ea : Addr} {n : Nat} {seen : State → Prop} (hea : ea = effectiveAddress am s) (hn : part.size = n)
    (hn' : part'.size = n)
    (hseen : ∀ u : State, u.params = s.params →
      u.mem.holds ea.toNat (storedBytes (moveFields am rd rn1) s part) → effectiveAddress am' u = ea →
      seen (completed (.load part' (modeKind am')) (moveFields am' rq rp) u)) :
    loadSeesStore s ((Form.store part (modeKind am)).instr (moveFields am rd rn1)) ea n am'
      ((Form.load part' (modeKind am')).instr (moveFields am' rq rp)) seen := by
  intro hregs haccess
  have hlen : (storedBytes (moveFields am rd rn1) s part).length = n := (storedBytes_length ..).trans hn
  have hstored : (completed (.store part (modeKind am)) (moveFields am rd rn1) s).mem.holds ea.toNat
      (storedBytes (moveFields am rd rn1) s part) := by
    rw [hea]
    simpa [completed, dataEffect] using Memory.holds_writeBytes s.mem _ (storedBytes (moveFields am rd rn1) s part)
  refine ⟨_, exec_instr_completed hregs fun ea' k hk => ?_, fun is u hbetween haddr hregs' => ?_⟩
  · rw [dataAccess_store, modeOf_moveFields, hlen, ← hea] at hk
    cases hk
    exact haccess
  · have hkeeps := completed_keepsSetting (.store part (modeKind am)) (moveFields am rd rn1) s
    obtain ⟨hlaunch, hparams, hholds⟩ := leadsBeside_keeps (hlen.symm ▸ hbetween) hstored
    rw [hkeeps.launch] at hlaunch
    rw [hkeeps.params] at hparams
    refine ⟨_, exec_instr_completed hregs' fun ea' k hk => ?_, hseen u hparams hholds haddr⟩
    rw [dataAccess_load, modeOf_moveFields, hn', haddr] at hk
    cases hk
    rwa [accessible, aligned, hparams, hlaunch]

/-! ### What the load makes of the stored bytes -/

theorem readReg_completed_load (part : MovePart) (am : AddressMode) (rd rn1 : RegNum) (u : State) (q : RegNum) :
    readReg (completed (.load part (modeKind am)) (moveFields am rd rn1) u) q =
      readReg (loaded (moveFields am rd rn1) u (effectiveAddress am u) part) q := by
  rw [← congrArg (effectiveAddress · u) (modeOf_moveFields am rd rn1)]
  rfl

theorem storedBytes_half (v : Fields) (s : State) (high : Bool) :
    storedBytes v s (halfPart high) = [halfOf high (readReg s v.rd)] := by cases high <;> rfl

theorem halfOf_completed_load (high : Bool) (am : AddressMode) (rd rn1 : RegNum) (u : State) :
    halfOf high (readReg (completed (.load (halfPart high) (modeKind am)) (moveFields am rd rn1) u) rd) =
      u.mem.read (effectiveAddress am u).toNat := by
  rw [readReg_completed_load]
  cases high with
  | false =>
    show lowByte (readReg (writeLow u _ _) rd) = _
    rw [moveFields_rd, readReg_writeLow, if_pos rfl, lowByte_joinBytes]
  | true =>
    show highByte (readReg (writeHigh u _ _) rd) = _
    rw [moveFields_rd, readReg_writeHigh, if_pos rfl, highByte_joinBytes]

/-- A pair of different registers holds the two halves of what is written to it (42_mov R189). -/
theorem readReg_writePair (s : State) {rd second : RegNum} (h : rd ≠ second) (d : DWord) :
    readReg (writePair s rd second d) rd = upperHalf d ∧ readReg (writePair s rd second d) second = lowerHalf d := by
  rw [writePair_eq, if_neg h]
  constructor
  · rw [readReg_writeReg_of_ne _ h.symm, readReg_writeReg, if_pos rfl]
  · rw [readReg_writeReg, if_pos rfl]

/-- Settles O53: the store leaves its bytes, the instructions in between keep them, and the load reads the value whose
bytes they are. -/
theorem loadReturnsLatestStore : Obligations.LoadReturnsLatestStore := by
  intro s am am' rd rn1 rq rp high high' ea hea
  refine ⟨?_, ?_, fun hne => ?_⟩
  · rw [storeHalfAt_eq, loadHalfAt_eq]
    refine loadSeesStore_of_holds hea (size_halfPart high) (size_halfPart high') fun u _ hholds haddr => ?_
    rw [storedBytes_half, moveFields_rd, Memory.holds_singleton_iff] at hholds
    rw [halfOf_completed_load, haddr, hholds]
  · rw [storeWordAt_eq, loadWordAt_eq]
    refine loadSeesStore_of_holds hea rfl rfl fun u hparams hholds haddr => ?_
    rw [storedBytes, moveFields_rd, ← hparams, Memory.holds_wordBytes_iff] at hholds
    rw [readReg_completed_load, haddr, loaded, moveFields_rd, readReg_writeReg, if_pos rfl, hholds]
  · rw [storePairAt_eq, loadPairAt_eq]
    refine loadSeesStore_of_holds hea rfl rfl fun u hparams hholds haddr => ?_
    rw [storedBytes, moveFields_rd, moveFields_rn1, ← hparams, Memory.holds_dwordBytes_iff] at hholds
    obtain ⟨hupper, hlower⟩ := readReg_writePair u hne (joinHalves (readReg s rd) (readReg s rn1))
    rw [readReg_completed_load, readReg_completed_load, haddr, loaded, moveFields_rd, moveFields_rn1, hholds, hupper,
      hlower]
    exact ⟨upperHalf_joinHalves .., lowerHalf_joinHalves ..⟩

end Sys2Proof.Machine
end

section
/-! SUPPORT. Encoding and decoding undo each other under every well-formed layout: the fields that an instruction has
are those its bytes hold, and bytes in no field are zero (30_encoding R82 to R90, R98). -/

namespace Sys2Proof

open Sys2Proof.Machine

/-! ### The fields of a form -/

theorem Params.operandBytes_of_none {f : Form} (h : f.uses.operand = .none) (p : Params) : p.operandBytes f = 0 := by
  simp [Params.operandBytes, h]

/-- The unused bytes are zero: those of the form that are in no field (30_encoding R98). -/
theorem unusedZero_iff {p : Params} {f : Form} {bytes : List Byte} :
    unusedZero p f bytes = true ↔ ∀ k < p.len f, p.inField f k = false → bytes.getD k 0 = 0 := by
  simp only [unusedZero, List.all_eq_true, List.mem_range, Bool.or_eq_true, beq_iff_eq]
  refine forall₂_congr fun k _ => ?_
  cases p.inField f k <;> simp

/-- The places of a form, one for each field that it uses (30_encoding R82 to R87). -/
theorem Params.mem_places {p : Params} {f : Form} {x : Place} :
    x ∈ p.places f ↔
      x = ⟨.opcode, p.layout.opcode, 1⟩ ∨ x = ⟨.spec, p.layout.spec, 1⟩ ∨
        (f.uses.rd = true ∧ x = ⟨.rd, (p.layout.of f).rd, 1⟩) ∨
        (f.uses.rn = true ∧ x = ⟨.rn, (p.layout.of f).rn, 1⟩) ∨
        (f.uses.rn1 = true ∧ x = ⟨.rn1, (p.layout.of f).rn1, 1⟩) ∨
        (f.uses.operand ≠ .none ∧ x = ⟨.operand, (p.layout.of f).operand, p.operandBytes f⟩) := by
  have listed (c : Prop) [Decidable c] (y : Place) : x ∈ (if c then [y] else []) ↔ c ∧ x = y := by
    split <;> simp [*]
  have unlisted (c : Prop) [Decidable c] (y : Place) : x ∈ (if c then [] else [y]) ↔ ¬c ∧ x = y := by
    split <;> simp [*]
  simp only [Params.places, List.mem_append, List.mem_cons, List.not_mem_nil, or_false, listed, unlisted, or_assoc]

/-- Values for the fields of a form that an instruction of it can have: zero in the fields that the form does not use,
and at most 16 bits where the operand is an `imm16` (30_encoding R85, R98). -/
structure Form.Admits (f : Form) (v : Fields) : Prop where
  rd      : f.uses.rd = false → v.rd = 0
  rn      : f.uses.rn = false → v.rn = 0
  rn1     : f.uses.rn1 = false → v.rn1 = 0
  operand : f.uses.operand = .none → v.operand = 0
  imm16   : f.uses.operand = .imm16 → v.operand.toNat < 65536

/-- The statement that `Laws/PerInstr.lean` makes for each constructor, for all of them. -/
theorem formAndFields (i : Instr) : Laws.FormAndFields.Statement i :=
  match i with
  | .nop => Laws.FormAndFields.nop
  | .addImm rd v => Laws.FormAndFields.addImm rd v
  | .addReg rd rn => Laws.FormAndFields.addReg rd rn
  | .addMem rd a => Laws.FormAndFields.addMem rd a
  | .subImm rd v => Laws.FormAndFields.subImm rd v
  | .subReg rd rn => Laws.FormAndFields.subReg rd rn
  | .subMem rd a => Laws.FormAndFields.subMem rd a
  | .mulImm rd v => Laws.FormAndFields.mulImm rd v
  | .mulReg rd rn => Laws.FormAndFields.mulReg rd rn
  | .mulMem rd a => Laws.FormAndFields.mulMem rd a
  | .andImm rd v => Laws.FormAndFields.andImm rd v
  | .andReg rd rn => Laws.FormAndFields.andReg rd rn
  | .andMem rd a => Laws.FormAndFields.andMem rd a
  | .orImm rd v => Laws.FormAndFields.orImm rd v
  | .orReg rd rn => Laws.FormAndFields.orReg rd rn
  | .orMem rd a => Laws.FormAndFields.orMem rd a
  | .xorImm rd v => Laws.FormAndFields.xorImm rd v
  | .xorReg rd rn => Laws.FormAndFields.xorReg rd rn
  | .xorMem rd a => Laws.FormAndFields.xorMem rd a
  | .lshImm rd v => Laws.FormAndFields.lshImm rd v
  | .lshReg rd rn => Laws.FormAndFields.lshReg rd rn
  | .lshMem rd a => Laws.FormAndFields.lshMem rd a
  | .rshImm rd v => Laws.FormAndFields.rshImm rd v
  | .rshReg rd rn => Laws.FormAndFields.rshReg rd rn
  | .rshMem rd a => Laws.FormAndFields.rshMem rd a
  | .movImm rd v => Laws.FormAndFields.movImm rd v
  | .movImm32 rd rn v => Laws.FormAndFields.movImm32 rd rn v
  | .movReg rd rn => Laws.FormAndFields.movReg rd rn
  | .loadLowAbs rd a => Laws.FormAndFields.loadLowAbs rd a
  | .loadHighAbs rd a => Laws.FormAndFields.loadHighAbs rd a
  | .loadWordAbs rd a => Laws.FormAndFields.loadWordAbs rd a
  | .loadPairAbs rd rn1 a => Laws.FormAndFields.loadPairAbs rd rn1 a
  | .storeLowAbs rd a => Laws.FormAndFields.storeLowAbs rd a
  | .storeHighAbs rd a => Laws.FormAndFields.storeHighAbs rd a
  | .storeWordAbs rd a => Laws.FormAndFields.storeWordAbs rd a
  | .storePairAbs rd rn1 a => Laws.FormAndFields.storePairAbs rd rn1 a
  | .loadLowRel rd rn o => Laws.FormAndFields.loadLowRel rd rn o
  | .loadHighRel rd rn o => Laws.FormAndFields.loadHighRel rd rn o
  | .loadWordRel rd rn o => Laws.FormAndFields.loadWordRel rd rn o
  | .loadPairRel rd rn rn1 o => Laws.FormAndFields.loadPairRel rd rn rn1 o
  | .storeLowRel rd rn o => Laws.FormAndFields.storeLowRel rd rn o
  | .storeHighRel rd rn o => Laws.FormAndFields.storeHighRel rd rn o
  | .storeWordRel rd rn o => Laws.FormAndFields.storeWordRel rd rn o
  | .storePairRel rd rn rn1 o => Laws.FormAndFields.storePairRel rd rn rn1 o
  | .b a => Laws.FormAndFields.b a
  | .be rd rn a => Laws.FormAndFields.be rd rn a
  | .bne rd rn a => Laws.FormAndFields.bne rd rn a
  | .blt rd rn a => Laws.FormAndFields.blt rd rn a
  | .bgt rd rn a => Laws.FormAndFields.bgt rd rn a
  | .bro a => Laws.FormAndFields.bro a

/-- Opcode and specifier of an instruction's form select the form (30_encoding R89, R93). -/
theorem formOf_form (i : Instr) : formOf i.form.opcode i.form.spec = some i.form := (formAndFields i).1

theorem admits_fields (i : Instr) : i.form.Admits i.fields := by
  obtain ⟨-, -, hrd, hrn, hrn1, hoperand, himm⟩ := formAndFields i
  exact ⟨hrd, hrn, hrn1, hoperand, himm⟩

/-- A 32-bit value below 2^16 is the extension of its lower half. -/
theorem setWidth_setWidth_of_lt {v : DWord} (h : v.toNat < 65536) : (v.setWidth 16).setWidth 32 = v := by
  apply BitVec.eq_of_toNat_eq
  rw [BitVec.toNat_setWidth, BitVec.toNat_setWidth]
  omega

/-- The instruction of a form with given values has these values in its fields. -/
theorem fields_instr {f : Form} {v : Fields} (h : f.Admits v) : (f.instr v).fields = v := by
  obtain ⟨rd, rn, rn1, operand⟩ := v
  obtain ⟨hrd, hrn, hrn1, hoperand, himm⟩ := h
  match f with
  | .alu op .imm => cases op <;> simp_all [Form.uses, Form.instr, Instr.fields, setWidth_setWidth_of_lt]
  | .alu op .reg | .alu op .mem => cases op <;> simp_all [Form.uses, Form.instr, Instr.fields]
  | .movImm => simp_all [Form.uses, Form.instr, Instr.fields, setWidth_setWidth_of_lt]
  | .load part kind | .store part kind =>
    cases part <;> cases kind <;> simp_all [Form.uses, Form.instr, Instr.fields]
  | .nop | .movImm32 | .movReg | .b | .be | .bne | .blt | .bgt | .bro =>
    simp_all [Form.uses, Form.instr, Instr.fields]

/-! ### Decoding an encoding -/

/-- The operand field of an encoding holds the bytes of the operand; of a form with no operand, none. -/
theorem encode_operand {p : Params} (h : p.wf = true) (i : Instr) (rest : List Byte) :
    ((encode p i ++ rest).drop (p.layout.of i.form).operand).take (p.operandBytes i.form) =
      fieldBytes p.byteOrder (p.operandBytes i.form) i.fields.operand := by
  by_cases hu : i.form.uses.operand = .none
  · rw [p.operandBytes_of_none hu]
    cases p.byteOrder <;> rfl
  · exact encode_place h i rest (x := ⟨.operand, (p.layout.of i.form).operand, p.operandBytes i.form⟩)
      (by simp [Params.places, hu])

/-- The fields read from the encoding of an instruction are its fields (30_encoding R84 to R87). -/
theorem readFields_encode {p : Params} (h : p.wf = true) {i : Instr} (hfits : i.fits p = true) (rest : List Byte) :
    readFields p i.form (encode p i ++ rest) = i.fields := by
  have hv := admits_fields i
  have byteField (used : Bool) (name : FieldName) (k : Nat) (value : Byte)
      (hk : used = true → ⟨name, k, 1⟩ ∈ p.places i.form) (hvalue : placeBytes p i.form i.fields name = [value])
      (hzero : used = false → value = 0) :
      (if used then (encode p i ++ rest).getD k 0 else 0) = value := by
    cases used with
    | false => exact (hzero rfl).symm
    | true => simpa [hvalue] using encode_byte h i rest (hk rfl) rfl
  have operandField : fieldValue p.byteOrder (fieldBytes p.byteOrder (p.operandBytes i.form) i.fields.operand) =
      i.fields.operand := fieldValue_fieldBytes _ (p.operandBytes_le h _) (of_decide_eq_true hfits)
  unfold readFields
  rw [byteField i.form.uses.rd .rd _ i.fields.rd (fun hu => by simp [Params.places, hu]) rfl hv.rd,
    byteField i.form.uses.rn .rn _ i.fields.rn (fun hu => by simp [Params.places, hu]) rfl hv.rn,
    byteField i.form.uses.rn1 .rn1 _ i.fields.rn1 (fun hu => by simp [Params.places, hu]) rfl hv.rn1,
    encode_operand h, operandField]

/-- The bytes of an encoding that are in no field are zero (30_encoding R98). -/
theorem unusedZero_encode (p : Params) (i : Instr) (rest : List Byte) :
    unusedZero p i.form (encode p i ++ rest) = true :=
  unusedZero_iff.2 fun _ hk hin => (encode_getD p i rest hk).trans (byteAt_unused hin _)

/-- The header of an encoding, read where the layout has opcode and specifier. -/
theorem encode_header {p : Params} (h : p.wf = true) (i : Instr) (rest : List Byte) :
    (encode p i ++ rest).getD p.layout.opcode 0 = i.form.opcode ∧
      (encode p i ++ rest).getD p.layout.spec 0 = i.form.spec :=
  ⟨encode_byte h i rest (x := ⟨.opcode, _, 1⟩) (Params.mem_places.2 (.inl rfl)) rfl,
    encode_byte h i rest (x := ⟨.spec, _, 1⟩) (Params.mem_places.2 (.inr (.inl rfl))) rfl⟩

/-- Settles O2: the header selects the form, the unused bytes are zero, and the fields are read back. -/
theorem decodeInvertsEncode : Obligations.DecodeInvertsEncode := by
  intro p i rest h hfits
  obtain ⟨hopcode, hspec⟩ := encode_header h i rest
  have hlen : p.len i.form ≤ (encode p i ++ rest).length := by simp [Instr.length]
  have hheader : 4 ≤ (encode p i ++ rest).length := (p.len_wf h i.form).1.trans hlen
  simp only [decode, hopcode, hspec, formOf_form, unusedZero_encode, readFields_encode h hfits, instr_form_fields,
    Nat.not_lt.2 hlen, Nat.not_lt.2 hheader, if_false, if_true]

/-! ### Encoding what was decoded -/

/-- An operand that is read fits its field (30_encoding R85). -/
theorem readFields_operand_lt {p : Params} (h : p.wf = true) (f : Form) (bytes : List Byte) :
    (readFields p f bytes).operand.toNat < 256 ^ p.operandBytes f := by
  have hwidth : ((bytes.drop (p.layout.of f).operand).take (p.operandBytes f)).length ≤ p.operandBytes f :=
    List.length_take_le _ _
  exact (fieldValue_lt p.byteOrder _ (hwidth.trans (p.operandBytes_le h f))).trans_le
    (Nat.pow_le_pow_right (by decide) hwidth)

/-- The fields read from any bytes are ones that an instruction of the form can have. -/
theorem admits_readFields {p : Params} (h : p.wf = true) (f : Form) (bytes : List Byte) :
    f.Admits (readFields p f bytes) := by
  have hoperand := readFields_operand_lt h f bytes
  refine ⟨fun hu => ?_, fun hu => ?_, fun hu => ?_, fun hu => ?_, fun hu => ?_⟩
  · simp [readFields, hu]
  · simp [readFields, hu]
  · simp [readFields, hu]
  · rw [p.operandBytes_of_none hu, Nat.pow_zero, Nat.lt_one_iff] at hoperand
    exact BitVec.eq_of_toNat_eq hoperand
  · rwa [show p.operandBytes f = 2 by simp [Params.operandBytes, hu]] at hoperand

/-- One byte of a list, as the piece of length 1. -/
theorem take_one_drop {bytes : List Byte} {k : Nat} (h : k + 1 ≤ bytes.length) :
    (bytes.drop k).take 1 = [bytes.getD k 0] := by
  rw [List.drop_eq_getElem_cons (by omega), List.take_succ_cons, List.take_zero, List.getD_eq_getElem]

/-- The bytes of a field that was read are those it was read from (30_encoding R84 to R87). -/
theorem placeBytes_readFields {p : Params} (h : p.wf = true) {f : Form} {bytes : List Byte}
    (hf : formOf (bytes.getD p.layout.opcode 0) (bytes.getD p.layout.spec 0) = some f)
    (hlen : p.len f ≤ bytes.length) {x : Place} (hx : x ∈ p.places f) :
    placeBytes p f (readFields p f bytes) x.field = (bytes.drop x.start).take x.width := by
  obtain ⟨hopcode, hspec⟩ := formOf_some hf
  have hend := (p.place_within h hx).trans hlen
  rcases Params.mem_places.1 hx with rfl | rfl | ⟨hu, rfl⟩ | ⟨hu, rfl⟩ | ⟨hu, rfl⟩ | ⟨-, rfl⟩
  · rw [take_one_drop hend, ← hopcode]; rfl
  · rw [take_one_drop hend, ← hspec]; rfl
  · simp [take_one_drop hend, placeBytes, readFields, hu]
  · simp [take_one_drop hend, placeBytes, readFields, hu]
  · simp [take_one_drop hend, placeBytes, readFields, hu]
  · have hwidth : ((bytes.drop (p.layout.of f).operand).take (p.operandBytes f)).length = p.operandBytes f := by
      rw [List.length_take, List.length_drop]
      exact Nat.min_eq_left (by simp only at hend; omega)
    have hback := fieldBytes_fieldValue p.byteOrder _ (hwidth.trans_le (p.operandBytes_le h f))
    rwa [hwidth] at hback

/-- Each byte of an instruction that was decoded is the one that the encoder puts there (30_encoding R90, R98). -/
theorem byteAt_readFields {p : Params} (h : p.wf = true) {f : Form} {bytes : List Byte}
    (hf : formOf (bytes.getD p.layout.opcode 0) (bytes.getD p.layout.spec 0) = some f)
    (hlen : p.len f ≤ bytes.length) (hunused : unusedZero p f bytes = true) {k : Nat} (hk : k < p.len f) :
    byteAt p f (readFields p f bytes) k = bytes.getD k 0 := by
  cases hin : p.inField f k with
  | false => rw [byteAt_unused hin, unusedZero_iff.1 hunused k hk hin]
  | true =>
    obtain ⟨x, hx, hcovers⟩ := List.any_eq_true.1 hin
    simp only [Place.covers, Bool.and_eq_true, decide_eq_true_eq] at hcovers
    obtain ⟨j, rfl⟩ := Nat.exists_eq_add_of_le hcovers.1
    have hj : j < x.width := by omega
    rw [byteAt_place h f _ hx hj, placeBytes_readFields h hf hlen hx, getD_take _ hj, List.getD_eq_getElem?_getD,
      List.getD_eq_getElem?_getD, List.getElem?_drop]

/-- Settles O3: the decoded instruction has the fields that were read, and each byte is in a field or zero. -/
theorem encodeInvertsDecode : Obligations.EncodeInvertsDecode := by
  intro p bytes i h hi
  obtain ⟨-, f, hf, hlen, hunused, rfl⟩ := decode_ok hi
  have hfields := fields_instr (admits_readFields h f bytes)
  constructor
  · refine List.ext_getElem (by simpa [Instr.length] using hlen) fun k hk _ => ?_
    have hbyte : k < p.len f := by simp [Instr.length] at hk; omega
    simp only [encode, List.getElem_map, List.getElem_range, form_instr, hfields, List.getElem_take,
      byteAt_readFields h hf hlen hunused hbyte]
    exact (List.getD_eq_getElem _ _ _).symm
  · simpa [Instr.fits, hfields] using readFields_operand_lt h f bytes

end Sys2Proof
end

section
/-! SUPPORT. A header that names no form, and bytes that belong to no field: the faults that decoding finds
(30_encoding R96 to R98); and the launch of one word of the opcode table. -/

namespace Sys2Proof.Machine

open Sys2Proof.Claims

/-! ### An undefined opcode or specifier -/

/-- No form has an opcode and a specifier that 30_encoding R96 and R97 leave undefined. -/
theorem not_undefinedPair_form (f : Form) : ¬ undefinedPair f.opcode f.spec := by
  cases f with
  | alu op kind => cases op <;> cases kind <;> decide
  | load part kind => cases part <;> cases kind <;> decide
  | store part kind => cases part <;> cases kind <;> decide
  | _ => decide

theorem formOf_of_undefinedPair {opcode spec : Byte} (h : undefinedPair opcode spec) : formOf opcode spec = none := by
  rw [Option.eq_none_iff_forall_ne_some]
  intro f hf
  obtain ⟨rfl, rfl⟩ := formOf_some hf
  exact not_undefinedPair_form f h

/-- A header in the text is what is fetched first, and `pc` is not at `PROG_END` then (30_encoding R90). -/
theorem headerAt_fetch {s : State} {opcode spec : Byte} {header rest : List Byte} (ht : atText s)
    (hheader : headerAt s opcode spec header rest) :
    fetch s.params.ialign s.launch s.pc 4 = .ok header ∧ s.pc.toNat + 4 ≤ s.launch.progEnd := by
  obtain ⟨htext, hfour, -⟩ := hheader
  have hlen : 4 ≤ (textAt s).length := by rw [htext, List.length_append]; omega
  exact ⟨by rw [fetch_header ht hlen, htext, List.take_left' hfour], add_le_progEnd ht (by omega) hlen⟩

/-- Settles O4: the pair of the header selects no form, and the fault is raised before any more is fetched. -/
theorem undefinedFormFaults : Obligations.UndefinedFormFaults := by
  intro s opcode spec header rest hr ht hheader hpair
  obtain ⟨hfetch, hend⟩ := headerAt_fetch ht hheader
  obtain ⟨-, -, rfl, rfl⟩ := hheader
  refine step_of_fetchDecode_error hr (by omega) ?_
  simp only [fetchDecode, hfetch, formOf_of_undefinedPair hpair]

/-! ### The launch of a table word -/

/-- The launch conditions that `withFetchWord` meets (20_memory R56). -/
theorem withFetchWord_ready {s : State} (nbits w : Nat) (hpc : s.pc.toNat % s.params.ialign = 0)
    (hend : s.pc.toNat + s.params.longest < 2 ^ 32) (hp : s.params.wf = true) : ready (s.withFetchWord nbits w) := by
  refine ⟨rfl, ?_, hp⟩
  simpa [State.withFetchWord, Launch.wf, Launch.progEnd, tableBytes, hpc, s.params.longest_mod hp] using hend

/-- The text of a launched word, from `pc` on, is all of its bytes. -/
theorem textAt_withFetchWord (s : State) (nbits w : Nat) :
    textAt (s.withFetchWord nbits w) = tableBytes s.params.longest nbits w := by
  simp [textAt, State.withFetchWord]

/-- Settles O7: the launch is well formed, and its text at `pc` is the word. -/
theorem launchedWordRunsFirst : Obligations.LaunchedWordRunsFirst := by
  refine ⟨fun s nbits w i hpc hend hp hi => ?_, fun nbits w i => ?_⟩
  · refine stepExecutesDecodedInstruction _ i (withFetchWord_ready nbits w hpc hend hp) ⟨hpc, le_rfl⟩ ?_
    rw [textAt_withFetchWord]
    exact hi
  · unfold decodeTableWord
    split
    · next j hj => simp [hj]
    · next e he => simp [he]

/-! ### Unused fields -/

/-- All bytes of a form, one of which is in no field and not zero, do not decode (30_encoding R98). -/
theorem decode_of_unused {p : Params} {f : Form} {bytes : List Byte} {k : Nat} (h : p.wf = true)
    (hf : formOf (bytes.getD p.layout.opcode 0) (bytes.getD p.layout.spec 0) = some f) (hlen : p.len f ≤ bytes.length)
    (hk : k < p.len f) (hin : p.inField f k = false) (hbyte : bytes.getD k 0 ≠ 0) :
    decode p bytes = .error (.unusedNotZero (bytes.getD p.layout.opcode 0) (bytes.getD p.layout.spec 0)) := by
  have hunused : ¬ unusedZero p f bytes = true := fun hzero => hbyte (unusedZero_iff.1 hzero k hk hin)
  have hheader := (p.len_wf h f).1.trans hlen
  simp only [decode, hf, hunused, Nat.not_lt.2 hlen, Nat.not_lt.2 hheader, if_false, Bool.false_eq_true]

/-- Where a header is in the text, the text from `pc` on selects the form that the header selects. -/
theorem headerAt_formOf {s : State} {opcode spec : Byte} {header rest : List Byte} (hp : s.params.wf = true)
    (hheader : headerAt s opcode spec header rest) :
    formOf ((textAt s).getD s.params.layout.opcode 0) ((textAt s).getD s.params.layout.spec 0) =
      formOf opcode spec := by
  obtain ⟨-, -, -, ⟨hopcode, hspec⟩, -⟩ := s.params.wf_iff.1 hp
  obtain ⟨htext, hfour, rfl, rfl⟩ := hheader
  rw [htext, List.getD_append _ _ _ _ (by omega), List.getD_append _ _ _ _ (by omega)]

/-- A form all of whose bytes are in the text is fetched; where it does not decode it is illegal (30_encoding R90,
R98). -/
theorem fetchDecode_of_decode_error {s : State} {opcode spec : Byte} {header rest : List Byte} {f : Form}
    {e : DecodeError} (hr : ready s) (ht : atText s) (hheader : headerAt s opcode spec header rest)
    (hf : formOf opcode spec = some f) (hlen : s.params.len f ≤ (textAt s).length)
    (h : decode s.params (textAt s) = .error e) :
    fetchDecode s.params s.launch s.pc = .error (.illegalInstruction s.pc opcode spec) := by
  have ⟨_, _, hp⟩ := hr
  have hfull := (headerAt_formOf hp hheader).trans hf
  have ⟨hfetch, _⟩ := headerAt_fetch ht hheader
  obtain ⟨htext, hfour, rfl, rfl⟩ := hheader
  have htake : header = ((textAt s).take (s.params.len f)).take 4 := by
    rw [List.take_take, Nat.min_eq_left (s.params.len_wf hp f).1, htext, List.take_left' hfour]
  have hbytes : header ++ ((textAt s).take (s.params.len f)).drop 4 = (textAt s).take (s.params.len f) := by
    conv_lhs => rw [htake]
    exact List.take_append_drop ..
  simp only [fetchDecode, hfetch, hf, fetchRest_textAt hr ht hlen, hbytes, decode_take hp hfull hlen, h]

/-- A complete form with a byte that is in no field and not zero raises `IllegalInstruction`, under any layout
(30_encoding R90, R98). -/
theorem step_of_unused {s : State} {opcode spec : Byte} {header rest : List Byte} {f : Form} {k : Nat} (hr : ready s)
    (ht : atText s) (hheader : headerAt s opcode spec header rest) (hf : formOf opcode spec = some f)
    (hlen : s.params.len f ≤ rest.length + 4) (hk : k < s.params.len f) (hin : s.params.inField f k = false)
    (hbyte : (textAt s).getD k 0 ≠ 0) : step s = .next (faultedWith s (.illegalInstruction s.pc opcode spec)) := by
  have ⟨_, hend⟩ := headerAt_fetch ht hheader
  have ⟨htext, hfour, _⟩ := hheader
  have hcomplete : s.params.len f ≤ (textAt s).length := by rw [htext, List.length_append]; omega
  have ⟨_, _, hp⟩ := hr
  have hillegal := decode_of_unused hp ((headerAt_formOf hp hheader).trans hf) hcomplete hk hin hbyte
  exact step_of_fetchDecode_error hr (by omega) (fetchDecode_of_decode_error hr ht hheader hf hcomplete hillegal)

end Sys2Proof.Machine
end

section
/-! SUPPORT. The reference layout: every row of 30_encoding R89, and the unused fields of R98. -/

namespace Sys2Proof.Machine

open Sys2Proof.Claims

/-- The parameters at their reference values but for `BYTE_ORDER`. -/
def atReference (order : ByteOrder) : Params := { Config.reference with byteOrder := order }

theorem atReference_wf (order : ByteOrder) : (atReference order).wf = true := by cases order <;> decide

/-- Encoding and decoding depend on `ENC_LAYOUT`, `LEN`, `OFFLEN` and `BYTE_ORDER` only; the places of the fields and
the lengths depend on the first three. -/
theorem eq_atReference {p : Params} (h : referenceEncoding p) :
    encode p = encode (atReference p.byteOrder) ∧ decode p = decode (atReference p.byteOrder) ∧
      p.len = Config.reference.len ∧ p.inField = Config.reference.inField := by
  obtain ⟨nregs, order, layout, ialign, misaligned, offLen, ovfRule, shiftRule, cmpSigned, overlap⟩ := p
  obtain ⟨rfl, rfl⟩ := h
  exact ⟨rfl, rfl, rfl, rfl⟩

/-! ### The rows of R89 -/

/-- The field of a 16-bit immediate holds its two bytes (30_encoding R86). -/
theorem fieldBytes_imm (order : ByteOrder) (v : Word) :
    fieldBytes order 2 (v.setWidth 32) = laid order (wordLeastFirst v) := by
  rw [fieldBytes_word]
  cases order <;> rfl

/-- The encoder writes the row of each form. -/
theorem encode_atReference (order : ByteOrder) (i : Instr) : encode (atReference order) i = rowOf order i := by
  cases i with
  | addImm | subImm | mulImm | andImm | orImm | xorImm | lshImm | rshImm | movImm =>
    rw [rowOf, ← fieldBytes_imm]
    cases order <;> rfl
  | _ => cases order <;> rfl

/-- The decoder reads each row back, whatever follows it: it is an encoding. -/
theorem decode_rowOf {p : Params} (h : referenceEncoding p) (i : Instr) (rest : List Byte) :
    decode p (rowOf p.byteOrder i ++ rest) = .ok i := by
  obtain ⟨-, hdecode, -⟩ := eq_atReference h
  rw [hdecode, ← encode_atReference]
  exact decodeInvertsEncode _ i rest (atReference_wf _) (Instr.fits_of_offLen rfl i)

/-- Settles O1: the encoder writes the rows, and the encodings written out are rows with nothing behind them. -/
theorem decodeReadsWrittenWords : Obligations.DecodeReadsWrittenWords := by
  have vector (i : Instr) : decode Config.reference (rowOf .little i) = .ok i := by
    have hrow := decode_rowOf (p := Config.reference) ⟨rfl, rfl⟩ i []
    rwa [List.append_nil] at hrow
  refine ⟨fun p i h => ?_, fun p i rest h => decode_rowOf h i rest, vector .nop, vector (.addImm 1 0x0005),
    vector (.subReg 1 2), vector (.rshMem 1 0x2000), vector (.movImm 1 0x1234), vector (.movImm32 1 2 0xDEADBEEF),
    vector (.loadPairRel 1 3 2 0x30), vector (.storePairAbs 1 2 0x7000), vector (.be 1 2 0x1020),
    vector (.bro 0x1020), decode_rowOf (p := atReference .big) ⟨rfl, rfl⟩ (.movImm32 1 2 0xDEADBEEF) []⟩
  obtain ⟨hencode, -⟩ := eq_atReference h
  have hrow : encode p i = rowOf p.byteOrder i := by rw [hencode, encode_atReference]
  exact ⟨hrow, by rw [← hrow, encode_length]⟩

/-! ### The unused fields of R98 -/

/-- The table of R98 lists the bytes that are in no field of the form. -/
theorem unusedBytes_form (f : Form) (rd rn : Byte) (rest : List Byte) :
    unusedBytes f.opcode f.spec rd rn (rest.getD 1 0) =
      ((List.range (Config.reference.len f)).filter fun k => !Config.reference.inField f k).map
        fun k => (f.opcode :: f.spec :: rd :: rn :: rest).getD k 0 := by
  cases f with
  | alu op kind => cases op <;> cases kind <;> rfl
  | load part kind => cases part <;> cases kind <;> rfl
  | store part kind => cases part <;> cases kind <;> rfl
  | _ => rfl

/-- A byte of the table of R98 stands in the form, in no field of it. -/
theorem exists_of_mem_unusedBytes {p : Params} (h : referenceEncoding p) {f : Form} {rd rn b : Byte}
    {rest : List Byte} (hb : b ∈ unusedBytes f.opcode f.spec rd rn (rest.getD 1 0)) :
    ∃ k < p.len f, p.inField f k = false ∧ (f.opcode :: f.spec :: rd :: rn :: rest).getD k 0 = b := by
  obtain ⟨-, -, hlen, hin⟩ := eq_atReference h
  rw [unusedBytes_form] at hb
  obtain ⟨k, hk, hbyte⟩ := List.mem_map.1 hb
  obtain ⟨hrange, hunused⟩ := List.mem_filter.1 hk
  rw [hlen, hin]
  exact ⟨k, List.mem_range.1 hrange, by simpa using hunused, hbyte⟩

/-- The header of an encoding under the reference layout. -/
theorem header_of_encode {p : Params} (h : referenceEncoding p) {i : Instr} {opcode spec rd rn : Byte}
    {rest : List Byte} (hi : encode p i = opcode :: spec :: rd :: rn :: rest) :
    i.form.opcode = opcode ∧ i.form.spec = spec := by
  obtain ⟨hencode, -⟩ := eq_atReference h
  have hheader := encode_header (atReference_wf p.byteOrder) i []
  rw [← hencode, hi] at hheader
  exact ⟨hheader.1.symm, hheader.2.symm⟩

/-- Settles O5: the bytes that R98 lists are in no field, where the encoder writes zero and the decoder asks for it. -/
theorem unusedFieldNotZeroFaults : Obligations.UnusedFieldNotZeroFaults := by
  refine ⟨fun p i opcode spec rd rn rest h hi b hb => ?_,
    fun s opcode spec rd rn rest f h hr ht htext hf hlen hbyte => ?_,
    fun s opcode spec header rest f hr ht hheader hf hlen hbyte => ?_⟩
  · obtain ⟨rfl, rfl⟩ := header_of_encode h hi
    obtain ⟨k, hk, hin, rfl⟩ := exists_of_mem_unusedBytes h hb
    rw [← hi, ← List.append_nil (encode p i), encode_getD p i [] hk, byteAt_unused hin]
  · obtain ⟨b, hb, hne⟩ := hbyte
    obtain ⟨rfl, rfl⟩ := formOf_some hf
    obtain ⟨k, hk, hin, rfl⟩ := exists_of_mem_unusedBytes h hb
    have hheader : headerAt s f.opcode f.spec [f.opcode, f.spec, rd, rn] rest :=
      ⟨htext, rfl, by rw [h.1]; rfl, by rw [h.1]; rfl⟩
    exact step_of_unused hr ht hheader hf hlen hk hin (by rwa [htext])
  · obtain ⟨k, hk, hin, hne⟩ := hbyte
    exact step_of_unused hr ht hheader hf hlen hk hin hne

end Sys2Proof.Machine
end

section
/-! SUPPORT. The assembler picks each form back from its operands, and reads the source's lines (30_encoding R101,
R102). -/

namespace Sys2Proof.Machine

@[simp] theorem regField_toNat (r : RegNum) : regField r.toNat = some r := by
  rw [regField, if_pos r.isLt, BitVec.ofNat_toNat, BitVec.setWidth_eq]

@[simp] theorem wordField_toNat (v : Word) : wordField v.toNat = some v := by
  rw [wordField, if_pos v.isLt, BitVec.ofNat_toNat, BitVec.setWidth_eq]

@[simp] theorem dwordField_toNat (v : DWord) : dwordField v.toNat = some v := by
  rw [dwordField, if_pos v.isLt, BitVec.ofNat_toNat, BitVec.setWidth_eq]

/-- Settles O59: the mnemonic leads to one of the four choices by operand shape, and each number fits its field. -/
theorem assemblerInvertsSyntax : Obligations.AssemblerInvertsSyntax := by
  intro i
  cases i with
  | nop => rfl
  | b | bro => simp [sourceOf, select, selectJump]
  | be | bne | blt | bgt => simp [sourceOf, select, selectCompare]
  | addImm | subImm | mulImm | andImm | orImm | xorImm | lshImm | rshImm
  | addReg | subReg | mulReg | andReg | orReg | xorReg | lshReg | rshReg
  | addMem | subMem | mulMem | andMem | orMem | xorMem | lshMem | rshMem =>
    simp [sourceOf, select, aluForms, selectAlu]
  | _ => simp [sourceOf, select, selectMov]

/-- Settles O60: fixed lines, which the assembler is run on. -/
theorem assemblerReadsSourceLines : Obligations.AssemblerReadsSourceLines := by
  unfold Obligations.AssemblerReadsSourceLines
  decide

end Sys2Proof.Machine
end

section
/-! SUPPORT. nop (40_nop), and what the rows of the reference layout say of the address behind an instruction. -/

namespace Sys2Proof.Machine

open Sys2Proof.Claims

/-- Under the reference layout an instruction is as long as its row (30_encoding R89). -/
theorem behind_of_referenceEncoding {s : State} (h : referenceEncoding s.params) (i : Instr) :
    behind i s = s.pc + BitVec.ofNat 32 (rowOf s.params.byteOrder i).length := by
  obtain ⟨hrow, -⟩ := decodeReadsWrittenWords
  obtain ⟨-, hlength⟩ := hrow s.params i h
  rw [behind, hlength]

/-- nop has nothing to check and nothing to do but to advance (40_nop R120). -/
theorem exec_nop (s : State) : exec .nop s = .next (advance s .nop) := rfl

/-- Settles O18: nop is an advance, and its row in the reference layout is four zero bytes. -/
theorem nopAdvancesOnly : Obligations.NopAdvancesOnly := by
  intro s
  refine ⟨exec_nop s, fun h => ?_⟩
  obtain ⟨hrow, -⟩ := decodeReadsWrittenWords
  obtain ⟨hencode, -⟩ := hrow s.params .nop h
  exact ⟨hencode, behind_of_referenceEncoding h .nop⟩

end Sys2Proof.Machine
end

section
/-! SUPPORT. The arithmetic instructions (41_alu): the 24 forms as one operation over the source of their second
operand, the table of op(a, b), and REF-OVF. -/

namespace Sys2Proof.Machine

open Sys2Proof.Claims

/-! ### The 24 forms by operation and source -/

/-- The arithmetic instruction of an operation and a source (41_alu R131). -/
def aluInstr (op : AluOp) (rd : RegNum) : AluSource → Instr
  | .imm v => aluImm op rd v
  | .reg rn => aluReg op rd rn
  | .mem addr => aluMem op rd addr

theorem exec_aluInstr (op : AluOp) (rd : RegNum) (src : AluSource) (s : State) :
    exec (aluInstr op rd src) s = aluExec op rd src s := by
  cases src <;> cases op <;> rfl

theorem nextPc_sourceForm (op : AluOp) (rd : RegNum) (src : AluSource) (s : State) :
    nextPc s (sourceForm op src) = behind (aluInstr op rd src) s := by
  cases src <;> cases op <;> rfl

/-- With its registers there and its second operand read, an arithmetic instruction commits its result (41_alu
R132). -/
theorem exec_aluInstr_commit {op : AluOp} {rd : RegNum} {src : AluSource} {s : State} {b : Word}
    (hregs : legal s ((sourceFields rd src).map Prod.snd)) (hb : secondOperand src s = .ok b) :
    exec (aluInstr op rd src) s = .next (aluCommit op rd (sourceForm op src) s b) := by
  rw [exec_aluInstr]
  exact perform_ok ((illegalRegister_none_iff ..).2 (List.forall_mem_map.1 hregs)) (by rw [hb]; rfl)

/-- The committed state as one record, `pc` behind the instruction (41_alu R132). -/
theorem exec_aluInstr_next {op : AluOp} {rd : RegNum} {src : AluSource} {s : State} {b : Word}
    (hregs : legal s ((sourceFields rd src).map Prod.snd)) (hb : secondOperand src s = .ok b) :
    exec (aluInstr op rd src) s = .next { s with
      regs := s.regs.set rd.toNat (aluResult s.params.shiftRule op (readReg s rd) b) rd.isLt
      ov := ovfUpdate s.params.ovfUpdate op (readReg s rd) b s.ov
      pc := behind (aluInstr op rd src) s } := by
  rw [exec_aluInstr_commit hregs hb, aluCommit_eq, nextPc_sourceForm op rd]

/-- The 16-bit value of an address that may be accessed (20_memory R53, R54). -/
theorem memReadWord_of_accessible {s : State} {addr : Addr} (h : accessible s addr 2) :
    memReadWord s addr = .ok (wordOf s.params.byteOrder (s.mem.read addr.toNat) (s.mem.read (addr.toNat + 1))) :=
  memReadWord_ok.2 ⟨(checkAccess_none_iff ..).2 h, rfl⟩

/-- Settles O19: the immediate is there without a read. -/
theorem aluImmediateForms : Obligations.AluImmediateForms :=
  fun _ _ imm _ hregs => exec_aluInstr_next (src := .imm imm) hregs rfl

/-- Settles O20: the second operand is read before the commit, which writes `x[rd]`. -/
theorem aluRegisterForms : Obligations.AluRegisterForms :=
  fun _ _ rn _ hregs => exec_aluInstr_next (src := .reg rn) hregs rfl

/-- Settles O21: the second operand is the 16-bit read of an accessible address. -/
theorem aluMemoryForms : Obligations.AluMemoryForms := by
  rintro op rd addr _ s hregs haccess rfl
  exact exec_aluInstr_next (src := .mem addr) hregs (memReadWord_of_accessible haccess)

/-! ### REF-OVF -/

/-- Settles O23, operation by operation. -/
theorem refOvfTable : Obligations.RefOvfTable := by
  intro a b ov
  refine ⟨decide_eq_true_iff, decide_eq_true_iff, decide_eq_true_iff, ?_⟩
  rintro op (rfl | rfl | rfl | rfl | rfl) <;> rfl

/-! ### Shifts -/

theorem toNat_lshResult {rule : ShiftRule} {a n : Word} (h : n.toNat ≤ 15) :
    (lshResult rule a n).toNat = (a.toNat * 2 ^ n.toNat) % 65536 := by
  unfold lshResult
  rw [if_pos h, BitVec.toNat_ofNat]

theorem lshResult_reference_of_le {a n : Word} (h : 16 ≤ n.toNat) : lshResult .reference a n = 0 := by
  rw [lshResult, if_neg (by omega)]

/-- A right shift within the register, where the rule says what it is: the quotient fits (41_alu R166). -/
theorem toNat_rshResult {rule : ShiftRule} {a n : Word} (h : n.toNat ≤ 15)
    (ha : rule = .reference ∨ a.toNat < 32768) : (rshResult rule a n).toNat = a.toNat / 2 ^ n.toNat := by
  have hvalue : rshResult rule a n = BitVec.ofNat 16 (a.toNat / 2 ^ n.toNat) := by
    cases rule with
    | reference => rw [rshResult, if_pos h]
    | uninterpreted => rw [rshResult, if_pos ⟨h, ha.resolve_left nofun⟩]
  rw [hvalue, BitVec.toNat_ofNat, Nat.mod_eq_of_lt ((Nat.div_le_self ..).trans_lt a.isLt)]

theorem rshResult_reference_of_le {a n : Word} (h : 16 ≤ n.toNat) : rshResult .reference a n = 0 := by
  rw [rshResult, if_neg (by omega)]

/-- Settles O25, from the values of the two shifts on both sides of 16. -/
theorem shiftLaws : Obligations.ShiftLaws := by
  intro rule a n
  refine ⟨toNat_lshResult, ?_, toNat_rshResult, ?_⟩
  · rintro h rfl
    exact lshResult_reference_of_le h
  · rintro h rfl
    exact rshResult_reference_of_le h

/-! ### The table of op(a, b) -/

/-- The minuend is raised by 2^16 so that the integer difference is not negative (41_alu R133). -/
theorem toNat_word_sub (a b : Word) : (a - b).toNat = (a.toNat + 65536 - b.toNat) % 65536 := by
  bv_omega

theorem toNat_lshResult_reference (a n : Word) :
    (lshResult .reference a n).toNat = if n.toNat ≤ 15 then (a.toNat * 2 ^ n.toNat) % 65536 else 0 := by
  split
  · next h => exact toNat_lshResult h
  · next h => rw [lshResult_reference_of_le (by omega)]; rfl

theorem toNat_rshResult_reference (a n : Word) :
    (rshResult .reference a n).toNat = if n.toNat ≤ 15 then a.toNat / 2 ^ n.toNat else 0 := by
  split
  · next h => exact toNat_rshResult h (.inl rfl)
  · next h => rw [rshResult_reference_of_le (by omega)]; rfl

/-- What an arithmetic instruction leaves in `x[rd]`: op of `x[rd]` and its second operand (41_alu R131, R133). -/
theorem exec_aluInstr_result {op : AluOp} {rd : RegNum} {src : AluSource} {s : State} {b : Word}
    (hregs : legal s ((sourceFields rd src).map Prod.snd)) (hb : secondOperand src s = .ok b)
    (hrule : s.params.shiftRule = .reference) :
    ∃ t, exec (aluInstr op rd src) s = .next t ∧ readReg t rd = aluResult .reference op (readReg s rd) b := by
  refine ⟨_, exec_aluInstr_commit hregs hb, ?_⟩
  calc readReg (aluCommit op rd (sourceForm op src) s b) rd
      = readReg (writeReg s rd (aluResult s.params.shiftRule op (readReg s rd) b)) rd := rfl
    _ = aluResult .reference op (readReg s rd) b := by rw [readReg_writeReg, if_pos rfl, hrule]

/-- Settles O22: every form leaves op(a, b) in `x[rd]`, and each operation on words is the one on integers or bits. -/
theorem aluOperationTable : Obligations.AluOperationTable := by
  refine ⟨?_, ?_, ?_, fun a b => ⟨?_, ?_, ?_, ?_, ?_, ?_, ?_, ?_⟩⟩
  · exact fun _ _ imm _ hregs => exec_aluInstr_result (src := .imm imm) hregs rfl
  · exact fun _ _ rn _ hregs => exec_aluInstr_result (src := .reg rn) hregs rfl
  · exact fun _ _ addr _ _ hregs hread => exec_aluInstr_result (src := .mem addr) hregs hread
  · exact BitVec.toNat_add a b
  · exact toNat_word_sub a b
  · exact BitVec.toNat_mul a b
  · exact fun _ _ => BitVec.getLsbD_and
  · exact fun _ _ => BitVec.getLsbD_or
  · exact fun _ _ => BitVec.getLsbD_xor
  · exact toNat_lshResult_reference a b
  · exact toNat_rshResult_reference a b

/-- Settles O24: REF-OVF compares the exact result with 2^16, and the table gives its remainder modulo 2^16. -/
theorem overflowMeansResultDiffers : Obligations.OverflowMeansResultDiffers := by
  intro a b ov
  obtain ⟨hadd, hsub, hmul, -⟩ := refOvfTable a b ov
  obtain ⟨-, -, -, htable⟩ := aluOperationTable
  obtain ⟨hsum, hdifference, hproduct, -⟩ := htable a b
  have ha := a.isLt
  have hb := b.isLt
  rw [hadd, hsub, hmul, hsum, hdifference, hproduct]
  refine ⟨?_, ?_, ?_⟩
  · omega
  · omega
  · generalize a.toNat * b.toNat = product
    omega

end Sys2Proof.Machine
end

section
/-! SUPPORT. mov (42_mov): the moves between registers, and the loads and stores of both addressing modes at once, as
the next state they leave. -/

namespace Sys2Proof

open Sys2Proof.Claims

/-! ### Bytes as a store lays them -/

theorem wordBytes_eq_laid (order : ByteOrder) (v : Word) : wordBytes order v = laid order (wordLeastFirst v) := by
  cases order <;> rfl

/-- The bytes of a 32-bit value are those of its lower and then of its upper half (42_mov R193). -/
theorem leastFirst_halves (v : DWord) :
    leastFirst v = wordLeastFirst (lowerHalf v) ++ wordLeastFirst (upperHalf v) := by
  have part (k m : Nat) (hm : m + 8 ≤ 16) : (v.extractLsb' k 16).extractLsb' m 8 = v.extractLsb' (k + m) 8 := by
    ext i hi
    simp only [BitVec.getElem_extractLsb', BitVec.getLsbD_extractLsb', Nat.add_assoc,
      decide_eq_true (show m + i < 16 by omega), Bool.true_and]
  simp only [wordLeastFirst, lowerHalf, upperHalf, part 0 0 (by omega), part 0 8 (by omega), part 16 0 (by omega),
    part 16 8 (by omega)]
  rfl

/-- The bytes of a pair: those of its lower and then of its upper register, as `BYTE_ORDER` lays them (42_mov R193). -/
theorem dwordBytes_joinHalves (order : ByteOrder) (upper lower : Word) :
    dwordBytes order (joinHalves upper lower) = laid order (wordLeastFirst lower ++ wordLeastFirst upper) := by
  rw [dwordBytes, leastFirst_halves, lowerHalf_joinHalves, upperHalf_joinHalves]
  cases order <;> rfl

end Sys2Proof

namespace Sys2Proof.Machine

open Sys2Proof.Claims

/-! ### The pair write -/

/-- The pair write changes the registers only, to what `pairRegs` says (42_mov R202). -/
theorem writePair_eq_pairRegs (s : State) (rd second : RegNum) (d : DWord) :
    writePair s rd second d = { s with regs := pairRegs s rd second d } := by
  rw [writePair_eq, pairRegs]
  split <;> rfl

/-! ### Moves without a data access -/

/-- An instruction that makes no data access and whose registers are there has its effect. -/
theorem exec_of_effect {i : Instr} {s t : State} (hregs : legal s i.usedRegs)
    (hexec : exec i s = perform s (usedFields i) (.ok t)) : exec i s = .next t :=
  hexec.trans (perform_ok (illegalRegister_usedFields_iff.2 hregs) rfl)

/-- Under the reference layout an instruction is encoded as its row (30_encoding R89). -/
theorem encode_of_referenceEncoding {p : Params} (h : referenceEncoding p) (i : Instr) :
    encode p i = rowOf p.byteOrder i := by
  obtain ⟨hrow, -⟩ := decodeReadsWrittenWords
  exact (hrow p i h).1

/-- Settles O26: the row of the form, and one register write. -/
theorem movImmediateForm : Obligations.MovImmediateForm := by
  intro rd imm s
  refine ⟨fun h => ⟨encode_of_referenceEncoding h _, ?_⟩, fun hregs => exec_of_effect hregs rfl⟩
  have hlength : (rowOf s.params.byteOrder (.movImm rd imm)).length = 6 := by cases s.params.byteOrder <;> rfl
  rw [behind_of_referenceEncoding h, hlength]
  rfl

/-- Settles O27: the effect is the pair write. -/
theorem movImmediatePairForm : Obligations.MovImmediatePairForm := by
  intro rd rn imm s hregs
  have hnext : exec (.movImm32 rd rn imm) s = .next (advance (writePair s rd rn imm) .movImm32) :=
    exec_of_effect hregs rfl
  rw [hnext, writePair_eq_pairRegs]
  rfl

/-- An instruction that uses rd and rn reports the first of them that is not there (10_state R22). -/
theorem registerFaults_of_usedFields {i : Instr} {rd rn : RegNum} (h : usedFields i = [(.rd, rd), (.rn, rn)])
    (s : State) : registerFaults i s rd rn := by
  obtain ⟨hfirst, -⟩ := illegalRegisterFaults i s
  refine ⟨fun hrd => ?_, fun hrd hrn => ?_⟩
  · exact hfirst [] [(.rn, rn)] .rd rd h nofun hrd
  · exact hfirst [(.rd, rd)] [] .rn rn h (by simpa using hrd) hrn

theorem set_readReg_self (s : State) (r : RegNum) : s.regs.set r.toNat (readReg s r) r.isLt = s.regs := by
  simp [readReg]

/-- Settles O28: the effect writes `x[rn]`, which for one register is the value it has. -/
theorem movRegisterReversed : Obligations.MovRegisterReversed := by
  intro rd rn s
  refine ⟨fun h => ⟨encode_of_referenceEncoding h _, behind_of_referenceEncoding h _⟩, fun hregs => ?_,
    registerFaults_of_usedFields rfl s, headerFetchFaults_holds s⟩
  have hnext : exec (.movReg rd rn) s = .next { s with
      regs := s.regs.set rn.toNat (readReg s rd) rn.isLt, pc := behind (.movReg rd rn) s } :=
    exec_of_effect hregs rfl
  refine ⟨hnext, ?_⟩
  rintro rfl
  rw [hnext, set_readReg_self]

/-! ### Loads -/

/-- A load writes registers only (42_mov R186 to R189). -/
theorem loaded_eq (v : Fields) (s : State) (ea : Addr) (part : MovePart) :
    loaded v s ea part = { s with regs := (loaded v s ea part).regs } := by
  cases part with
  | low | high | word => rfl
  | pair => rw [loaded, writePair_eq_pairRegs]

/-- The next state of a load whose registers are there and whose address may be accessed (42_mov R186 to R189, R194 to
R197). -/
theorem exec_load (part : MovePart) (am : AddressMode) (rd rn1 : RegNum) {s : State}
    (hregs : legal s ((Form.load part (modeKind am)).instr (moveFields am rd rn1)).usedRegs)
    (haccess : accessible s (effectiveAddress am s) part.size) :
    exec ((Form.load part (modeKind am)).instr (moveFields am rd rn1)) s = .next { s with
      regs := (loaded (moveFields am rd rn1) s (effectiveAddress am s) part).regs
      pc := behind ((Form.load part (modeKind am)).instr (moveFields am rd rn1)) s } := by
  have hchecked (ea : Addr) (n : Nat)
      (hdata : dataAccess ((Form.load part (modeKind am)).instr (moveFields am rd rn1)) s = some (ea, n)) :
      accessible s ea n := by
    rw [dataAccess_load, modeOf_moveFields] at hdata
    cases hdata
    exact haccess
  rw [exec_instr_completed hregs hchecked, completed, dataEffect, modeOf_moveFields, loaded_eq, behind_instr]
  rfl

theorem exec_loadLowAt {am : AddressMode} {rd : RegNum} {s : State}
    (hregs : legal s (loadHalfAt false am rd).usedRegs) (haccess : accessible s (effectiveAddress am s) 1) :
    exec (loadHalfAt false am rd) s = .next { s with
      regs := s.regs.set rd.toNat
        (joinBytes (highByte (readReg s rd)) (s.mem.read (effectiveAddress am s).toNat)) rd.isLt
      pc := behind (loadHalfAt false am rd) s } := by
  rw [loadHalfAt_eq, halfPart, if_neg (by decide)] at hregs ⊢
  rw [exec_load .low am rd 0 hregs haccess, loaded, writeLow, writeReg_regs, moveFields_rd]

theorem exec_loadHighAt {am : AddressMode} {rd : RegNum} {s : State}
    (hregs : legal s (loadHalfAt true am rd).usedRegs) (haccess : accessible s (effectiveAddress am s) 1) :
    exec (loadHalfAt true am rd) s = .next { s with
      regs := s.regs.set rd.toNat
        (joinBytes (s.mem.read (effectiveAddress am s).toNat) (lowByte (readReg s rd))) rd.isLt
      pc := behind (loadHalfAt true am rd) s } := by
  rw [loadHalfAt_eq, halfPart, if_pos rfl] at hregs ⊢
  rw [exec_load .high am rd 0 hregs haccess, loaded, writeHigh, writeReg_regs, moveFields_rd]

theorem exec_loadWordAt {am : AddressMode} {rd : RegNum} {s : State} (hregs : legal s (loadWordAt am rd).usedRegs)
    (haccess : accessible s (effectiveAddress am s) 2) :
    exec (loadWordAt am rd) s = .next { s with
      regs := s.regs.set rd.toNat (s.mem.readWord s.params.byteOrder (effectiveAddress am s).toNat) rd.isLt
      pc := behind (loadWordAt am rd) s } := by
  rw [loadWordAt_eq] at hregs ⊢
  rw [exec_load .word am rd 0 hregs haccess, loaded, writeReg_regs, moveFields_rd]

theorem exec_loadPairAt {am : AddressMode} {rd rn1 : RegNum} {s : State}
    (hregs : legal s (loadPairAt am rd rn1).usedRegs) (haccess : accessible s (effectiveAddress am s) 4) :
    exec (loadPairAt am rd rn1) s = .next { s with
      regs := pairRegs s rd rn1 (s.mem.readDWord s.params.byteOrder (effectiveAddress am s).toNat)
      pc := behind (loadPairAt am rd rn1) s } := by
  rw [loadPairAt_eq] at hregs ⊢
  rw [exec_load .pair am rd rn1 hregs haccess, loaded, writePair_eq_pairRegs, moveFields_rd, moveFields_rn1]

/-- Settles O29: the loads, in the absolute mode. -/
theorem loadAbsoluteForms : Obligations.LoadAbsoluteForms := by
  intro rd rn1 addr s
  refine ⟨fun hregs haccess => ⟨?_, ?_⟩, fun hregs haccess => ?_, fun hregs haccess => ?_⟩
  · exact exec_loadLowAt (am := .absolute addr) hregs haccess
  · exact exec_loadHighAt (am := .absolute addr) hregs haccess
  · exact exec_loadWordAt (am := .absolute addr) hregs haccess
  · exact exec_loadPairAt (am := .absolute addr) hregs haccess

/-- Settles O30: the loads, in the relative mode, whose address is taken from the state before any write. -/
theorem loadRelativeForms : Obligations.LoadRelativeForms := by
  rintro rd rn rn1 off s _ rfl
  refine ⟨fun hregs haccess => ⟨?_, ?_⟩, fun hregs haccess => ?_, fun hregs haccess => ?_⟩
  · exact exec_loadLowAt (am := .relative rn off) hregs haccess
  · exact exec_loadHighAt (am := .relative rn off) hregs haccess
  · exact exec_loadWordAt (am := .relative rn off) hregs haccess
  · exact exec_loadPairAt (am := .relative rn off) hregs haccess

/-! ### Stores -/

/-- A store whose registers are there and whose address may be accessed puts its bytes there, and changes nothing
beside them (42_mov R190 to R193, R198 to R201). -/
theorem storesAt_store (part : MovePart) (am : AddressMode) (rd rn1 : RegNum) {s : State}
    (hregs : legal s ((Form.store part (modeKind am)).instr (moveFields am rd rn1)).usedRegs)
    (haccess : accessible s (effectiveAddress am s) part.size) :
    storesAt ((Form.store part (modeKind am)).instr (moveFields am rd rn1)) s (effectiveAddress am s)
      (storedBytes (moveFields am rd rn1) s part) := by
  have hchecked (ea : Addr) (n : Nat)
      (hdata : dataAccess ((Form.store part (modeKind am)).instr (moveFields am rd rn1)) s = some (ea, n)) :
      accessible s ea n := by
    rw [dataAccess_store, modeOf_moveFields, storedBytes_length] at hdata
    cases hdata
    exact haccess
  refine ⟨s.mem.writeBytes (effectiveAddress am s).toNat (storedBytes (moveFields am rd rn1) s part), ?_,
    fun k hk => ?_, fun a => Memory.read_writeBytes_beside _⟩
  · rw [exec_instr_completed hregs hchecked, completed, dataEffect, modeOf_moveFields, behind_instr]
    rfl
  · rw [Memory.holds_writeBytes _ _ _ k hk, List.getD_eq_getElem]

theorem storesAt_storeHalfAt {high : Bool} {am : AddressMode} {rd : RegNum} {s : State}
    (hregs : legal s (storeHalfAt high am rd).usedRegs) (haccess : accessible s (effectiveAddress am s) 1) :
    storesAt (storeHalfAt high am rd) s (effectiveAddress am s) [halfOf high (readReg s rd)] := by
  rw [storeHalfAt_eq] at hregs ⊢
  have hstores := storesAt_store _ am rd 0 hregs ((size_halfPart high).symm ▸ haccess)
  rwa [storedBytes_half, moveFields_rd] at hstores

theorem storesAt_storeWordAt {am : AddressMode} {rd : RegNum} {s : State}
    (hregs : legal s (storeWordAt am rd).usedRegs) (haccess : accessible s (effectiveAddress am s) 2) :
    storesAt (storeWordAt am rd) s (effectiveAddress am s)
      (laid s.params.byteOrder (wordLeastFirst (readReg s rd))) := by
  rw [storeWordAt_eq] at hregs ⊢
  have hstores := storesAt_store .word am rd 0 hregs haccess
  rwa [storedBytes, moveFields_rd, wordBytes_eq_laid] at hstores

theorem storesAt_storePairAt {am : AddressMode} {rd rn1 : RegNum} {s : State}
    (hregs : legal s (storePairAt am rd rn1).usedRegs) (haccess : accessible s (effectiveAddress am s) 4) :
    storesAt (storePairAt am rd rn1) s (effectiveAddress am s)
      (laid s.params.byteOrder (wordLeastFirst (readReg s rn1) ++ wordLeastFirst (readReg s rd))) := by
  rw [storePairAt_eq] at hregs ⊢
  have hstores := storesAt_store .pair am rd rn1 hregs haccess
  rwa [storedBytes, moveFields_rd, moveFields_rn1, dwordBytes_joinHalves] at hstores

/-- Settles O31: the stores, in the absolute mode. -/
theorem storeAbsoluteForms : Obligations.StoreAbsoluteForms := by
  intro rd rn1 addr s
  refine ⟨fun hregs haccess => ⟨?_, ?_⟩, fun hregs haccess => ?_, fun hregs haccess => ?_⟩
  · exact storesAt_storeHalfAt (high := false) (am := .absolute addr) hregs haccess
  · exact storesAt_storeHalfAt (high := true) (am := .absolute addr) hregs haccess
  · exact storesAt_storeWordAt (am := .absolute addr) hregs haccess
  · exact storesAt_storePairAt (am := .absolute addr) hregs haccess

/-- Settles O32: the stores, in the relative mode. -/
theorem storeRelativeForms : Obligations.StoreRelativeForms := by
  rintro rd rn rn1 off s _ rfl
  refine ⟨fun hregs haccess => ⟨?_, ?_⟩, fun hregs haccess => ?_, fun hregs haccess => ?_⟩
  · exact storesAt_storeHalfAt (high := false) (am := .relative rn off) hregs haccess
  · exact storesAt_storeHalfAt (high := true) (am := .relative rn off) hregs haccess
  · exact storesAt_storeWordAt (am := .relative rn off) hregs haccess
  · exact storesAt_storePairAt (am := .relative rn off) hregs haccess

/-! ### A 16-bit load by its bytes -/

/-- A load of each half makes the register the join of the two bytes: the second load keeps the first half. -/
theorem exec_loadHalves {s : State} {rd : RegNum} {lowAt highAt : Addr} (hregs : legal s [rd])
    (hlow : accessible s lowAt 1) (hhigh : accessible s highAt 1) :
    ∃ t u, exec (.loadLowAbs rd lowAt) s = .next t ∧ exec (.loadHighAbs rd highAt) t = .next u ∧
      u.regs = s.regs.set rd.toNat (joinBytes (s.mem.read highAt.toNat) (s.mem.read lowAt.toNat)) rd.isLt ∧
      u.mem = s.mem ∧ u.ov = s.ov := by
  refine ⟨_, _, exec_loadLowAt (am := .absolute lowAt) hregs hlow,
    exec_loadHighAt (am := .absolute highAt) hregs hhigh, ?_, rfl, rfl⟩
  simp [effectiveAddress, readReg]

/-- Settles O54: each byte of the word may be loaded alone, and under either order the join of the halves is the
word. -/
theorem byteLoadsMakeWordLoad : Obligations.ByteLoadsMakeWordLoad := by
  intro s rd a lowAt highAt hregs haccess hlittle hbig
  have hword := exec_loadWordAt (am := .absolute a) (rd := rd) hregs haccess
  have hfirst : accessible s a 1 := by
    simpa using accessible_part haccess Nat.one_pos (Nat.one_dvd 2) (Nat.one_dvd 0) (by decide)
  have hsecond : accessible s (a + 1) 1 :=
    accessible_part haccess Nat.one_pos (Nat.one_dvd 2) (Nat.one_dvd 1) (by decide)
  have hnext : (a + 1).toNat = a.toNat + 1 := toNat_add_of_accessible haccess (show 1 < 2 by decide)
  cases horder : s.params.byteOrder with
  | little =>
    obtain ⟨rfl, rfl⟩ := hlittle horder
    obtain ⟨t, u, ht, hu, hjoin, hmem, hov⟩ := exec_loadHalves hregs hfirst hsecond
    rw [hnext] at hjoin
    rw [horder] at hword
    exact ⟨t, u, _, ht, hu, hword, hjoin, hmem, hov⟩
  | big =>
    obtain ⟨rfl, rfl⟩ := hbig horder
    obtain ⟨t, u, ht, hu, hjoin, hmem, hov⟩ := exec_loadHalves hregs hsecond hfirst
    rw [hnext] at hjoin
    rw [horder] at hword
    exact ⟨t, u, _, ht, hu, hword, hjoin, hmem, hov⟩

/-! ### The effective address -/

theorem offsetValue_full (off : DWord) : offsetValue 32 off = off := by
  rw [offsetValue, Nat.mod_eq_of_lt off.isLt, BitVec.ofNat_toNat, BitVec.setWidth_eq]

/-- Settles O33: a sum of 32-bit values is the sum modulo 2^32, and an Offset of 32 bits is its field. -/
theorem effectiveAddressRule : Obligations.EffectiveAddressRule := by
  intro rn off s
  refine ⟨?_, fun h => ?_, rfl⟩
  · have hreg := (readReg s rn).isLt
    rw [effectiveAddress, offsetValue, BitVec.toNat_add, BitVec.toNat_ofNat, Nat.add_mod_mod,
      BitVec.zeroExtend_eq_setWidth, BitVec.toNat_setWidth,
      Nat.mod_eq_of_lt (show (readReg s rn).toNat < 2 ^ 32 by omega)]
  · rw [effectiveAddress, h, offsetValue_full]

/-! ### mov and the overflow flag -/

theorem targetOf_of_isMov {i : Instr} (h : isMov i = true) : targetOf i = none := by
  cases i with
  | b | be | bne | blt | bgt | bro => cases h
  | _ => rfl

/-- No branch is taken by a mov (42_mov R203). -/
theorem taken_of_isMov {f : Form} {v : Fields} (h : isMov (f.instr v) = true) (s : State) :
    taken f v s = false := by
  by_contra htaken
  have htarget := (taken_branch (Bool.of_not_eq_false htaken)).1
  rw [targetOf_of_isMov h] at htarget
  cases htarget

/-- mov keeps `OV`, whatever rule the arithmetic instructions write it by (42_mov R203). -/
theorem completed_ov_of_isMov {f : Form} {v : Fields} (h : isMov (f.instr v) = true) (s : State) :
    (completed f v s).ov = s.ov := by
  match f with
  | .movImm | .movReg | .store _ _ => rfl
  | .movImm32 => exact writePair_ov ..
  | .load part kind => exact loaded_ov ..
  | .alu op kind => cases op <;> cases kind <;> cases h
  | .nop | .b | .be | .bne | .blt | .bgt | .bro => cases h

/-- What mov does but to `OV` is the same whatever `OV` is, and `OV` it keeps (42_mov R203). -/
theorem completed_setOv_of_isMov {f : Form} {v : Fields} (h : isMov (f.instr v) = true) (s : State) (b : Bool) :
    completed f v { s with ov := b } = { completed f v s with ov := b } := by
  have hf : f ≠ .bro := by rintro rfl; cases h
  obtain ⟨c, hc⟩ := completed_setOv hf v s b
  have hkept : b = c := (completed_ov_of_isMov h { s with ov := b }).symm.trans (congrArg State.ov hc)
  rw [hc, hkept]

/-- Settles O34: a fault and a completed mov both commute with setting `OV`, and a mov that completes takes no
branch. -/
theorem movIgnoresOverflowFlag : Obligations.MovIgnoresOverflowFlag := by
  intro i s t b hmov h
  obtain ⟨f, v, rfl⟩ := exists_instr i
  obtain ⟨_, hnext, rfl⟩ := exec_instr_related h { s with ov := b } (R := fun t t' => t' = { t with ov := b }) rfl rfl
    (dataAccess_congr rfl fun _ _ => rfl) (fun _ => rfl) (completed_setOv_of_isMov hmov s b)
  rcases exec_instr_next h with ⟨g, rfl⟩ | ⟨-, -, rfl⟩
  · exact ⟨rfl, hnext, .inl ⟨g, rfl⟩⟩
  · refine ⟨completed_ov_of_isMov hmov s, hnext, .inr ⟨(completed_keepsSetting f v s).status, ?_⟩⟩
    rw [completed_pc, if_neg (by rw [taken_of_isMov hmov]; decide)]

end Sys2Proof.Machine
end

section
/-! SUPPORT. The branches (43_branch): the next state of all six at once, the two readings of the comparisons, the
bytes and the faults of a branch, and a branch to its own address. -/

namespace Sys2Proof.Machine

open Sys2Proof.Claims

/-! ### The next state of a branch -/

/-- A branch whose registers are there writes `pc` only (43_branch R220). -/
theorem exec_branch {i : Instr} {label : Addr} {s : State} (htarget : targetOf i = some label)
    (hregs : legal s i.usedRegs) :
    exec i s = .next { s with pc := if taken i.form i.fields s then label else behind i s } := by
  cases i with
  | b | be | bne | blt | bgt | bro => cases htarget; exact exec_of_effect hregs rfl
  | _ => cases htarget

/-- What a branch tests is its condition in the spec, its registers being there (43_branch R221, R222, R227). -/
theorem taken_iff {i : Instr} {s : State} (hregs : legal s i.usedRegs) :
    taken i.form i.fields s = true ↔ branchTaken i s := by
  constructor
  · intro h
    obtain ⟨-, hcondition⟩ := taken_branch h
    rw [instr_form_fields] at hcondition
    exact hcondition hregs
  · intro h
    cases i with
    | b => rfl
    | be => exact beq_iff_eq.2 h.2
    | bne => exact bne_iff_ne.2 h.2
    | blt | bgt => exact h.2
    | bro => exact h
    | _ => cases h

/-- The next state of a branch, its condition in any form `c`: the label if it holds, else the next instruction. -/
theorem exec_branch_of_iff {i : Instr} {label : Addr} {s : State} {c : Prop} [Decidable c]
    (htarget : targetOf i = some label) (hregs : legal s i.usedRegs) (hc : branchTaken i s ↔ c) :
    exec i s = .next { s with pc := if c then label else behind i s } := by
  rw [exec_branch htarget hregs, if_congr ((taken_iff hregs).trans hc) rfl rfl]

/-- Settles O36: bro uses no register, and its condition is `OV` itself. -/
theorem overflowBranch : Obligations.OverflowBranch :=
  fun _ _ => exec_branch_of_iff rfl nofun Iff.rfl

/-! ### The two readings of a comparison -/

theorem lessThan_unsigned_iff {a b : Word} : lessThan false a b = true ↔ a.toNat < b.toNat := decide_eq_true_iff

theorem lessThan_signed_iff {a b : Word} : lessThan true a b = true ↔ a.toInt < b.toInt := decide_eq_true_iff

/-- Settles O38: the condition is `lessThan`, of `x[rd]` and `x[rn]` for blt and the other way round for bgt. -/
theorem orderBranches : Obligations.OrderBranches := by
  intro rd rn label s hregs
  constructor
  · intro hreading
    have hless (a b : Word) : lessThan s.params.cmpSigned a b = true ↔ a.toNat < b.toNat :=
      hreading ▸ lessThan_unsigned_iff
    exact ⟨exec_branch_of_iff rfl hregs ((and_iff_right hregs).trans (hless ..)),
      exec_branch_of_iff rfl hregs ((and_iff_right hregs).trans (hless ..))⟩
  · intro hreading
    have hless (a b : Word) : lessThan s.params.cmpSigned a b = true ↔ a.toInt < b.toInt :=
      hreading ▸ lessThan_signed_iff
    exact ⟨exec_branch_of_iff rfl hregs ((and_iff_right hregs).trans (hless ..)),
      exec_branch_of_iff rfl hregs ((and_iff_right hregs).trans (hless ..))⟩

/-- Bit 15 of a value weighs 2^15: it is set from there on. -/
theorem bit15_eq_decide (v : Word) : v.getLsbD 15 = decide (2 ^ 15 ≤ v.toNat) :=
  (BitVec.msb_eq_getLsbD_last v).symm.trans (BitVec.msb_eq_decide v)

/-- Values whose bits 15 agree compare alike under both readings (43_branch R221). -/
theorem lessThan_signed_of_bit15_eq {a b : Word} (h : a.getLsbD 15 = b.getLsbD 15) :
    lessThan true a b = lessThan false a b := by
  rw [bit15_eq_decide, bit15_eq_decide, decide_eq_decide] at h
  rw [Bool.eq_iff_iff, lessThan_signed_iff, lessThan_unsigned_iff, BitVec.toInt_eq_toNat_cond,
    BitVec.toInt_eq_toNat_cond]
  omega

/-- Of two values whose bits 15 differ, the one that has the bit is the lesser as a two's-complement integer and the
greater as an unsigned one (43_branch R221). -/
theorem lessThan_of_bit15_ne {a b : Word} (h : a.getLsbD 15 ≠ b.getLsbD 15) :
    lessThan true a b = a.getLsbD 15 ∧ lessThan false a b = b.getLsbD 15 := by
  rw [bit15_eq_decide, bit15_eq_decide, ne_eq, decide_eq_decide] at h
  constructor
  · rw [Bool.eq_iff_iff, lessThan_signed_iff, BitVec.toInt_eq_toNat_cond, BitVec.toInt_eq_toNat_cond,
      bit15_eq_decide, decide_eq_true_iff]
    omega
  · rw [Bool.eq_iff_iff, lessThan_unsigned_iff, bit15_eq_decide, decide_eq_true_iff]
    omega

/-- Settles O39: where bits 15 differ, each reading answers the bit of another of the two values. -/
theorem signedReadingDiffersAtBit15 : Obligations.SignedReadingDiffersAtBit15 := by
  intro a b
  by_cases h : a.getLsbD 15 = b.getLsbD 15
  · exact iff_of_false (· (lessThan_signed_of_bit15_eq h)) (· h)
  · obtain ⟨hsigned, hunsigned⟩ := lessThan_of_bit15_ne h
    rw [hsigned, hunsigned]

/-- Either reading is a total order: two values are equal, or exactly one of them is the lesser (43_branch R221). -/
theorem lessThan_trichotomy (cmpSigned : Bool) (a b : Word) :
    (a = b ∧ ¬ lessThan cmpSigned a b = true ∧ ¬ lessThan cmpSigned b a = true) ∨
      (a ≠ b ∧ lessThan cmpSigned a b = true ∧ ¬ lessThan cmpSigned b a = true) ∨
      (a ≠ b ∧ ¬ lessThan cmpSigned a b = true ∧ lessThan cmpSigned b a = true) := by
  cases cmpSigned with
  | false =>
    rw [lessThan_unsigned_iff, lessThan_unsigned_iff, ne_eq, ← BitVec.toNat_inj]
    omega
  | true =>
    rw [lessThan_signed_iff, lessThan_signed_iff, ne_eq, ← BitVec.toInt_inj]
    omega

/-- Settles O40: with the label elsewhere, a branch is at its label exactly when its condition holds. -/
theorem exactlyOneCompareBranchTaken : Obligations.ExactlyOneCompareBranchTaken := by
  intro rd rn label s hregs hbe hblt hbgt
  refine ⟨_, _, _, exec_branch_of_iff rfl hregs (and_iff_right hregs),
    exec_branch_of_iff rfl hregs (and_iff_right hregs), exec_branch_of_iff rfl hregs (and_iff_right hregs), ?_⟩
  simp only [ne_eq, Ne.ite_eq_left_iff hbe, Ne.ite_eq_left_iff hblt, Ne.ite_eq_left_iff hbgt]
  exact lessThan_trichotomy ..

/-! ### The form of a branch -/

/-- What the six branches have in common: the range of their opcodes, the specifier zero, and a label of 32 bits, which
under the reference layout makes a length of 8 bytes (30_encoding R85, R89). -/
structure BranchForm (f : Form) : Prop where
  opcode    : 10 ≤ f.opcode.toNat ∧ f.opcode.toNat ≤ 15
  spec      : f.spec = 0
  operand   : f.uses.operand = .val32
  reference : Config.reference.len f = 8

theorem branchForm {i : Instr} {label : Addr} (htarget : targetOf i = some label) : BranchForm i.form := by
  cases i with
  | b | be | bne | blt | bgt | bro => exact ⟨by simp [Instr.form, Form.opcode], rfl, rfl, rfl⟩
  | _ => cases htarget

/-- The header of the reference layout, with opcode and specifier first (30_encoding R82). -/
theorem headerAt_of_referenceEncoding {s : State} {opcode spec rd rn : Byte} {rest : List Byte}
    (h : referenceEncoding s.params) (htext : textAt s = opcode :: spec :: rd :: rn :: rest) :
    headerAt s opcode spec [opcode, spec, rd, rn] rest :=
  ⟨htext, rfl, by rw [h.1]; rfl, by rw [h.1]; rfl⟩

theorem BranchForm.len {f : Form} (hf : BranchForm f) {p : Params} (h : referenceEncoding p) : p.len f = 8 := by
  obtain ⟨-, -, hlen, -⟩ := eq_atReference h
  rw [hlen, hf.reference]

/-- The specifier of a branch is zero: any other is illegal (30_encoding R97). -/
theorem BranchForm.step_of_spec {f : Form} (hf : BranchForm f) {s : State} {spec rd rn : Byte} {rest : List Byte}
    (h : referenceEncoding s.params) (hr : ready s) (ht : atText s)
    (htext : textAt s = f.opcode :: spec :: rd :: rn :: rest) (hspec : spec ≠ 0) :
    step s = .next (faultedWith s (.illegalInstruction s.pc f.opcode spec)) := by
  have hspecNat : spec.toNat ≠ 0 := fun hzero => hspec (BitVec.eq_of_toNat_eq hzero)
  obtain ⟨hlow, hhigh⟩ := hf.opcode
  exact undefinedFormFaults s f.opcode spec _ rest hr ht (headerAt_of_referenceEncoding h htext)
    (.inr (.inr (.inr (.inr ⟨hlow, hhigh, hspecNat⟩))))

/-- A branch whose label is not all in the text cannot be fetched (20_memory R56, 30_encoding R90). -/
theorem BranchForm.step_of_short {f : Form} (hf : BranchForm f) {s : State} {rd rn : Byte} {rest : List Byte}
    (h : referenceEncoding s.params) (hr : ready s) (ht : atText s)
    (htext : textAt s = f.opcode :: f.spec :: rd :: rn :: rest)
    (hshort : rest.length < 4) : step s = .next (faultedWith s (.fetchFault (s.pc + 4) 4)) := by
  obtain ⟨-, hrest⟩ := fetchFaultsOfStep s
  have hform : formOf f.opcode f.spec = some f := by simpa using formOf_form (f.instr {})
  have hlen := hf.len h
  have hfault := hrest f.opcode f.spec _ rest f hr ht (headerAt_of_referenceEncoding h htext) hform (by omega)
  rwa [hlen] at hfault

/-- Settles O35: b tests nothing, and has rd and rn among its unused fields. -/
theorem unconditionalBranch : Obligations.UnconditionalBranch := by
  intro label s
  have hform : BranchForm .b := branchForm (i := .b label) rfl
  have hnext := exec_branch_of_iff (i := .b label) (s := s) rfl nofun Iff.rfl
  rw [if_pos trivial] at hnext
  refine ⟨hnext, headerFetchFaults_holds s, fun h => ⟨encode_of_referenceEncoding h _, ?_⟩⟩
  intro spec rd rn rest hr ht htext
  refine ⟨hform.step_of_spec h hr ht htext, ?_, ?_⟩
  · rintro rfl hshort
    exact hform.step_of_short h hr ht htext hshort
  · rintro rfl hcomplete hunused
    obtain ⟨-, hfault, -⟩ := unusedFieldNotZeroFaults
    have hlen := hform.len h
    exact hfault s 0x0A 0 rd rn rest .b h hr ht htext rfl (by omega) (by simpa [unusedBytes] using hunused)

/-- What be and bne share: both use rd and rn, and fill the header with them. -/
theorem compareForm_bytesAndFaults {opcode : Byte} {form : RegNum → RegNum → Addr → Instr}
    (htarget : ∀ rd rn label, targetOf (form rd rn label) = some label)
    (hfields : ∀ rd rn label, usedFields (form rd rn label) = [(.rd, rd), (.rn, rn)])
    (hrow : ∀ order rd rn label,
      rowOf order (form rd rn label) = [opcode, 0x00, rd, rn] ++ laid order (dwordLeastFirst label))
    (hopcode : ∀ rd rn label, (form rd rn label).form.opcode = opcode) : compareFormBytesAndFaults opcode form := by
  intro rd rn label s
  have hform := branchForm (htarget rd rn label)
  refine ⟨registerFaults_of_usedFields (hfields rd rn label) s, headerFetchFaults_holds s, fun h => ⟨?_, ?_, ?_⟩⟩
  · rw [encode_of_referenceEncoding h, hrow]
  · rw [behind, Instr.length, hform.len h]
    rfl
  · intro spec rest hr ht htext
    rw [← hopcode rd rn label] at htext ⊢
    refine ⟨hform.step_of_spec h hr ht htext, ?_⟩
    rintro rfl hshort
    exact hform.step_of_short h hr ht (hform.spec ▸ htext) hshort

/-- Settles O37: the condition of be is that the two values are equal, and that of bne that they are not. -/
theorem equalityBranches : Obligations.EqualityBranches := by
  refine ⟨fun rd rn label s hregs => ?_, ?_, ?_⟩
  · exact ⟨exec_branch_of_iff rfl hregs (and_iff_right hregs), exec_branch_of_iff rfl hregs (and_iff_right hregs)⟩
  · exact compareForm_bytesAndFaults (fun _ _ _ => rfl) (fun _ _ _ => rfl) (fun _ _ _ _ => rfl) (fun _ _ _ => rfl)
  · exact compareForm_bytesAndFaults (fun _ _ _ => rfl) (fun _ _ _ => rfl) (fun _ _ _ _ => rfl) (fun _ _ _ => rfl)

/-! ### A branch to its own address -/

/-- A label fits its field under every layout (30_encoding R85). -/
theorem BranchForm.fits {i : Instr} (hf : BranchForm i.form) (p : Params) : i.fits p = true := by
  have hwidth : p.operandBytes i.form = 4 := by rw [Params.operandBytes, hf.operand]
  rw [Instr.fits, hwidth]
  exact decide_eq_true i.fields.operand.isLt

/-- The condition of a branch includes that its registers are there (43_branch R221). -/
theorem legal_of_branchTaken {i : Instr} {s : State} (h : branchTaken i s) : legal s i.usedRegs := by
  cases i with
  | b | bro => exact nofun
  | be | bne | blt | bgt => exact h.1
  | _ => cases h

/-- A machine whose step leaves it as it is stays so (00_scope R9). -/
theorem stateAfter_of_step_self {s : State} (h : step s = .next s) (n : Nat) : stateAfter n s = some s := by
  induction n with
  | zero => rfl
  | succ k ih => rw [stateAfter, h]; exact ih

/-- A running machine whose step leaves it as it is never ends (70_reset_and_hazards R284). -/
theorem not_endsSuccessfully_of_step_self {s : State} (hs : s.status = .running) (h : step s = .next s) :
    ¬ endsSuccessfully s := by
  rintro ⟨n, t, hrun, hfinal⟩
  rw [stateAfter_of_step_self h] at hrun
  cases hrun
  simp [State.final, hs] at hfinal

/-- Settles O41: the branch decodes, is taken, and so writes to `pc` what is there. -/
theorem selfBranchNeverEnds : Obligations.SelfBranchNeverEnds := by
  intro s i rest hr ht htext htarget htaken
  have ⟨hrunning, _, hparams⟩ := hr
  have hdecode : decode s.params (textAt s) = .ok i := by
    rw [htext]
    exact decodeInvertsEncode s.params i rest hparams ((branchForm htarget).fits s.params)
  have hself : step s = .next s := by
    rw [stepExecutesDecodedInstruction s i hr ht hdecode,
      exec_branch_of_iff htarget (legal_of_branchTaken htaken) (iff_true_intro htaken), if_pos trivial]
  exact ⟨stateAfter_of_step_self hself, not_endsSuccessfully_of_step_self hrunning hself⟩

end Sys2Proof.Machine
end

section
/-! SUPPORT. What a step does to the status (60_exceptions R250, R257). -/

namespace Sys2Proof.Machine

/-- Everything an instruction can do to the status: raise a fault, which changes nothing else, or leave it as it is
(60_exceptions R250). -/
theorem exec_next_status {i : Instr} {s t : State} (h : exec i s = .next t) :
    (∃ f, t = faultState f s) ∨ t.status = s.status := by
  obtain ⟨f, v, rfl⟩ := exists_instr i
  rcases exec_instr_next h with hfault | ⟨-, -, rfl⟩
  · exact .inl hfault
  · exact .inr (completed_keepsSetting f v s).status

/-- Everything a step can do to the status: end at `PROG_END`, raise a fault, or go on running; the first two change
nothing else (60_exceptions R250, R257). -/
theorem step_next_status {s t : State} (h : step s = .next t) :
    (s.pc.toNat = s.launch.progEnd ∧ t = { s with status := .ended }) ∨
      (∃ f, t = faultState f s) ∨ t.status = .running := by
  obtain ⟨hrunning, -, -, hended | ⟨-, ⟨f, -, hfault⟩ | ⟨i, -, hexec⟩⟩⟩ := step_next h
  · exact .inl hended
  · exact .inr (.inl ⟨f, hfault⟩)
  · exact .inr ((exec_next_status hexec).imp_right fun hkept => hkept.trans hrunning)

theorem final_of_faulted {s : State} {f : Fault} (h : s.status = .faulted f) : s.final = false := by
  rw [State.final, h]; rfl

/-- Settles O12: a step that stops the machine has written the status only, and the status alone decides what comes
next. -/
theorem stepFaultsChangeOnlyStatus : Obligations.StepFaultsChangeOnlyStatus := by
  intro s t h
  refine ⟨(step_next h).1, fun hstopped => ?_, fun hended => ?_, fun f hfaulted => ?_⟩
  · rcases step_next_status h with ⟨-, rfl⟩ | ⟨f, rfl⟩ | hrunning
    · rfl
    · rfl
    · exact absurd hrunning hstopped
  · rcases step_next_status h with ⟨hpc, rfl⟩ | ⟨f, rfl⟩ | hrunning
    · exact ⟨hpc, step_of_ended rfl, rfl⟩
    · cases hended
    · cases hrunning.symm.trans hended
  · exact ⟨step_of_faulted hfaulted, final_of_faulted hfaulted⟩

end Sys2Proof.Machine
end

section
/-! SUPPORT. The end of a run (70_reset_and_hazards R284). -/

namespace Sys2Proof.Machine

open Sys2Proof.Claims

/-- A machine that may step and is at `PROG_END` ends, and fetches nothing (70_reset_and_hazards R284). -/
theorem step_of_progEnd {s : State} (hr : ready s) (hpc : s.pc.toNat = s.launch.progEnd) :
    step s = .next { s with status := .ended } := by
  obtain ⟨hrunning, hlaunch, hparams⟩ := hr
  simp only [step, hrunning, hlaunch, hparams, Bool.and_self, if_true, if_pos hpc]

theorem final_iff {s : State} : s.final = true ↔ s.status = .ended := by
  rw [State.final, beq_iff_eq]

/-- Settles O8: the end of the text is looked for before the fetch, and the status alone tells a final state. -/
theorem stepEndsAtProgEnd : Obligations.StepEndsAtProgEnd :=
  fun _ => ⟨step_of_progEnd, final_iff⟩

end Sys2Proof.Machine
end
